-- ==== Sys2Proof/Word.lean ====
section
/-!
DEFINITION. Sys2Proof/Word.lean: the widths of the core (00_scope.md R5, R6). A byte is what a register, a stack cell, an
operand or a result holds; an address is a program slot index as `ip` and a label hold it. The signed and unsigned
readings of R6 are in Machine/Bits.lean.
-/

namespace Sys2Proof

/-- A byte (R6): registers, stack cells, operands, results (R5, data width 8). -/
abbrev Byte := BitVec 8

/-- A 16-bit program slot index: `ip` (R25) and a label's `address` (R39). -/
abbrev SlotAddr := BitVec 16

end Sys2Proof
end

