-- ==== Sys2Proof/Machine/Bits.lean ====
section
/-!
DEFINITION. Sys2Proof/Machine/Bits.lean: the readings and truncations of 00_scope.md R6, over mathematical integers.
-/

namespace Sys2Proof.Machine

/-- The unsigned reading of a byte, 0 to 255 (R6). -/
def u8 (v : Byte) : Nat := v.toNat

/-- The signed two's-complement reading of a byte, -128 to 127 (R6). -/
def s8 (v : Byte) : Int := v.toInt

/-- The unsigned reading of a 16-bit value (R6). -/
def u16 (v : SlotAddr) : Nat := v.toNat

/-- The signed reading of a 16-bit value (R6). -/
def s16 (v : SlotAddr) : Int := v.toInt

/-- The byte whose unsigned reading is `z mod 256` (R6). -/
def trunc8 (z : Int) : Byte := BitVec.ofInt 8 z

/-- The 16-bit value `z mod 65536` (R6). -/
def trunc16 (z : Int) : SlotAddr := BitVec.ofInt 16 z

/-- `v[7:0]` of a 16-bit value (R6). -/
def lowByte (v : SlotAddr) : Byte := v.extractLsb' 0 8

/-- `v[15:8]` of a 16-bit value (R6). -/
def highByte (v : SlotAddr) : Byte := v.extractLsb' 8 8

/-- `hi:lo`, with `hi` in the upper bits (R6). -/
def concatBytes (hi lo : Byte) : SlotAddr := hi ++ lo

end Sys2Proof.Machine
end

