-- ==== Sys2Proof/Machine/Flags.lean ====
section
/-!
DEFINITION. Sys2Proof/Machine/Flags.lean: the ALU law of 41_arith_logic.md R140 and the value computations of the shifts
and rotates (43_shift_incdec.md R180 to R186).
-/

namespace Sys2Proof.Machine

/-- `result(z)`: the exact result truncated to one byte (R140). -/
def result (z : Int) : Byte := trunc8 z

/-- `zeroOf(z)`: the truncated result is 0x00 (R140). -/
def zeroOf (z : Int) : Bool := trunc8 z == 0x00

/-- `ovfOf(z)`: the exact result differs from the signed reading of its truncation (R140). -/
def ovfOf (z : Int) : Bool := z != s8 (trunc8 z)

/-- `truncToZero(p / q)` for a divisor that is not 0 (R144): the quotient rounded toward zero (the spec's decision D6,
log 10). -/
def quotient (p q : Int) : Int := p.tdiv q

/-- The shift or rotate amount: the amount byte read unsigned and clamped to 8 (R180; the unsigned reading is the spec's
decision D9, log 10). -/
def shiftAmount (v : Byte) : Nat := min (u8 v) 8

/-- SHL's value, and SAL's (R181, R182). -/
def shiftLeft (a : Byte) (n : Nat) : Byte := trunc8 ((u8 a * 2 ^ n : Nat) : Int)

/-- SHR's value: a logical right shift of the unsigned reading (R183). -/
def shiftRightLogical (a : Byte) (n : Nat) : Byte := trunc8 ((u8 a / 2 ^ n : Nat) : Int)

/-- SAR's value: `floor(s8(a) / 2^n)` (R184; general knowledge K1, log 16). -/
def shiftRightArith (a : Byte) (n : Nat) : Byte := trunc8 ((s8 a).fdiv ((2 ^ n : Nat) : Int))

/-- ROL's value: bits leaving at bit 7 re-enter at bit 0 (R185; general knowledge K2 and K3, log 16). -/
def rotateLeft (a : Byte) (n : Nat) : Byte :=
  trunc8 (((u8 a * 2 ^ n) ||| (u8 a / 2 ^ (8 - n)) : Nat) : Int)

/-- ROR's value (R186; general knowledge K2 and K3, log 16). -/
def rotateRight (a : Byte) (n : Nat) : Byte :=
  trunc8 (((u8 a / 2 ^ n) ||| (u8 a * 2 ^ (8 - n)) : Nat) : Int)

end Sys2Proof.Machine
end

