-- ==== Sys2Proof/Config.lean ====
section
/-!
DEFINITION. Sys2Proof/Config.lean: the configuration (00_scope.md R5, log 23): the enumerations that the numeric maps give
numbers to, the record of parameters that the decoder, the machine and the host's inputs take, the fixed sizes, and the one
free value. The values the spec states as defaults are in Machine/Codes.lean (`Config.parameters`).
-/

namespace Sys2Proof

/-- The registers that have a name: the general registers A to D (R22) and the host-visible PORTS (R23). Their indices in the
register file are the parameter `registerIndex`. -/
inductive Reg where
  | a
  | b
  | c
  | d
  | ports
deriving DecidableEq, Repr

/-- The fault codes by name (R33, R261). Their byte values are the parameter `faultCodeMap`. -/
inductive FaultCode where
  | nominal
  | divisionByZero
  | stackUnderflow
  | stackOverflow
  | undefinedIp
  | codeError
  | outOfBounds
  | halted
deriving DecidableEq, Repr

/-- The mnemonics of R95, aliases included: each is an opcode of its own (R101, D2). -/
inductive Opcode where
  | add | sub | mul | div | and | or | xor | not | cmp | mov
  | shl | sal | shr | sar | rol | ror | inc | dec
  | push | pop | pusha | popa | call | ret
  | jmp | loop | jz | je | jnz | jne | jc | jnc | djnz
  | clz | sez | clc | sec | wfe | hlt | nop
deriving DecidableEq, Repr

/-- One instruction record as it stands in a program slot (30_encoding.md R80), byte 0 first. -/
structure Record where
  /-- byte 0: selects the instruction (R81) -/
  opcode : Byte
  /-- byte 1: raw byte of slot 0 -/
  operand0 : Byte
  /-- byte 2: raw byte of slot 1 -/
  operand1 : Byte
  /-- byte 3: the operand-mode bits (R82) -/
  mode : Byte
  /-- byte 4: the signed offset both slots share (R84) -/
  offset : Byte
deriving DecidableEq, Repr

/-- One entry of the label table (10_state.md R39). The name has no architectural effect. -/
structure Label where
  name : String
  address : SlotAddr
deriving DecidableEq, Repr

namespace Config

/-- The parameters that R5 asks a model to take as configuration, "because the source does not fix them", and the two
functions that 93_implementation_defined.md lists as parameters (its rows 17 and 18). PORTS_RESET, which R5 leaves open, is
an argument of load and reset (Machine/HostInputs.lean). -/
structure Parameters where
  /-- OPCODE_MAP: each mnemonic's opcode byte (R95, D2) -/
  opcodeMap : Opcode → Byte
  /-- FAULT_CODE_MAP: each fault code's byte (R261, D3) -/
  faultCodeMap : FaultCode → Byte
  /-- INTERNAL_FAULT_CODE: the code internal-error faults record (R263, D10) -/
  internalFaultCode : FaultCode
  /-- NUM_REGS: the number of registers of the register file (R21, D1). An index that no name has, in a file with more than
  five, is a register like any other, without an implicit role (R22). -/
  numRegs : Nat
  /-- the index of each named register (R21, D1) -/
  registerIndex : Reg → Nat
  /-- DIV's quotient, "a configuration function of the two operands alone", for a divisor that is not 0 (R144, D6) -/
  quotient : Byte → Byte → Int
  /-- CMP's `overflow`, of its two operands (R149, D7) -/
  compareOverflow : Byte → Byte → Bool
  /-- each mnemonic gets its own value (R95) -/
  opcodeMap_injective : Function.Injective opcodeMap
  /-- each fault code has its own byte (R261) -/
  faultCodeMap_injective : Function.Injective faultCodeMap
  /-- each named register has its own index (R21) -/
  registerIndex_injective : Function.Injective registerIndex
  /-- the index of a named register is valid (R24) -/
  registerIndex_lt : ∀ r : Reg, registerIndex r < numRegs

/-- STACK_SIZE (R5, R40): the stack/data memory has indices 0 to 63. -/
def stackSize : Nat := 64

/-- FREE VALUE (log 5). The text an internal-error fault writes into `diag`: "a text derived from `ir`" by the external
disassembler, which is out of scope (R37, R263, D23). It has no body: nothing can be proved of the text. -/
opaque diagText : Option Record → String

end Config

end Sys2Proof
end

