-- ==== Sys2Proof/Machine/Codes.lean ====
section
/-!
DEFINITION. Sys2Proof/Machine/Codes.lean: the defaults of the parameters of 00_scope.md R5, gathered in
`Config.parameters`; the register indices and the register file at power-on, for any parameters; and the reset values that
the spec leaves to the model. A function of the model takes the parameters as its last argument, which is
`Config.parameters` where none is given.
-/

namespace Sys2Proof

/-- The default of OPCODE_MAP (R5, R95): each mnemonic's opcode byte, in the table's order (the spec's decision D2,
log 7). -/
def opcodeMap : Opcode → Byte
  | .add => 0x00
  | .sub => 0x01
  | .mul => 0x02
  | .div => 0x03
  | .and => 0x04
  | .or => 0x05
  | .xor => 0x06
  | .not => 0x07
  | .cmp => 0x08
  | .mov => 0x09
  | .shl => 0x0A
  | .sal => 0x0B
  | .shr => 0x0C
  | .sar => 0x0D
  | .rol => 0x0E
  | .ror => 0x0F
  | .inc => 0x10
  | .dec => 0x11
  | .push => 0x12
  | .pop => 0x13
  | .pusha => 0x14
  | .popa => 0x15
  | .call => 0x16
  | .ret => 0x17
  | .jmp => 0x18
  | .loop => 0x19
  | .jz => 0x1A
  | .je => 0x1B
  | .jnz => 0x1C
  | .jne => 0x1D
  | .jc => 0x1E
  | .jnc => 0x1F
  | .djnz => 0x20
  | .clz => 0x21
  | .sez => 0x22
  | .clc => 0x23
  | .sec => 0x24
  | .wfe => 0x25
  | .hlt => 0x26
  | .nop => 0x27

namespace Config

/-- The default of FAULT_CODE_MAP (R261; the spec's decision D3, log 8). -/
def faultCodeMap : FaultCode → Byte
  | .nominal => 0x00
  | .divisionByZero => 0x01
  | .stackUnderflow => 0x02
  | .stackOverflow => 0x03
  | .undefinedIp => 0x04
  | .codeError => 0x05
  | .outOfBounds => 0x06
  | .halted => 0x07

/-- The default of INTERNAL_FAULT_CODE (R5, R263; the spec's decision D10, log 8). -/
def internalFaultCode : FaultCode := .codeError

/-- The default of NUM_REGS (R5, R21; the spec's decision D1, log 6). -/
def numRegs : Nat := 5

/-- The default register indices (R5, R21; the spec's decision D1, log 6). -/
def registerIndex : Reg → Nat
  | .a => 0
  | .b => 1
  | .c => 2
  | .d => 3
  | .ports => 4

/-- The default quotient of DIV: that of the signed values, rounded toward zero (R144; the spec's decision D6, log 10). -/
def quotient (a b : Byte) : Int := Machine.quotient (Machine.s8 a) (Machine.s8 b)

/-- The default of CMP's `overflow`: that of the signed subtraction (R149; the spec's decision D7, log 10). -/
def compareOverflow (a b : Byte) : Bool := Machine.ovfOf (Machine.s8 a - Machine.s8 b)

theorem opcodeMap_injective : Function.Injective opcodeMap :=
  Function.LeftInverse.injective (g := fun byte => Opcode.ofNat byte.toNat) fun op => by cases op <;> rfl

theorem faultCodeMap_injective : Function.Injective faultCodeMap :=
  Function.LeftInverse.injective (g := fun byte => FaultCode.ofNat byte.toNat) fun c => by cases c <;> rfl

theorem registerIndex_injective : Function.Injective registerIndex :=
  Function.LeftInverse.injective (g := Reg.ofNat) fun r => by cases r <;> rfl

theorem registerIndex_lt (r : Reg) : registerIndex r < numRegs := by cases r <;> decide

/-- The parameters at the values R5 states as their defaults (log 23). -/
def parameters : Parameters where
  opcodeMap := opcodeMap
  faultCodeMap := faultCodeMap
  internalFaultCode := internalFaultCode
  numRegs := numRegs
  registerIndex := registerIndex
  quotient := quotient
  compareOverflow := compareOverflow
  opcodeMap_injective := opcodeMap_injective
  faultCodeMap_injective := faultCodeMap_injective
  registerIndex_injective := registerIndex_injective
  registerIndex_lt := registerIndex_lt

end Config

/-- The index of a named register: `x[A]` is `x[Reg.a.index]` (R7, R21). -/
def Reg.index (r : Reg) (cfg : Config.Parameters := Config.parameters) : Nat := cfg.registerIndex r

namespace Config

/-- The register index a raw byte is, its unsigned value, where that is valid: below NUM_REGS (R24). -/
def validIndex (raw : Byte) (cfg : Parameters := parameters) : Option Nat :=
  if raw.toNat < cfg.numRegs then some raw.toNat else none

/-- The indices of the four general registers A, B, C and D, in ascending order (R5, R22). -/
def generalRegisters (cfg : Parameters := parameters) : List Nat :=
  ([Reg.a, .b, .c, .d].map cfg.registerIndex).insertionSort (· ≤ ·)

/-- The register file at power-on (R42): every register 0x00 but PORTS, which is PORTS_RESET. -/
def resetRegisters (portsReset : Byte) (cfg : Parameters := parameters) : List Byte :=
  (List.replicate cfg.numRegs 0x00).set (cfg.registerIndex .ports) portsReset

/-- The value `State.reset` gives PORTS. The spec leaves PORTS_RESET open (R5, R42, D4). DESIGN CHOICE, unsafe (log 1):
0x00. Load and reset (Machine/HostInputs.lean) take PORTS_RESET as an argument, as R5 asks. -/
def portsReset : Byte := 0x00

/-- What a stack cell that nothing has written reads as: 0x00, the value load gives every cell (R42, R290, R292; D32 for a
core before its first load). -/
def unwrittenCell : Byte := 0x00

end Config

end Sys2Proof
end

