-- ==== Sys2Proof/Machine/State.lean ====
section
/-!
DEFINITION. Sys2Proof/Machine/State.lean: the state of one core, all of it (10_state.md R20), the reasons a step of the
model can stop, and the state after reset (R42).
-/

namespace Sys2Proof.Machine

/-- The register file `x[0..NUM_REGS-1]` (R20, R21), in index order. That it has NUM_REGS registers, which no step and no host
input changes, is part of the invariant (Safety.lean). -/
abbrev Regs := List Byte

/-- The stack/data memory (R40): the cells that do not read as `Config.unwrittenCell`, at strictly rising indices. -/
abbrev Memory := List Host.Cell

/-- The state of one core (R20). -/
structure State where
  /-- the register file `x` (R21) -/
  regs : Regs
  /-- the instruction pointer (R25) -/
  ip : SlotAddr
  /-- the stack pointer: the index of the next free cell (R27) -/
  sp : Byte
  /-- R28 -/
  zero : Bool
  /-- R29 -/
  overflow : Bool
  /-- R30 -/
  carry : Bool
  /-- the core is halted by a fault (R32) -/
  fault : Bool
  /-- the core waits for the host (R34) -/
  wait : Bool
  /-- the fault-code status register (R33) -/
  faultCode : Byte
  /-- `step`, the single-step request (R35) -/
  stepReq : Bool
  /-- the in-flight instruction buffer (R36) -/
  ir : Option Record
  /-- the optional diagnostic string (R37) -/
  diag : Option String
  /-- the 64-byte stack/data memory (R40) -/
  stack : Memory
  /-- the program memory `Prog` (R38) -/
  prog : List Record
  /-- the label table `Label` (R39) -/
  labels : List Label
deriving DecidableEq, Repr

/-- Why a step of the model could stop outside the machine. There is no reason: every fault of the spec (60_exceptions.md
R260, R261) is a next state of the machine, with `fault` = 1 and `faultCode` written, so the type is empty and no step
raises one. -/
inductive Fault
deriving DecidableEq, Repr

/-- Why the model could refuse an instruction. -/
inductive Refusal where
  /-- Raised by an arm of `exec` for an instruction without a meaning; no arm raises it, since every instruction has its
  meaning. Safe. -/
  | notModelled (mnemonic : String)
deriving DecidableEq, Repr

/-- The outcome of a meaning or of a step. -/
abbrev Outcome := Host.Outcome State Fault Refusal

/-- The machine right after reset, with nothing loaded: every element at its power-on value (R42), which for a core before
its first load is the state that load of an absent program gives (D32). PORTS is at `Config.portsReset` (log 1). -/
def State.reset : State where
  regs := Config.resetRegisters Config.portsReset
  ip := 0x0000
  sp := 0x00
  zero := false
  overflow := false
  carry := false
  fault := false
  wait := false
  faultCode := Config.faultCodeMap .nominal
  stepReq := false
  ir := none
  diag := none
  stack := []
  prog := []
  labels := []

end Sys2Proof.Machine
end

