-- ==== Sys2Proof/Machine/Ops.lean ====
section
/-!
DEFINITION. Sys2Proof/Machine/Ops.lean: the named operations over memory, registers and flags, taking a fault (the one
exception mechanism, 60_exceptions.md R260, R266), and the stack primitives (44_stack_call.md R200).
-/

namespace Sys2Proof.Machine

/-! ### The stack/data memory (10_state.md R40, 20_memory.md R67) -/

/-- The byte at an index: the listed cell's, or what an unwritten cell reads as. -/
def memLookup : Memory → Nat → Byte
  | [], _ => Config.unwrittenCell
  | (i, v) :: rest, idx => if i = idx then v else memLookup rest idx

/-- The memory after a byte is stored at an index, in canonical form again. -/
def memStore : Memory → Nat → Byte → Memory
  | [], idx, v => if v = Config.unwrittenCell then [] else [(idx, v)]
  | (i, w) :: rest, idx, v =>
    if idx < i then
      if v = Config.unwrittenCell then (i, w) :: rest else (idx, v) :: (i, w) :: rest
    else if i = idx then
      if v = Config.unwrittenCell then rest else (idx, v) :: rest
    else (i, w) :: memStore rest idx v

/-- Canonical form from an index on: strictly rising indices below the stack size, no cell that reads as unwritten. -/
def Memory.wfFrom : Nat → Memory → Bool
  | _, [] => true
  | lo, (i, v) :: rest =>
    decide (lo ≤ i) && decide (i < Config.stackSize) && decide (v ≠ Config.unwrittenCell) && Memory.wfFrom (i + 1) rest

/-- The canonical form of the stack/data memory. -/
def Memory.wf (m : Memory) : Bool := Memory.wfFrom 0 m

/-- `MemRead(idx, 1)` (R7). Every caller has checked the index (R69). -/
def State.memRead (s : State) (idx : Nat) : Byte := memLookup s.stack idx

/-- `MemWrite(idx, 1, v)` (R7). Every caller has checked the index (R69). -/
def State.memWrite (s : State) (idx : Nat) (v : Byte) : State := { s with stack := memStore s.stack idx v }

/-! ### The register file (10_state.md R21 to R24) -/

/-- `x[i]` (R7). Every caller has checked the index (R24). -/
def State.reg (s : State) (i : Nat) : Byte := s.regs.getD i 0x00

/-- `x[i] <- v` (R7). Every caller has checked the index (R24). No register is hardwired (R21). -/
def State.setReg (s : State) (i : Nat) (v : Byte) : State := { s with regs := s.regs.set i v }

/-- A register by its name, as `x[A]` (R7). -/
def State.named (s : State) (r : Reg) (cfg : Config.Parameters := Config.parameters) : Byte := s.reg (r.index cfg)

/-! ### Pointers and flags -/

/-- `ip <- target` (R7). -/
def State.setIp (s : State) (target : SlotAddr) : State := { s with ip := target }

/-- `sp <- v` (R7). -/
def State.setSp (s : State) (v : Byte) : State := { s with sp := v }

/-- `zero <- b` (R28). -/
def State.setZero (s : State) (b : Bool) : State := { s with zero := b }

/-- `overflow <- b` (R29). -/
def State.setOverflow (s : State) (b : Bool) : State := { s with overflow := b }

/-- `carry <- b` (R30). -/
def State.setCarry (s : State) (b : Bool) : State := { s with carry := b }

/-- `wait <- b` (R34). -/
def State.setWait (s : State) (b : Bool) : State := { s with wait := b }

/-- The writes of ADD, SUB, MUL and DIV for an exact result `z` (R140): the register, `zero` and `overflow`. -/
def State.writeArith (s : State) (r : Nat) (z : Int) : State :=
  ((s.setReg r (result z)).setZero (zeroOf z)).setOverflow (ovfOf z)

/-- The writes of the instructions that list `zero` alone (R31): the register and `zero`. -/
def State.writeLogic (s : State) (r : Nat) (v : Byte) : State :=
  (s.setReg r v).setZero (v == 0x00)

/-! ### Taking a fault (60_exceptions.md R266, R263) -/

/-- What `raise Fault(code)` is raised for. -/
inductive Trap where
  /-- a fault with a named code (R261) -/
  | code (c : FaultCode)
  /-- an internal-error fault (R263): INTERNAL_FAULT_CODE, and a diagnostic text -/
  | internal
  /-- MOV with a label destination (42_move.md R170): CODE_ERROR, and the text the source gives -/
  | labelDestination
deriving DecidableEq, Repr

/-- The code a fault records (R261, R263, R170). -/
def Trap.faultCode (t : Trap) (cfg : Config.Parameters := Config.parameters) : FaultCode :=
  match t with
  | .code c => c
  | .internal => cfg.internalFaultCode
  | .labelDestination => .codeError

/-- The diagnostic string after a fault (R37): set by an internal-error fault (a free text, log 5) and by MOV's label
destination, unchanged by any other fault. -/
def Trap.diagAfter (t : Trap) (s : State) : Option String :=
  match t with
  | .code _ => s.diag
  | .internal => some (Config.diagText s.ir)
  | .labelDestination => some "label in first operand"

/-- FAULT ENTRY (R266): `fault <- 1` and `faultCode <- code`. Nothing else is saved, no mode changes, there is no vector,
and `ip` stays where the tick left it. There is no return from a fault: only the host's load, reset and restore clear it
(R267, Machine/HostInputs.lean and Machine/Snapshot.lean). -/
def State.raise (s : State) (t : Trap) (cfg : Config.Parameters := Config.parameters) : State :=
  { s with fault := true, faultCode := cfg.faultCodeMap (t.faultCode cfg), diag := t.diagAfter s }

/-- End an instruction: with the writes `k` makes where the checks before them gave a value, with the fault on the
unchanged state where one of them raised it (R8, R140, D33). -/
def conclude {α : Type} (cfg : Config.Parameters) (s : State) (checks : Except Trap α) (k : α → State) :
    Outcome :=
  match checks with
  | .ok x => .next (k x)
  | .error t => .next (s.raise t cfg)

/-! ### The stack primitives (44_stack_call.md R200) -/

/-- `push(v)`: the full-stack check before the write (R200, R69). -/
def State.push (s : State) (v : Byte) : Except Trap State :=
  if u8 s.sp ≥ Config.stackSize then .error (.code .stackOverflow)
  else .ok ((s.memWrite (u8 s.sp) v).setSp (s.sp + 1))

/-- `pop()`: the empty-stack check before the read; the cell keeps its byte (R200, D17). -/
def State.pop (s : State) : Except Trap (Byte × State) :=
  if u8 s.sp = 0 then .error (.code .stackUnderflow)
  else .ok (s.memRead (u8 s.sp - 1), s.setSp (s.sp - 1))

/-- Pushes in sequence, ended by the first that faults; the pushes before it stay (R203, R266). -/
def State.pushAll (s : State) (bytes : List Byte) (cfg : Config.Parameters := Config.parameters) : State :=
  match bytes with
  | [] => s
  | v :: vs =>
    match s.push v with
    | .ok s' => s'.pushAll vs cfg
    | .error t => s.raise t cfg

/-- Pops into registers in sequence, ended by the first that faults; the pops before it stay (R204, R266). -/
def State.popAll (s : State) (regs : List Nat) (cfg : Config.Parameters := Config.parameters) : State :=
  match regs with
  | [] => s
  | r :: rs =>
    match s.pop with
    | .ok (v, s') => (s'.setReg r v).popAll rs cfg
    | .error t => s.raise t cfg

end Sys2Proof.Machine
end

