-- ==== Sys2Proof/Syntax.lean ====
section
/-!
DEFINITION. Sys2Proof/Syntax.lean: the instruction set of 30_encoding.md R95, one constructor of `Instr` for each row of
spec/opcode_table.json. An operand slot keeps its raw byte and its four mode flags (R82, R98); which of them an
instruction honours is said by its meaning (R97).
-/

namespace Sys2Proof

/-- One operand slot of a record: its raw byte and its mode nibble (R82), flag by flag. -/
structure Slot where
  /-- the slot's byte of the record: a register index, a literal value or a label index (R80) -/
  raw : Byte
  /-- nibble bit 0, `lit_k` -/
  literal : Bool
  /-- nibble bit 1, `lab_k` -/
  label : Bool
  /-- nibble bit 2, `off_k` -/
  hasOffset : Bool
  /-- nibble bit 3, `ind_k` -/
  indirect : Bool
deriving DecidableEq, Repr

/-- The instruction formats of R85, by how each uses the two slots. -/
inductive Format where
  /-- no slot is used -/
  | n
  /-- slot 0 is a source value -/
  | s
  /-- slot 0 is a destination register, also read (but by POP) -/
  | d
  /-- slot 0 is a destination register, also read; slot 1 a source value -/
  | ds
  /-- slot 0 is MOV's destination; slot 1 a source value -/
  | m
  /-- both slots are source values -/
  | ss
  /-- slot 0 is a control-transfer target -/
  | t
  /-- slot 0 is a register; slot 1 a control-transfer target -/
  | dt
deriving DecidableEq, Repr

/-- The instruction set. `s0` and `s1` are operand slots 0 and 1 (R9), `off` the shared offset byte (R84). -/
inductive Instr where
  | add (s0 s1 : Slot) (off : Byte)
  | sub (s0 s1 : Slot) (off : Byte)
  | mul (s0 : Slot) (off : Byte)
  | div (s0 : Slot) (off : Byte)
  | and (s0 s1 : Slot) (off : Byte)
  | or (s0 s1 : Slot) (off : Byte)
  | xor (s0 s1 : Slot) (off : Byte)
  | not (s0 : Slot) (off : Byte)
  | cmp (s0 s1 : Slot) (off : Byte)
  | mov (s0 s1 : Slot) (off : Byte)
  | shl (s0 s1 : Slot) (off : Byte)
  | sal (s0 s1 : Slot) (off : Byte)
  | shr (s0 s1 : Slot) (off : Byte)
  | sar (s0 s1 : Slot) (off : Byte)
  | rol (s0 s1 : Slot) (off : Byte)
  | ror (s0 s1 : Slot) (off : Byte)
  | inc (s0 : Slot) (off : Byte)
  | dec (s0 : Slot) (off : Byte)
  | push (s0 : Slot) (off : Byte)
  | pop (s0 : Slot) (off : Byte)
  | pusha
  | popa
  | call (s0 : Slot) (off : Byte)
  | ret
  | jmp (s0 : Slot) (off : Byte)
  | loop (s0 : Slot) (off : Byte)
  | jz (s0 : Slot) (off : Byte)
  | je (s0 : Slot) (off : Byte)
  | jnz (s0 : Slot) (off : Byte)
  | jne (s0 : Slot) (off : Byte)
  | jc (s0 : Slot) (off : Byte)
  | jnc (s0 : Slot) (off : Byte)
  | djnz (s0 s1 : Slot) (off : Byte)
  | clz
  | sez
  | clc
  | sec
  | wfe
  | hlt
  | nop
deriving DecidableEq, Repr

/-- The mnemonic of an instruction. -/
def Instr.opcode : Instr → Opcode
  | .add _ _ _ => .add
  | .sub _ _ _ => .sub
  | .mul _ _ => .mul
  | .div _ _ => .div
  | .and _ _ _ => .and
  | .or _ _ _ => .or
  | .xor _ _ _ => .xor
  | .not _ _ => .not
  | .cmp _ _ _ => .cmp
  | .mov _ _ _ => .mov
  | .shl _ _ _ => .shl
  | .sal _ _ _ => .sal
  | .shr _ _ _ => .shr
  | .sar _ _ _ => .sar
  | .rol _ _ _ => .rol
  | .ror _ _ _ => .ror
  | .inc _ _ => .inc
  | .dec _ _ => .dec
  | .push _ _ => .push
  | .pop _ _ => .pop
  | .pusha => .pusha
  | .popa => .popa
  | .call _ _ => .call
  | .ret => .ret
  | .jmp _ _ => .jmp
  | .loop _ _ => .loop
  | .jz _ _ => .jz
  | .je _ _ => .je
  | .jnz _ _ => .jnz
  | .jne _ _ => .jne
  | .jc _ _ => .jc
  | .jnc _ _ => .jnc
  | .djnz _ _ _ => .djnz
  | .clz => .clz
  | .sez => .sez
  | .clc => .clc
  | .sec => .sec
  | .wfe => .wfe
  | .hlt => .hlt
  | .nop => .nop

end Sys2Proof
end

