-- ==== Sys2Proof/Machine/Operands.lean ====
section
/-!
DEFINITION. Sys2Proof/Machine/Operands.lean: the operand resolver (30_encoding.md R86 to R94). None of these functions
changes the state; each answers a value or the fault it raises.
-/

namespace Sys2Proof.Machine

/-- `regRead(raw)` (R87): the contents of the register a byte names. -/
def regRead (raw : Byte) (s : State) (cfg : Config.Parameters := Config.parameters) : Except Trap Byte :=
  match Config.validIndex raw cfg with
  | some r => .ok (s.reg r)
  | none => .error .internal

/-- The base of a register or literal slot (R86, R90): the raw byte itself (R88), or the register it names. -/
def slotBase (k : Slot) (s : State) (cfg : Config.Parameters := Config.parameters) : Except Trap Byte :=
  if k.literal then .ok k.raw else regRead k.raw s cfg

/-- What the offset byte adds to a slot: `s8(offset)` where the slot's offset flag is set, else nothing (R84). -/
def slotOffset (k : Slot) (off : Byte) : Int := if k.hasOffset then s8 off else 0

/-- `index(k)` (R90): the index of an indirect slot, in 0 to 63. The base is read signed (the spec's decision D5). -/
def index (k : Slot) (off : Byte) (s : State) (cfg : Config.Parameters := Config.parameters) :
    Except Trap Nat :=
  match slotBase k s cfg with
  | .error t => .error t
  | .ok base =>
    let i := s8 base + slotOffset k off
    if i < 0 ∨ 63 < i then .error (.code .outOfBounds) else .ok i.toNat

/-- `labelValue(k)` (R89): byte 1 of the record at the label's resolved address. -/
def labelValue (k : Slot) (off : Byte) (s : State) : Except Trap Byte :=
  match s.labels[u8 k.raw]? with
  | none => .error .internal
  | some l =>
    let a := (u16 l.address : Int) + slotOffset k off
    if a < 0 then .error .internal
    else
      match s.prog[a.toNat]? with
      | none => .error .internal
      | some r => .ok r.operand0

/-- `resolve(k)` (R86): the byte value of a slot. -/
def resolve (k : Slot) (off : Byte) (s : State) (cfg : Config.Parameters := Config.parameters) :
    Except Trap Byte :=
  if k.label then
    if k.indirect then .error .internal else labelValue k off s
  else
    match slotBase k s cfg with
    | .error t => .error t
    | .ok base =>
      if k.indirect then
        match index k off s cfg with
        | .error t => .error t
        | .ok i => .ok (s.memRead i)
      else .ok base

/-- `dst(0)` (R93): the register slot 0's raw byte names, whatever its mode nibble (the spec's decision D21). -/
def dst (k : Slot) (cfg : Config.Parameters := Config.parameters) : Except Trap Nat :=
  match Config.validIndex k.raw cfg with
  | some r => .ok r
  | none => .error .internal

/-- `target(k)` (R94): the resolved address of the label a slot's raw byte selects. Of the mode flags it honours the
offset flag alone (the spec's decision D14). -/
def target (k : Slot) (off : Byte) (s : State) : Except Trap SlotAddr :=
  match s.labels[u8 k.raw]? with
  | none => .error .internal
  | some l => .ok (trunc16 ((u16 l.address : Int) + slotOffset k off))

/-- The checks of format D (R85, R140): `d <- dst(0); a <- resolve(0)`. -/
def destInput (s0 : Slot) (off : Byte) (s : State) (cfg : Config.Parameters := Config.parameters) :
    Except Trap (Nat × Byte) :=
  match dst s0 cfg with
  | .error t => .error t
  | .ok dest =>
    match resolve s0 off s cfg with
    | .error t => .error t
    | .ok a => .ok (dest, a)

/-- The checks of format DS (R85, R140): `d <- dst(0); a <- resolve(0); b <- resolve(1)`. -/
def destInputs (s0 s1 : Slot) (off : Byte) (s : State) (cfg : Config.Parameters := Config.parameters) :
    Except Trap (Nat × Byte × Byte) :=
  match destInput s0 off s cfg with
  | .error t => .error t
  | .ok (dest, a) =>
    match resolve s1 off s cfg with
    | .error t => .error t
    | .ok b => .ok (dest, a, b)

/-- The checks of format SS (R85): `a <- resolve(0); b <- resolve(1)`. -/
def sourceInputs (s0 s1 : Slot) (off : Byte) (s : State) (cfg : Config.Parameters := Config.parameters) :
    Except Trap (Byte × Byte) :=
  match resolve s0 off s cfg with
  | .error t => .error t
  | .ok a =>
    match resolve s1 off s cfg with
    | .error t => .error t
    | .ok b => .ok (a, b)

/-- Where MOV writes (42_move.md R170). -/
inductive MoveDest where
  | cell (idx : Nat)
  | register (r : Nat)
deriving DecidableEq, Repr

/-- MOV's destination, from slot 0 (R170, R91). -/
def moveDest (s0 : Slot) (off : Byte) (s : State) (cfg : Config.Parameters := Config.parameters) :
    Except Trap MoveDest :=
  if s0.indirect then
    if s0.label then .error .internal
    else
      match index s0 off s cfg with
      | .error t => .error t
      | .ok i => .ok (.cell i)
  else if s0.label then .error .labelDestination
  else
    match dst s0 cfg with
    | .error t => .error t
    | .ok r => .ok (.register r)

end Sys2Proof.Machine
end

