-- ==== Sys2Proof/Machine/ArithLogic.lean ====
section
/-!
DEFINITION. Sys2Proof/Machine/ArithLogic.lean: ADD, SUB, MUL, DIV, AND, OR, XOR, NOT and CMP (41_arith_logic.md R141 to
R149). `ip` already holds the fetched slot + 1 when a meaning runs (40_engine.md R125).
-/

namespace Sys2Proof.Machine

/-- ADD (R141). -/
def execAdd (s0 s1 : Slot) (off : Byte) (s : State) (cfg : Config.Parameters := Config.parameters) : Outcome :=
  conclude cfg s (destInputs s0 s1 off s cfg) fun (dest, a, b) => s.writeArith dest (s8 a + s8 b)

/-- SUB (R142). -/
def execSub (s0 s1 : Slot) (off : Byte) (s : State) (cfg : Config.Parameters := Config.parameters) : Outcome :=
  conclude cfg s (destInputs s0 s1 off s cfg) fun (dest, a, b) => s.writeArith dest (s8 a - s8 b)

/-- MUL (R143): register A is the implicit input and the destination. -/
def execMul (s0 : Slot) (off : Byte) (s : State) (cfg : Config.Parameters := Config.parameters) : Outcome :=
  conclude cfg s (resolve s0 off s cfg) fun b => s.writeArith (Reg.a.index cfg) (s8 (s.named .a cfg) * s8 b)

/-- The checks of DIV (R144): the operand's own faults first, then the divisor. -/
def divisor (s0 : Slot) (off : Byte) (s : State) (cfg : Config.Parameters := Config.parameters) :
    Except Trap Byte :=
  match resolve s0 off s cfg with
  | .error t => .error t
  | .ok b => if s8 b = 0 then .error (.code .divisionByZero) else .ok b

/-- DIV (R144): register A is the dividend and the destination. The quotient is a parameter, by default that
rounded toward zero (D6). -/
def execDiv (s0 : Slot) (off : Byte) (s : State) (cfg : Config.Parameters := Config.parameters) : Outcome :=
  conclude cfg s (divisor s0 off s cfg) fun b => s.writeArith (Reg.a.index cfg) (cfg.quotient (s.named .a cfg) b)

/-- AND (R145). -/
def execAnd (s0 s1 : Slot) (off : Byte) (s : State) (cfg : Config.Parameters := Config.parameters) : Outcome :=
  conclude cfg s (destInputs s0 s1 off s cfg) fun (dest, a, b) => s.writeLogic dest (a &&& b)

/-- OR (R146). -/
def execOr (s0 s1 : Slot) (off : Byte) (s : State) (cfg : Config.Parameters := Config.parameters) : Outcome :=
  conclude cfg s (destInputs s0 s1 off s cfg) fun (dest, a, b) => s.writeLogic dest (a ||| b)

/-- XOR (R147). -/
def execXor (s0 s1 : Slot) (off : Byte) (s : State) (cfg : Config.Parameters := Config.parameters) : Outcome :=
  conclude cfg s (destInputs s0 s1 off s cfg) fun (dest, a, b) => s.writeLogic dest (a ^^^ b)

/-- NOT (R148). -/
def execNot (s0 : Slot) (off : Byte) (s : State) (cfg : Config.Parameters := Config.parameters) : Outcome :=
  conclude cfg s (destInput s0 off s cfg) fun (dest, a) => s.writeLogic dest (~~~a)

/-- CMP (R149): no register is written; `carry` is the signed comparison (the spec's decision D8). `overflow` is a
parameter, by default that of the subtraction (D7). -/
def execCmp (s0 s1 : Slot) (off : Byte) (s : State) (cfg : Config.Parameters := Config.parameters) : Outcome :=
  conclude cfg s (sourceInputs s0 s1 off s cfg) fun (a, b) =>
    ((s.setZero (decide (s8 a = s8 b))).setCarry (decide (s8 a < s8 b))).setOverflow (cfg.compareOverflow a b)

end Sys2Proof.Machine
end

