-- ==== Sys2Proof/Machine/FlagSystem.lean ====
section
/-!
DEFINITION. Sys2Proof/Machine/FlagSystem.lean: CLZ, SEZ, CLC, SEC, WFE, HLT and NOP (46_flag_system.md R240 to R246). Which
flag the first four act on, and which of them set it, is general knowledge K6 (log 16).
-/

namespace Sys2Proof.Machine

/-- CLZ (R240). -/
def execClz (s : State) : Outcome :=
  .next (s.setZero false)

/-- SEZ (R241). -/
def execSez (s : State) : Outcome :=
  .next (s.setZero true)

/-- CLC (R242). -/
def execClc (s : State) : Outcome :=
  .next (s.setCarry false)

/-- SEC (R243). -/
def execSec (s : State) : Outcome :=
  .next (s.setCarry true)

/-- WFE (R244): the core waits for the host from the next tick on. -/
def execWfe (s : State) : Outcome :=
  .next (s.setWait true)

/-- HLT (R245): the fault HALTED, the normal way for a program to stop. -/
def execHlt (s : State) (cfg : Config.Parameters := Config.parameters) : Outcome :=
  .next (s.raise (.code .halted) cfg)

/-- NOP (R246): nothing beyond the fetch-time increment of `ip`. -/
def execNop (s : State) : Outcome :=
  .next s

end Sys2Proof.Machine
end

