-- ==== Sys2Proof/Machine/Jump.lean ====
section
/-!
DEFINITION. Sys2Proof/Machine/Jump.lean: JMP, LOOP, JZ, JE, JNZ, JNE, JC, JNC and DJNZ (45_jump.md R220 to R229). Which
flag a conditional jump tests, and its polarity, is general knowledge K5 (log 16).
-/

namespace Sys2Proof.Machine

/-- A taken jump to a slot's target (R220). The target is evaluated, and can fault, only here (the spec's decision D14). -/
def jumpTo (cfg : Config.Parameters) (k : Slot) (off : Byte) (s : State) : Outcome :=
  conclude cfg s (target k off s) fun a => s.setIp a

/-- A jump taken when a condition holds; otherwise `ip` keeps the fetched slot + 1 (R220). -/
def jumpIf (cfg : Config.Parameters) (cond : Bool) (k : Slot) (off : Byte) (s : State) : Outcome :=
  if cond then jumpTo cfg k off s else .next s

/-- JMP (R221). -/
def execJmp (s0 : Slot) (off : Byte) (s : State) (cfg : Config.Parameters := Config.parameters) : Outcome :=
  jumpTo cfg s0 off s

/-- LOOP (R222): as JMP; it reads and writes no register. -/
def execLoop (s0 : Slot) (off : Byte) (s : State) (cfg : Config.Parameters := Config.parameters) : Outcome :=
  jumpTo cfg s0 off s

/-- JZ (R223). -/
def execJz (s0 : Slot) (off : Byte) (s : State) (cfg : Config.Parameters := Config.parameters) : Outcome :=
  jumpIf cfg s.zero s0 off s

/-- JE (R224): as JZ. -/
def execJe (s0 : Slot) (off : Byte) (s : State) (cfg : Config.Parameters := Config.parameters) : Outcome :=
  jumpIf cfg s.zero s0 off s

/-- JNZ (R225). -/
def execJnz (s0 : Slot) (off : Byte) (s : State) (cfg : Config.Parameters := Config.parameters) : Outcome :=
  jumpIf cfg (!s.zero) s0 off s

/-- JNE (R226): as JNZ. -/
def execJne (s0 : Slot) (off : Byte) (s : State) (cfg : Config.Parameters := Config.parameters) : Outcome :=
  jumpIf cfg (!s.zero) s0 off s

/-- JC (R227). -/
def execJc (s0 : Slot) (off : Byte) (s : State) (cfg : Config.Parameters := Config.parameters) : Outcome :=
  jumpIf cfg s.carry s0 off s

/-- JNC (R228). -/
def execJnc (s0 : Slot) (off : Byte) (s : State) (cfg : Config.Parameters := Config.parameters) : Outcome :=
  jumpIf cfg (!s.carry) s0 off s

/-- DJNZ (R229): the decrement of slot 0's register is written, with `zero`, before a taken jump evaluates slot 1's target
with slot 1's own offset flag (the spec's decision D15). -/
def execDjnz (s0 s1 : Slot) (off : Byte) (s : State) (cfg : Config.Parameters := Config.parameters) : Outcome :=
  match destInput s0 off s cfg with
  | .error t => .next (s.raise t cfg)
  | .ok (dest, a) =>
    let s' := s.writeLogic dest (trunc8 (s8 a - 1))
    jumpIf cfg (!s'.zero) s1 off s'

end Sys2Proof.Machine
end

