-- ==== Sys2Proof/Machine/Move.lean ====
section
/-!
DEFINITION. Sys2Proof/Machine/Move.lean: MOV (42_move.md R170).
-/

namespace Sys2Proof.Machine

/-- The checks of MOV (R170): the source first (the spec's decision D34), then the destination. -/
def moveParts (s0 s1 : Slot) (off : Byte) (s : State) (cfg : Config.Parameters := Config.parameters) :
    Except Trap (Byte × MoveDest) :=
  match resolve s1 off s cfg with
  | .error t => .error t
  | .ok v =>
    match moveDest s0 off s cfg with
    | .error t => .error t
    | .ok dest => .ok (v, dest)

/-- MOV's write (R170). -/
def State.writeMove (s : State) (v : Byte) : MoveDest → State
  | .cell i => s.memWrite i v
  | .register r => s.setReg r v

/-- MOV (R170): it writes no flag. -/
def execMov (s0 s1 : Slot) (off : Byte) (s : State) (cfg : Config.Parameters := Config.parameters) : Outcome :=
  conclude cfg s (moveParts s0 s1 off s cfg) fun (v, dest) => s.writeMove v dest

end Sys2Proof.Machine
end

