-- ==== Sys2Proof/Machine/ShiftIncDec.lean ====
section
/-!
DEFINITION. Sys2Proof/Machine/ShiftIncDec.lean: SHL, SAL, SHR, SAR, ROL, ROR, INC and DEC (43_shift_incdec.md R180 to
R188). Each writes its register and `zero`, and no other flag.
-/

namespace Sys2Proof.Machine

/-- SHL (R181). -/
def execShl (s0 s1 : Slot) (off : Byte) (s : State) (cfg : Config.Parameters := Config.parameters) : Outcome :=
  conclude cfg s (destInputs s0 s1 off s cfg) fun (dest, a, b) => s.writeLogic dest (shiftLeft a (shiftAmount b))

/-- SAL (R182): as SHL. -/
def execSal (s0 s1 : Slot) (off : Byte) (s : State) (cfg : Config.Parameters := Config.parameters) : Outcome :=
  conclude cfg s (destInputs s0 s1 off s cfg) fun (dest, a, b) => s.writeLogic dest (shiftLeft a (shiftAmount b))

/-- SHR (R183). -/
def execShr (s0 s1 : Slot) (off : Byte) (s : State) (cfg : Config.Parameters := Config.parameters) : Outcome :=
  conclude cfg s (destInputs s0 s1 off s cfg) fun (dest, a, b) => s.writeLogic dest (shiftRightLogical a (shiftAmount b))

/-- SAR (R184). -/
def execSar (s0 s1 : Slot) (off : Byte) (s : State) (cfg : Config.Parameters := Config.parameters) : Outcome :=
  conclude cfg s (destInputs s0 s1 off s cfg) fun (dest, a, b) => s.writeLogic dest (shiftRightArith a (shiftAmount b))

/-- ROL (R185). -/
def execRol (s0 s1 : Slot) (off : Byte) (s : State) (cfg : Config.Parameters := Config.parameters) : Outcome :=
  conclude cfg s (destInputs s0 s1 off s cfg) fun (dest, a, b) => s.writeLogic dest (rotateLeft a (shiftAmount b))

/-- ROR (R186). -/
def execRor (s0 s1 : Slot) (off : Byte) (s : State) (cfg : Config.Parameters := Config.parameters) : Outcome :=
  conclude cfg s (destInputs s0 s1 off s cfg) fun (dest, a, b) => s.writeLogic dest (rotateRight a (shiftAmount b))

/-- INC (R187): `overflow` is not written. -/
def execInc (s0 : Slot) (off : Byte) (s : State) (cfg : Config.Parameters := Config.parameters) : Outcome :=
  conclude cfg s (destInput s0 off s cfg) fun (dest, a) => s.writeLogic dest (trunc8 (s8 a + 1))

/-- DEC (R188): `overflow` is not written. -/
def execDec (s0 : Slot) (off : Byte) (s : State) (cfg : Config.Parameters := Config.parameters) : Outcome :=
  conclude cfg s (destInput s0 off s cfg) fun (dest, a) => s.writeLogic dest (trunc8 (s8 a - 1))

end Sys2Proof.Machine
end

