-- ==== Sys2Proof/Machine/StackCall.lean ====
section
/-!
DEFINITION. Sys2Proof/Machine/StackCall.lean: PUSH, POP, PUSHA, POPA, CALL and RET (44_stack_call.md R200 to R206). None
of them writes an ALU flag.
-/

namespace Sys2Proof.Machine

/-- The checks and the write of PUSH (R201): the operand's own faults first, then the full stack. -/
def pushOperand (s0 : Slot) (off : Byte) (s : State) (cfg : Config.Parameters := Config.parameters) :
    Except Trap State :=
  match resolve s0 off s cfg with
  | .error t => .error t
  | .ok v => s.push v

/-- PUSH (R201). -/
def execPush (s0 : Slot) (off : Byte) (s : State) (cfg : Config.Parameters := Config.parameters) : Outcome :=
  conclude cfg s (pushOperand s0 off s cfg) id

/-- The checks and the writes of POP (R202): the destination is checked before the pop (the spec's decision D33). -/
def popInto (s0 : Slot) (s : State) (cfg : Config.Parameters := Config.parameters) : Except Trap State :=
  match dst s0 cfg with
  | .error t => .error t
  | .ok dest =>
    match s.pop with
    | .error t => .error t
    | .ok (v, s') => .ok (s'.setReg dest v)

/-- POP (R202): slot 0 is not resolved, so its mode nibble and the offset have no effect. -/
def execPop (s0 : Slot) (_off : Byte) (s : State) (cfg : Config.Parameters := Config.parameters) : Outcome :=
  conclude cfg s (popInto s0 s cfg) id

/-- PUSHA (R203): the general registers in ascending index order (R22), by default A, B, C, D; an
overflow leaves the pushes before it. -/
def execPusha (s : State) (cfg : Config.Parameters := Config.parameters) : Outcome :=
  .next (s.pushAll ((Config.generalRegisters cfg).map s.reg) cfg)

/-- POPA (R204): the general registers in descending index order (R22), by default D, C, B, A; an
underflow leaves the pops before it. -/
def execPopa (s : State) (cfg : Config.Parameters := Config.parameters) : Outcome :=
  .next (s.popAll (Config.generalRegisters cfg).reverse cfg)

/-- The checks of CALL (R205): the target, then two free cells. -/
def callTarget (s0 : Slot) (off : Byte) (s : State) : Except Trap SlotAddr :=
  match target s0 off s with
  | .error t => .error t
  | .ok a => if u8 s.sp ≥ 63 then .error (.code .stackOverflow) else .ok a

/-- The two bytes CALL pushes (R205, R63): the return address `ip`, the low byte at the lower index; `sp` moves by 2. -/
def State.pushReturn (s : State) : State :=
  ((s.memWrite (u8 s.sp) (lowByte s.ip)).memWrite (u8 s.sp + 1) (highByte s.ip)).setSp (s.sp + 2)

/-- CALL (R205). -/
def execCall (s0 : Slot) (off : Byte) (s : State) (cfg : Config.Parameters := Config.parameters) : Outcome :=
  conclude cfg s (callTarget s0 off s) fun a => s.pushReturn.setIp a

/-- The check of RET and the address it pops (R206): `lo` below `hi` (C2; the combination is the spec's decision D13). -/
def returnAddress (s : State) : Except Trap SlotAddr :=
  if u8 s.sp ≤ 1 then .error (.code .stackUnderflow)
  else .ok (concatBytes (s.memRead (u8 s.sp - 1)) (s.memRead (u8 s.sp - 2)))

/-- RET (R206). -/
def execRet (s : State) (cfg : Config.Parameters := Config.parameters) : Outcome :=
  conclude cfg s (returnAddress s) fun a => (s.setSp (s.sp - 2)).setIp a

end Sys2Proof.Machine
end

