-- ==== Sys2Proof/Machine/Dispatch.lean ====
section
/-!
DEFINITION. Sys2Proof/Machine/Dispatch.lean: the meaning of each instruction (30_encoding.md R95), one arm per constructor, at the
default parameters (`execWith` of Machine/Configured.lean takes any).
-/

namespace Sys2Proof.Machine

def exec (i : Instr) (s : State) : Host.Outcome State Fault Refusal :=
  match i with
  | .add s0 s1 off => Sys2Proof.Machine.execAdd s0 s1 off s
  | .sub s0 s1 off => Sys2Proof.Machine.execSub s0 s1 off s
  | .mul s0 off => Sys2Proof.Machine.execMul s0 off s
  | .div s0 off => Sys2Proof.Machine.execDiv s0 off s
  | .and s0 s1 off => Sys2Proof.Machine.execAnd s0 s1 off s
  | .or s0 s1 off => Sys2Proof.Machine.execOr s0 s1 off s
  | .xor s0 s1 off => Sys2Proof.Machine.execXor s0 s1 off s
  | .not s0 off => Sys2Proof.Machine.execNot s0 off s
  | .cmp s0 s1 off => Sys2Proof.Machine.execCmp s0 s1 off s
  | .mov s0 s1 off => Sys2Proof.Machine.execMov s0 s1 off s
  | .shl s0 s1 off => Sys2Proof.Machine.execShl s0 s1 off s
  | .sal s0 s1 off => Sys2Proof.Machine.execSal s0 s1 off s
  | .shr s0 s1 off => Sys2Proof.Machine.execShr s0 s1 off s
  | .sar s0 s1 off => Sys2Proof.Machine.execSar s0 s1 off s
  | .rol s0 s1 off => Sys2Proof.Machine.execRol s0 s1 off s
  | .ror s0 s1 off => Sys2Proof.Machine.execRor s0 s1 off s
  | .inc s0 off => Sys2Proof.Machine.execInc s0 off s
  | .dec s0 off => Sys2Proof.Machine.execDec s0 off s
  | .push s0 off => Sys2Proof.Machine.execPush s0 off s
  | .pop s0 off => Sys2Proof.Machine.execPop s0 off s
  | .pusha => Sys2Proof.Machine.execPusha s
  | .popa => Sys2Proof.Machine.execPopa s
  | .call s0 off => Sys2Proof.Machine.execCall s0 off s
  | .ret => Sys2Proof.Machine.execRet s
  | .jmp s0 off => Sys2Proof.Machine.execJmp s0 off s
  | .loop s0 off => Sys2Proof.Machine.execLoop s0 off s
  | .jz s0 off => Sys2Proof.Machine.execJz s0 off s
  | .je s0 off => Sys2Proof.Machine.execJe s0 off s
  | .jnz s0 off => Sys2Proof.Machine.execJnz s0 off s
  | .jne s0 off => Sys2Proof.Machine.execJne s0 off s
  | .jc s0 off => Sys2Proof.Machine.execJc s0 off s
  | .jnc s0 off => Sys2Proof.Machine.execJnc s0 off s
  | .djnz s0 s1 off => Sys2Proof.Machine.execDjnz s0 s1 off s
  | .clz => Sys2Proof.Machine.execClz s
  | .sez => Sys2Proof.Machine.execSez s
  | .clc => Sys2Proof.Machine.execClc s
  | .sec => Sys2Proof.Machine.execSec s
  | .wfe => Sys2Proof.Machine.execWfe s
  | .hlt => Sys2Proof.Machine.execHlt s
  | .nop => Sys2Proof.Machine.execNop s

end Sys2Proof.Machine
end

