-- ==== Sys2Proof/WellFormed.lean ====
section
/-!
DEFINITION. Sys2Proof/WellFormed.lean: when an instruction is well formed, by itself and within a program
(70_reset_and_hazards.md R296 (2)). Well-formedness is a precondition on the PROGRAM, not on the decoder or the machine:
an instruction that fails a check still decodes (30_encoding.md R98) and still runs, and raises the fault the spec gives it.
-/

namespace Sys2Proof

/-- A register index is valid when it is below NUM_REGS (10_state.md R24). -/
def registerOk (raw : Byte) (cfg : Config.Parameters := Config.parameters) : Bool := decide (raw.toNat < cfg.numRegs)

/-- A slot read as a value: its register index, where it has one, is valid (R87), and it does not combine the label and
the indirect flag (R91). -/
def Slot.valueOk (k : Slot) (cfg : Config.Parameters := Config.parameters) : Bool :=
  if k.label then !k.indirect else k.literal || registerOk k.raw cfg

/-- Slot 0 as MOV's destination (42_move.md R170): an indirect one as a value slot, otherwise no label and a valid
register index. -/
def Slot.moveDestOk (k : Slot) (cfg : Config.Parameters := Config.parameters) : Bool :=
  if k.indirect then k.valueOk cfg else !k.label && registerOk k.raw cfg

/-- The checks that need no program (R296 (2): "Every register index must be below `NUM_REGS`"; R91; R170). -/
def Instr.wellFormed (i : Instr) (cfg : Config.Parameters := Config.parameters) : Bool :=
  match i with
  | .add s0 s1 _ => registerOk s0.raw cfg && s0.valueOk cfg && s1.valueOk cfg
  | .sub s0 s1 _ => registerOk s0.raw cfg && s0.valueOk cfg && s1.valueOk cfg
  | .mul s0 _ => s0.valueOk cfg
  | .div s0 _ => s0.valueOk cfg
  | .and s0 s1 _ => registerOk s0.raw cfg && s0.valueOk cfg && s1.valueOk cfg
  | .or s0 s1 _ => registerOk s0.raw cfg && s0.valueOk cfg && s1.valueOk cfg
  | .xor s0 s1 _ => registerOk s0.raw cfg && s0.valueOk cfg && s1.valueOk cfg
  | .not s0 _ => registerOk s0.raw cfg && s0.valueOk cfg
  | .cmp s0 s1 _ => s0.valueOk cfg && s1.valueOk cfg
  | .mov s0 s1 _ => s0.moveDestOk cfg && s1.valueOk cfg
  | .shl s0 s1 _ => registerOk s0.raw cfg && s0.valueOk cfg && s1.valueOk cfg
  | .sal s0 s1 _ => registerOk s0.raw cfg && s0.valueOk cfg && s1.valueOk cfg
  | .shr s0 s1 _ => registerOk s0.raw cfg && s0.valueOk cfg && s1.valueOk cfg
  | .sar s0 s1 _ => registerOk s0.raw cfg && s0.valueOk cfg && s1.valueOk cfg
  | .rol s0 s1 _ => registerOk s0.raw cfg && s0.valueOk cfg && s1.valueOk cfg
  | .ror s0 s1 _ => registerOk s0.raw cfg && s0.valueOk cfg && s1.valueOk cfg
  | .inc s0 _ => registerOk s0.raw cfg && s0.valueOk cfg
  | .dec s0 _ => registerOk s0.raw cfg && s0.valueOk cfg
  | .push s0 _ => s0.valueOk cfg
  | .pop s0 _ => registerOk s0.raw cfg
  | .pusha => true
  | .popa => true
  | .call _ _ => true
  | .ret => true
  | .jmp _ _ => true
  | .loop _ _ => true
  | .jz _ _ => true
  | .je _ _ => true
  | .jnz _ _ => true
  | .jne _ _ => true
  | .jc _ _ => true
  | .jnc _ _ => true
  | .djnz s0 _ _ => registerOk s0.raw cfg && s0.valueOk cfg
  | .clz => true
  | .sez => true
  | .clc => true
  | .sec => true
  | .wfe => true
  | .hlt => true
  | .nop => true

/-- A slot used as a control-transfer target names a label of the table (R296 (2): "Every label index a control transfer
or label operand uses must be below `NUM_LABELS`"). -/
def Slot.targetIn (k : Slot) (labels : List Label) : Bool := decide (k.raw.toNat < labels.length)

/-- A slot read as a value, where it is a label operand, names a label and points at a slot inside the program
(R296 (2): "Every label operand must point at a slot inside the program"; the address is that of R89). -/
def Slot.labelIn (k : Slot) (off : Byte) (progLen : Nat) (labels : List Label) : Bool :=
  if k.label then
    match labels[k.raw.toNat]? with
    | none => false
    | some l =>
      let slot : Int := (l.address.toNat : Int) + (if k.hasOffset then off.toInt else 0)
      decide (0 ≤ slot) && decide (slot < (progLen : Int))
  else true

/-- The checks that need the program's length and its label table (R296 (2)). -/
def Instr.labelsIn (progLen : Nat) (labels : List Label) : Instr → Bool
  | .add s0 s1 off => s0.labelIn off progLen labels && s1.labelIn off progLen labels
  | .sub s0 s1 off => s0.labelIn off progLen labels && s1.labelIn off progLen labels
  | .mul s0 off => s0.labelIn off progLen labels
  | .div s0 off => s0.labelIn off progLen labels
  | .and s0 s1 off => s0.labelIn off progLen labels && s1.labelIn off progLen labels
  | .or s0 s1 off => s0.labelIn off progLen labels && s1.labelIn off progLen labels
  | .xor s0 s1 off => s0.labelIn off progLen labels && s1.labelIn off progLen labels
  | .not s0 off => s0.labelIn off progLen labels
  | .cmp s0 s1 off => s0.labelIn off progLen labels && s1.labelIn off progLen labels
  | .mov _ s1 off => s1.labelIn off progLen labels
  | .shl s0 s1 off => s0.labelIn off progLen labels && s1.labelIn off progLen labels
  | .sal s0 s1 off => s0.labelIn off progLen labels && s1.labelIn off progLen labels
  | .shr s0 s1 off => s0.labelIn off progLen labels && s1.labelIn off progLen labels
  | .sar s0 s1 off => s0.labelIn off progLen labels && s1.labelIn off progLen labels
  | .rol s0 s1 off => s0.labelIn off progLen labels && s1.labelIn off progLen labels
  | .ror s0 s1 off => s0.labelIn off progLen labels && s1.labelIn off progLen labels
  | .inc s0 off => s0.labelIn off progLen labels
  | .dec s0 off => s0.labelIn off progLen labels
  | .push s0 off => s0.labelIn off progLen labels
  | .pop _ _ => true
  | .pusha => true
  | .popa => true
  | .call s0 _ => s0.targetIn labels
  | .ret => true
  | .jmp s0 _ => s0.targetIn labels
  | .loop s0 _ => s0.targetIn labels
  | .jz s0 _ => s0.targetIn labels
  | .je s0 _ => s0.targetIn labels
  | .jnz s0 _ => s0.targetIn labels
  | .jne s0 _ => s0.targetIn labels
  | .jc s0 _ => s0.targetIn labels
  | .jnc s0 _ => s0.targetIn labels
  | .djnz s0 s1 off => s0.labelIn off progLen labels && s1.targetIn labels
  | .clz => true
  | .sez => true
  | .clc => true
  | .sec => true
  | .wfe => true
  | .hlt => true
  | .nop => true

end Sys2Proof
end

