-- ==== Sys2Proof/Decode.lean ====
section
/-!
DEFINITION. Sys2Proof/Decode.lean: the decoder and the encoder of the 5-byte record (30_encoding.md R80 to R85, R95 to
R99). The decoder is total on records (R98): a record decodes to one instruction of R95 or is rejected by name, as an
undefined opcode (R96). The machine gives an undefined opcode the fault R96 states (Machine/Fetch.lean).
-/

namespace Sys2Proof

/-- Why bytes are no instruction. Safe: both are what the spec says of such bytes. -/
inductive DecodeError where
  /-- raised by `decode`: no mnemonic has the opcode byte, by default those in 0x28 to 0xFF (R96) -/
  | undefinedOpcode (opcode : Byte)
  /-- raised by `decodeBytes`: fewer than the five bytes of a record (R80, R99) -/
  | truncatedRecord
deriving DecidableEq, Repr

/-- Every mnemonic once, in the table's order. -/
def allOpcodes : List Opcode :=
  [.add, .sub, .mul, .div, .and, .or, .xor, .not, .cmp, .mov,
    .shl, .sal, .shr, .sar, .rol, .ror, .inc, .dec] ++
  [.push, .pop, .pusha, .popa, .call, .ret,
    .jmp, .loop, .jz, .je, .jnz, .jne, .jc, .jnc, .djnz,
    .clz, .sez, .clc, .sec, .wfe, .hlt, .nop]

/-- The mnemonic an opcode byte selects (R81), if there is one. -/
def opcodeOf (byte : Byte) (cfg : Config.Parameters := Config.parameters) : Option Opcode :=
  allOpcodes.find? (fun op => cfg.opcodeMap op == byte)

/-- The format of each mnemonic (R85, R95). -/
def Opcode.format : Opcode → Format
  | .add | .sub | .and | .or | .xor | .shl | .sal | .shr | .sar | .rol | .ror => .ds
  | .mul | .div | .push => .s
  | .not | .inc | .dec | .pop => .d
  | .cmp => .ss
  | .mov => .m
  | .call | .jmp | .loop | .jz | .je | .jnz | .jne | .jc | .jnc => .t
  | .djnz => .dt
  | .pusha | .popa | .ret | .clz | .sez | .clc | .sec | .wfe | .hlt | .nop => .n

/-- Slot 0 of a record: byte 1 and mode bits 3:0 (R9, R82). -/
def Record.slot0 (r : Record) : Slot where
  raw := r.operand0
  literal := r.mode.getLsbD 0
  label := r.mode.getLsbD 1
  hasOffset := r.mode.getLsbD 2
  indirect := r.mode.getLsbD 3

/-- Slot 1 of a record: byte 2 and mode bits 7:4 (R9, R82). -/
def Record.slot1 (r : Record) : Slot where
  raw := r.operand1
  literal := r.mode.getLsbD 4
  label := r.mode.getLsbD 5
  hasOffset := r.mode.getLsbD 6
  indirect := r.mode.getLsbD 7

/-- The instruction a record stands for, its opcode being given. A slot the format leaves unused, and the offset byte of a
format that uses no slot, are ignored (R85, D28). -/
def instrOf (op : Opcode) (r : Record) : Instr :=
  match op with
  | .add => .add r.slot0 r.slot1 r.offset
  | .sub => .sub r.slot0 r.slot1 r.offset
  | .mul => .mul r.slot0 r.offset
  | .div => .div r.slot0 r.offset
  | .and => .and r.slot0 r.slot1 r.offset
  | .or => .or r.slot0 r.slot1 r.offset
  | .xor => .xor r.slot0 r.slot1 r.offset
  | .not => .not r.slot0 r.offset
  | .cmp => .cmp r.slot0 r.slot1 r.offset
  | .mov => .mov r.slot0 r.slot1 r.offset
  | .shl => .shl r.slot0 r.slot1 r.offset
  | .sal => .sal r.slot0 r.slot1 r.offset
  | .shr => .shr r.slot0 r.slot1 r.offset
  | .sar => .sar r.slot0 r.slot1 r.offset
  | .rol => .rol r.slot0 r.slot1 r.offset
  | .ror => .ror r.slot0 r.slot1 r.offset
  | .inc => .inc r.slot0 r.offset
  | .dec => .dec r.slot0 r.offset
  | .push => .push r.slot0 r.offset
  | .pop => .pop r.slot0 r.offset
  | .pusha => .pusha
  | .popa => .popa
  | .call => .call r.slot0 r.offset
  | .ret => .ret
  | .jmp => .jmp r.slot0 r.offset
  | .loop => .loop r.slot0 r.offset
  | .jz => .jz r.slot0 r.offset
  | .je => .je r.slot0 r.offset
  | .jnz => .jnz r.slot0 r.offset
  | .jne => .jne r.slot0 r.offset
  | .jc => .jc r.slot0 r.offset
  | .jnc => .jnc r.slot0 r.offset
  | .djnz => .djnz r.slot0 r.slot1 r.offset
  | .clz => .clz
  | .sez => .sez
  | .clc => .clc
  | .sec => .sec
  | .wfe => .wfe
  | .hlt => .hlt
  | .nop => .nop

/-- The decoder (R81, R95, R96, R98). -/
def decode (r : Record) (cfg : Config.Parameters := Config.parameters) : Except DecodeError Instr :=
  match opcodeOf r.opcode cfg with
  | some op => .ok (instrOf op r)
  | none => .error (.undefinedOpcode r.opcode)

/-- The decoder on bytes: one record, byte 0 first (R80), and the bytes after it. -/
def decodeBytes (bytes : List Byte) (cfg : Config.Parameters := Config.parameters) :
    Except DecodeError (Instr × List Byte) :=
  match bytes with
  | b0 :: b1 :: b2 :: b3 :: b4 :: rest =>
    match decode ⟨b0, b1, b2, b3, b4⟩ cfg with
    | .ok i => .ok (i, rest)
    | .error e => .error e
  | _ => .error .truncatedRecord

/-- The mode nibble of a slot (R82), as a number below 16. -/
def Slot.nibble (k : Slot) : Nat :=
  k.literal.toNat + 2 * k.label.toNat + 4 * k.hasOffset.toNat + 8 * k.indirect.toNat

/-- A slot a format leaves unused is encoded with raw byte 0x00 and nibble 0x0 (R100). -/
def Slot.unused : Slot := ⟨0x00, false, false, false, false⟩

/-- A record from its opcode, slots and offset (R80, R82). -/
def recordOf (op : Opcode) (s0 s1 : Slot) (off : Byte) (cfg : Config.Parameters := Config.parameters) : Record where
  opcode := cfg.opcodeMap op
  operand0 := s0.raw
  operand1 := s1.raw
  mode := BitVec.ofNat 8 (s0.nibble + 16 * s1.nibble)
  offset := off

/-- The encoder, from the same table (R80, R95): unused slots and unused offsets are zero (R100). -/
def encode (i : Instr) (cfg : Config.Parameters := Config.parameters) : Record :=
  match i with
  | .add s0 s1 off => recordOf .add s0 s1 off cfg
  | .sub s0 s1 off => recordOf .sub s0 s1 off cfg
  | .mul s0 off => recordOf .mul s0 Slot.unused off cfg
  | .div s0 off => recordOf .div s0 Slot.unused off cfg
  | .and s0 s1 off => recordOf .and s0 s1 off cfg
  | .or s0 s1 off => recordOf .or s0 s1 off cfg
  | .xor s0 s1 off => recordOf .xor s0 s1 off cfg
  | .not s0 off => recordOf .not s0 Slot.unused off cfg
  | .cmp s0 s1 off => recordOf .cmp s0 s1 off cfg
  | .mov s0 s1 off => recordOf .mov s0 s1 off cfg
  | .shl s0 s1 off => recordOf .shl s0 s1 off cfg
  | .sal s0 s1 off => recordOf .sal s0 s1 off cfg
  | .shr s0 s1 off => recordOf .shr s0 s1 off cfg
  | .sar s0 s1 off => recordOf .sar s0 s1 off cfg
  | .rol s0 s1 off => recordOf .rol s0 s1 off cfg
  | .ror s0 s1 off => recordOf .ror s0 s1 off cfg
  | .inc s0 off => recordOf .inc s0 Slot.unused off cfg
  | .dec s0 off => recordOf .dec s0 Slot.unused off cfg
  | .push s0 off => recordOf .push s0 Slot.unused off cfg
  | .pop s0 off => recordOf .pop s0 Slot.unused off cfg
  | .pusha => recordOf .pusha Slot.unused Slot.unused 0x00 cfg
  | .popa => recordOf .popa Slot.unused Slot.unused 0x00 cfg
  | .call s0 off => recordOf .call s0 Slot.unused off cfg
  | .ret => recordOf .ret Slot.unused Slot.unused 0x00 cfg
  | .jmp s0 off => recordOf .jmp s0 Slot.unused off cfg
  | .loop s0 off => recordOf .loop s0 Slot.unused off cfg
  | .jz s0 off => recordOf .jz s0 Slot.unused off cfg
  | .je s0 off => recordOf .je s0 Slot.unused off cfg
  | .jnz s0 off => recordOf .jnz s0 Slot.unused off cfg
  | .jne s0 off => recordOf .jne s0 Slot.unused off cfg
  | .jc s0 off => recordOf .jc s0 Slot.unused off cfg
  | .jnc s0 off => recordOf .jnc s0 Slot.unused off cfg
  | .djnz s0 s1 off => recordOf .djnz s0 s1 off cfg
  | .clz => recordOf .clz Slot.unused Slot.unused 0x00 cfg
  | .sez => recordOf .sez Slot.unused Slot.unused 0x00 cfg
  | .clc => recordOf .clc Slot.unused Slot.unused 0x00 cfg
  | .sec => recordOf .sec Slot.unused Slot.unused 0x00 cfg
  | .wfe => recordOf .wfe Slot.unused Slot.unused 0x00 cfg
  | .hlt => recordOf .hlt Slot.unused Slot.unused 0x00 cfg
  | .nop => recordOf .nop Slot.unused Slot.unused 0x00 cfg

/-- The bytes of a record, byte 0 first (R80). -/
def Record.bytes (r : Record) : List Byte :=
  [r.opcode, r.operand0, r.operand1, r.mode, r.offset]

/-- The encoder to bytes. -/
def encodeBytes (i : Instr) (cfg : Config.Parameters := Config.parameters) : List Byte :=
  (encode i cfg).bytes

/-- A record with the fields its format leaves unused set to zero (R85, R100): the bytes that decoding reads. -/
def Record.usedFields (f : Format) (r : Record) : Record :=
  match f with
  | .n => { r with operand0 := 0x00, operand1 := 0x00, mode := 0x00, offset := 0x00 }
  | .s | .d | .t => { r with operand1 := 0x00, mode := r.mode &&& 0x0F }
  | .ds | .m | .ss | .dt => r

/-- The record whose 40 bits are `w`, numbered as spec/opcode_table.json numbers them: "the 5-byte record read as a 40-bit
number with b0 in bits 39:32 and b4 in bits 7:0" (log 4). -/
def recordOfTableWord (w : Nat) : Record where
  opcode := BitVec.ofNat 8 (w / 2 ^ 32)
  operand0 := BitVec.ofNat 8 (w / 2 ^ 24)
  operand1 := BitVec.ofNat 8 (w / 2 ^ 16)
  mode := BitVec.ofNat 8 (w / 2 ^ 8)
  offset := BitVec.ofNat 8 w

/-- The instruction the decoder reads from a word of the opcode table: bits at `nbits` and above are 0. -/
def decodeTableWord (nbits w : Nat) : Option Instr :=
  match decode (recordOfTableWord (w % 2 ^ nbits)) with
  | .ok i => some i
  | .error _ => none

end Sys2Proof
end

