-- ==== Sys2Proof/Machine/Fetch.lean ====
section
/-!
DEFINITION. Sys2Proof/Machine/Fetch.lean: the part of a tick before the instruction runs (40_engine.md R120 to R126), and
placing a record where the next tick fetches.
-/

namespace Sys2Proof.Machine

/-- The halt check (R121): `fault = 1 or (wait = 1 and step = 0)`. -/
def State.halted (s : State) : Bool := s.fault || (s.wait && !s.stepReq)

/-- The clamp of a negative `ip` (R123; the signed reading is the spec's decision D12). -/
def clampIp (ip : SlotAddr) : SlotAddr := if s16 ip < 0 then 0x0000 else ip

/-- A tick that passes the halt check clears the step request (R122) and clamps `ip` (R123). -/
def State.prepared (s : State) : State := { s with stepReq := false, ip := clampIp s.ip }

/-- Fetch and increment (R125): the record is copied into `ir`, and `ip` names the next slot. -/
def State.fetched (s : State) (r : Record) : State :=
  { s with ir := some r, ip := trunc16 ((u16 s.ip : Int) + 1) }

/-- What a tick comes to before an instruction runs. -/
inductive TickStart where
  /-- no instruction runs: the core is halted or waiting (R121), the fetch faults (R124), or the opcode is undefined (R96) -/
  | done (s : State)
  /-- the decoded instruction runs on this state (R126) -/
  | run (i : Instr) (s : State)
deriving DecidableEq, Repr

/-- The tick up to the dispatch (R120). -/
def beginTick (s : State) (cfg : Config.Parameters := Config.parameters) : TickStart :=
  if s.halted then .done s
  else
    match s.prepared.prog[u16 s.prepared.ip]? with
    | none => .done (s.prepared.raise (.code .undefinedIp) cfg)
    | some r =>
      match decode r cfg with
      | .ok i => .run i (s.prepared.fetched r)
      | .error _ => .done ((s.prepared.fetched r).raise .internal cfg)

/-- `tick()`'s return value (R127): false only from the halt check (the spec's decision D22). It is an output to the host
and no state. -/
def State.tickReturns (s : State) : Bool := !s.halted

/-- A NOP record with every unused field 0 (R246, R100): what `placeRecord` fills a gap with. -/
def nopRecord : Record := encode .nop

/-- The program with a record at a slot; slots before it that did not exist hold NOPs. -/
def placeRecord : List Record → Nat → Record → List Record
  | [], 0, r => [r]
  | _ :: rest, 0, r => r :: rest
  | [], n + 1, r => nopRecord :: placeRecord [] n r
  | q :: rest, n + 1, r => q :: placeRecord rest n r

/-- The state whose next tick fetches and runs a record: the record at the slot the next fetch reads, and no halt (log 3,
log 4). On a running core only the program changes. -/
def State.withRecord (s : State) (r : Record) : State :=
  { s with
    prog := placeRecord s.prog (u16 (clampIp s.ip)) r
    fault := false
    stepReq := s.stepReq || s.wait }

end Sys2Proof.Machine
end

