-- ==== Sys2Proof/Machine/Step.lean ====
section
/-!
DEFINITION. Sys2Proof/Machine/Step.lean: one tick of the core (40_engine.md R120), at the default parameters (`stepWith`
of Machine/Configured.lean takes any).
-/

namespace Sys2Proof.Machine

/-- One tick (R120): at most one instruction. Its return value is `State.tickReturns` of the state before it (R127). -/
def step (s : State) : Host.Outcome State Fault Refusal :=
  match beginTick s with
  | .done s' => .next s'
  | .run i s' => exec i s'

/-- The state with the instruction of a word of the opcode table where the next tick fetches it; bits at `nbits` and above
are 0 (log 4). -/
def State.withFetchWord (s : State) (nbits w : Nat) : State :=
  s.withRecord (recordOfTableWord (w % 2 ^ nbits))

end Sys2Proof.Machine
end

