-- ==== Sys2Proof/Machine/HostInputs.lean ====
section
/-!
DEFINITION. Sys2Proof/Machine/HostInputs.lean: the host's inputs between two ticks (20_memory.md R72): load (with its
flush), reset, wake, single-step and the PORTS write. Save and restore are in Machine/Snapshot.lean. PORTS_RESET is an
argument (00_scope.md R5, D4).
-/

namespace Sys2Proof.Machine

/-- What the host gives to load: no program (70_reset_and_hazards.md R291), a program with its label table (R290), or a
program input marked erroneous, with its message (60_exceptions.md R264). -/
inductive LoadInput where
  | absent
  | program (records : List Record) (labels : List Label)
  | erroneous (message : String)
deriving DecidableEq, Repr

/-- RESET (R293): every element of R42 but `stack`, `Prog` and `Label` at its power-on value (the spec's decision D18). -/
def State.hardReset (portsReset : Byte) (s : State) (cfg : Config.Parameters := Config.parameters) : State where
  regs := Config.resetRegisters portsReset cfg
  ip := 0x0000
  sp := 0x00
  zero := false
  overflow := false
  carry := false
  fault := false
  wait := false
  faultCode := cfg.faultCodeMap .nominal
  stepReq := false
  ir := none
  diag := none
  stack := s.stack
  prog := s.prog
  labels := s.labels

/-- FLUSH (R292): 0x00 to all 64 cells. It is part of load only. -/
def State.flush (s : State) : State := { s with stack := [] }

/-- Install a program (R290). -/
def State.install (records : List Record) (labels : List Label) (s : State) : State :=
  { s with prog := records, labels := labels }

/-- LOAD (R290, R291, R264): the full reset, the flush, the new program; for an erroneous input an empty program, and then
the fault CODE_ERROR with the message. -/
def State.load (portsReset : Byte) (input : LoadInput) (s : State)
    (cfg : Config.Parameters := Config.parameters) : State :=
  match input with
  | .absent => ((s.hardReset portsReset cfg).flush).install [] []
  | .program records labels => ((s.hardReset portsReset cfg).flush).install records labels
  | .erroneous message =>
    { ((s.hardReset portsReset cfg).flush).install [] [] with
      fault := true, faultCode := cfg.faultCodeMap .codeError, diag := some message }

/-- WAKE (40_engine.md R128): `wait <- 0` and nothing else. -/
def State.wake (s : State) : State := { s with wait := false }

/-- SINGLE-STEP REQUEST (40_engine.md R129): `step <- 1` and nothing else. -/
def State.requestStep (s : State) : State := { s with stepReq := true }

/-- A host write of PORTS: all 8 bits as one byte (60_exceptions.md R273, D36; 10_state.md R23). -/
def State.writePorts (v : Byte) (s : State) (cfg : Config.Parameters := Config.parameters) : State :=
  s.setReg (Reg.ports.index cfg) v

/-- A host read of PORTS (10_state.md R23): no side effect. -/
def State.readPorts (s : State) (cfg : Config.Parameters := Config.parameters) : Byte := s.named .ports cfg

end Sys2Proof.Machine
end

