-- ==== Sys2Proof/Machine/Snapshot.lean ====
section
/-!
DEFINITION. Sys2Proof/Machine/Snapshot.lean: the snapshot the host saves and restores (10_state.md R43 to R46,
70_reset_and_hazards.md R294), in its logical layout; the serialization container is out of scope (00_scope.md R4).
-/

namespace Sys2Proof.Machine

/-- The logical record of a snapshot (R43). -/
structure Snapshot where
  /-- the raw 64-byte array -/
  stack : Vector Byte 64
  /-- a raw byte array, one byte a register -/
  registers : List Byte
  faultCode : Byte
  /-- the packed flags word (R44) -/
  flags : BitVec 64
  /-- the optional `diag` string -/
  error : Option String
  program : List Record
  labels : List Label
deriving DecidableEq, Repr

/-- The packed flags word (R44): `ip` in bits 63:48, `sp` in bits 47:40, then unused bits written as 0 (D31), then `wait`,
`carry`, `overflow`, `zero` and `fault` in bits 4 to 0. -/
def State.packFlags (s : State) : BitVec 64 :=
  s.ip ++ s.sp ++ (0 : BitVec 35) ++ BitVec.ofBool s.wait ++ BitVec.ofBool s.carry ++ BitVec.ofBool s.overflow ++
    BitVec.ofBool s.zero ++ BitVec.ofBool s.fault

/-- SAVE (R43): the registers in index order (R21). -/
def State.save (s : State) : Snapshot where
  stack := Vector.ofFn fun i : Fin 64 => s.memRead i.val
  registers := s.regs
  faultCode := s.faultCode
  flags := s.packFlags
  error := s.diag
  program := s.prog
  labels := s.labels

/-- `ip` in a flags word: bits 63:48 (R44). -/
def flagsIp (w : BitVec 64) : SlotAddr := w.extractLsb' 48 16

/-- `sp` in a flags word: bits 47:40 (R44). -/
def flagsSp (w : BitVec 64) : Byte := w.extractLsb' 40 8

/-- The canonical memory whose cells from an index on hold the given bytes. -/
def memoryOfBytes : Nat → List Byte → Memory
  | _, [] => []
  | i, v :: vs => if v = Config.unwrittenCell then memoryOfBytes (i + 1) vs else (i, v) :: memoryOfBytes (i + 1) vs

/-- The register file a snapshot's register array restores to: the registers it lacks are filled with 0x00 (R46). -/
def restoredRegisters (cfg : Config.Parameters) (bytes : List Byte) : Regs :=
  bytes ++ List.replicate (cfg.numRegs - bytes.length) 0x00

/-- An empty `error` string restores as absent (R45). -/
def restoredDiag : Option String → Option String
  | some text => if text = "" then none else some text
  | none => none

/-- The host's precondition on a snapshot (R46, D29): at most NUM_REGS registers, and `sp` at most 64. -/
def Snapshot.acceptable (snap : Snapshot) (cfg : Config.Parameters := Config.parameters) : Bool :=
  decide (snap.registers.length ≤ cfg.numRegs) && decide (u8 (flagsSp snap.flags) ≤ Config.stackSize)

/-- The state a snapshot is restored to (R294, R45): every field is written from the snapshot; `step` = 0 and `ir` empty. -/
def Snapshot.state (snap : Snapshot) (cfg : Config.Parameters := Config.parameters) : State where
  regs := restoredRegisters cfg snap.registers
  ip := flagsIp snap.flags
  sp := flagsSp snap.flags
  zero := snap.flags.getLsbD 1
  overflow := snap.flags.getLsbD 2
  carry := snap.flags.getLsbD 3
  fault := snap.flags.getLsbD 0
  wait := snap.flags.getLsbD 4
  faultCode := snap.faultCode
  stepReq := false
  ir := none
  diag := restoredDiag snap.error
  stack := memoryOfBytes 0 snap.stack.toList
  prog := snap.program
  labels := snap.labels

/-- RESTORE (R294): a snapshot that breaks the precondition is refused and changes nothing (R46, D29). -/
def State.restore (snap : Snapshot) (s : State) (cfg : Config.Parameters := Config.parameters) : State :=
  if snap.acceptable cfg then snap.state cfg else s

/-- The host's inputs between two ticks (R72, R130). Save and the PORTS read change no state (R67) and are not among them. -/
inductive HostInput where
  | load (input : LoadInput)
  | reset
  | wake
  | requestStep
  | writePorts (v : Byte)
  | restore (snap : Snapshot)
deriving DecidableEq, Repr

/-- The state after one host input (R72). -/
def State.input (portsReset : Byte) (s : State) (h : HostInput) (cfg : Config.Parameters := Config.parameters) :
    State :=
  match h with
  | .load input => s.load portsReset input cfg
  | .reset => s.hardReset portsReset cfg
  | .wake => s.wake
  | .requestStep => s.requestStep
  | .writePorts v => s.writePorts v cfg
  | .restore snap => s.restore snap cfg

end Sys2Proof.Machine
end

