-- ==== Sys2Proof/Machine/Configured.lean ====
section
/-!
DEFINITION. Sys2Proof/Machine/Configured.lean: the machine for any parameters (00_scope.md R5, log 23). `exec` and `step` are
this machine at `Config.parameters`, the defaults of R5. The decoder, the meanings, the tick up to the dispatch, the host's
inputs and the snapshot take the parameters themselves.
-/

namespace Sys2Proof.Machine

/-- The meaning of each instruction (30_encoding.md R95), for any parameters. -/
def execWith (cfg : Config.Parameters) (i : Instr) (s : State) : Outcome :=
  match i with
  | .add s0 s1 off => execAdd s0 s1 off s cfg
  | .sub s0 s1 off => execSub s0 s1 off s cfg
  | .mul s0 off => execMul s0 off s cfg
  | .div s0 off => execDiv s0 off s cfg
  | .and s0 s1 off => execAnd s0 s1 off s cfg
  | .or s0 s1 off => execOr s0 s1 off s cfg
  | .xor s0 s1 off => execXor s0 s1 off s cfg
  | .not s0 off => execNot s0 off s cfg
  | .cmp s0 s1 off => execCmp s0 s1 off s cfg
  | .mov s0 s1 off => execMov s0 s1 off s cfg
  | .shl s0 s1 off => execShl s0 s1 off s cfg
  | .sal s0 s1 off => execSal s0 s1 off s cfg
  | .shr s0 s1 off => execShr s0 s1 off s cfg
  | .sar s0 s1 off => execSar s0 s1 off s cfg
  | .rol s0 s1 off => execRol s0 s1 off s cfg
  | .ror s0 s1 off => execRor s0 s1 off s cfg
  | .inc s0 off => execInc s0 off s cfg
  | .dec s0 off => execDec s0 off s cfg
  | .push s0 off => execPush s0 off s cfg
  | .pop s0 off => execPop s0 off s cfg
  | .pusha => execPusha s cfg
  | .popa => execPopa s cfg
  | .call s0 off => execCall s0 off s cfg
  | .ret => execRet s cfg
  | .jmp s0 off => execJmp s0 off s cfg
  | .loop s0 off => execLoop s0 off s cfg
  | .jz s0 off => execJz s0 off s cfg
  | .je s0 off => execJe s0 off s cfg
  | .jnz s0 off => execJnz s0 off s cfg
  | .jne s0 off => execJne s0 off s cfg
  | .jc s0 off => execJc s0 off s cfg
  | .jnc s0 off => execJnc s0 off s cfg
  | .djnz s0 s1 off => execDjnz s0 s1 off s cfg
  | .clz => execClz s
  | .sez => execSez s
  | .clc => execClc s
  | .sec => execSec s
  | .wfe => execWfe s
  | .hlt => execHlt s cfg
  | .nop => execNop s

/-- One tick (40_engine.md R120), for any parameters. -/
def stepWith (cfg : Config.Parameters) (s : State) : Outcome :=
  match beginTick s cfg with
  | .done s' => .next s'
  | .run i s' => execWith cfg i s'

end Sys2Proof.Machine
end

