-- ==== Sys2Proof/Safety.lean ====
section
/-!
DEFINITION. Sys2Proof/Safety.lean: what statements about runs are said in: the invariant of the core, the boot
precondition on a program (70_reset_and_hazards.md R296), and the quiescent states (40_engine.md R131).
-/

namespace Sys2Proof

/-- A slot that is resolved as a value, or that MOV stores through, addresses a cell of the stack/data memory: it has the
indirect flag, and no label flag (30_encoding.md R90, R91). -/
def Slot.addressesCell (k : Slot) : Bool := k.indirect && !k.label

end Sys2Proof

namespace Sys2Proof.Machine

/-- The invariant of the core: `0 ≤ sp ≤ 64` (10_state.md R27), the stack/data memory in canonical form, which holds no cell
outside indices 0 to 63 (R40), and a register file of NUM_REGS registers, "never resized" (R21). -/
def State.inv (s : State) (cfg : Config.Parameters := Config.parameters) : Bool :=
  decide (u8 s.sp ≤ Config.stackSize) && s.stack.wf && decide (s.regs.length = cfg.numRegs)

/-- The boot precondition on a program (R296 (2)): every record decodes to a well-formed instruction whose labels are in
the table and whose label operands point inside the program. -/
def programWellFormed (prog : List Record) (labels : List Label)
    (cfg : Config.Parameters := Config.parameters) : Bool :=
  prog.all fun r =>
    match decode r cfg with
    | .ok i => i.wellFormed cfg && i.labelsIn prog.length labels
    | .error _ => false

/-- The halted state (R131). -/
def State.isHalted (s : State) : Bool := s.fault

/-- The waiting state (R131): blocked on the host, not ended. -/
def State.isWaiting (s : State) : Bool := !s.fault && s.wait && !s.stepReq

/-- A run has ended normally (R131, D38): the halted state with `faultCode` = HALTED. -/
def State.endedNormally (s : State) (cfg : Config.Parameters := Config.parameters) : Bool :=
  s.fault && s.faultCode == cfg.faultCodeMap .halted

/-- One event of a run: a tick, or a host input between two ticks (R72). -/
inductive Event where
  | tick
  | input (h : HostInput)
deriving DecidableEq, Repr

/-- The state after one event, for a given PORTS_RESET. -/
inductive Event.Leads (portsReset : Byte) : State → Event → State → Prop where
  | tick {s t : State} : step s = .next t → Event.Leads portsReset s .tick t
  | input {s : State} (h : HostInput) : Event.Leads portsReset s (.input h) (s.input portsReset h)

/-- The states a core can come to from the state of a core before its first load (D32), whatever the host does between
ticks. -/
inductive Reachable (portsReset : Byte) : State → Prop where
  | start : Reachable portsReset { State.reset with regs := Config.resetRegisters portsReset }
  | event {s t : State} {e : Event} : Reachable portsReset s → Event.Leads portsReset s e t → Reachable portsReset t

/-- The register slot 0's raw byte names is the one at index `r` (30_encoding.md R93). -/
def destIs (s0 : Slot) (r : Nat) : Bool := Config.validIndex s0.raw == some r

/-- Whether an instruction may write the register at an index (10_state.md R21, R22; 30_encoding.md R93): its destination register;
register A for MUL and DIV; A to D for POPA; for MOV the register a slot 0 that is not indirect names (42_move.md R170). -/
def mayWriteReg : Instr → Nat → Bool
  | .add s0 _ _, r => destIs s0 r
  | .sub s0 _ _, r => destIs s0 r
  | .and s0 _ _, r => destIs s0 r
  | .or s0 _ _, r => destIs s0 r
  | .xor s0 _ _, r => destIs s0 r
  | .shl s0 _ _, r => destIs s0 r
  | .sal s0 _ _, r => destIs s0 r
  | .shr s0 _ _, r => destIs s0 r
  | .sar s0 _ _, r => destIs s0 r
  | .rol s0 _ _, r => destIs s0 r
  | .ror s0 _ _, r => destIs s0 r
  | .mul _ _, r => r == Reg.a.index
  | .div _ _, r => r == Reg.a.index
  | .not s0 _, r => destIs s0 r
  | .cmp _ _ _, _ => false
  | .mov s0 _ _, r => !s0.indirect && destIs s0 r
  | .inc s0 _, r => destIs s0 r
  | .dec s0 _, r => destIs s0 r
  | .push _ _, _ => false
  | .pop s0 _, r => destIs s0 r
  | .pusha, _ => false
  | .popa, r => Config.generalRegisters.contains r
  | .call _ _, _ => false
  | .ret, _ => false
  | .jmp _ _, _ => false
  | .loop _ _, _ => false
  | .jz _ _, _ => false
  | .je _ _, _ => false
  | .jnz _ _, _ => false
  | .jne _ _, _ => false
  | .jc _ _, _ => false
  | .jnc _ _, _ => false
  | .djnz s0 _ _, r => destIs s0 r
  | .clz, _ => false
  | .sez, _ => false
  | .clc, _ => false
  | .sec, _ => false
  | .wfe, _ => false
  | .hlt, _ => false
  | .nop, _ => false

/-- Whether an instruction resolves an indirect slot, or is MOV with an indirect destination (R90, 42_move.md R170): of these
alone R261 says that they raise OUT_OF_BOUNDS. POP's slot and a control-transfer target are not resolved (R93, R94). -/
def addressesCell : Instr → Bool
  | .add s0 s1 _ => s0.addressesCell || s1.addressesCell
  | .sub s0 s1 _ => s0.addressesCell || s1.addressesCell
  | .and s0 s1 _ => s0.addressesCell || s1.addressesCell
  | .or s0 s1 _ => s0.addressesCell || s1.addressesCell
  | .xor s0 s1 _ => s0.addressesCell || s1.addressesCell
  | .cmp s0 s1 _ => s0.addressesCell || s1.addressesCell
  | .mov s0 s1 _ => s0.addressesCell || s1.addressesCell
  | .shl s0 s1 _ => s0.addressesCell || s1.addressesCell
  | .sal s0 s1 _ => s0.addressesCell || s1.addressesCell
  | .shr s0 s1 _ => s0.addressesCell || s1.addressesCell
  | .sar s0 s1 _ => s0.addressesCell || s1.addressesCell
  | .rol s0 s1 _ => s0.addressesCell || s1.addressesCell
  | .ror s0 s1 _ => s0.addressesCell || s1.addressesCell
  | .djnz s0 _ _ => s0.addressesCell
  | .mul s0 _ => s0.addressesCell
  | .div s0 _ => s0.addressesCell
  | .not s0 _ => s0.addressesCell
  | .inc s0 _ => s0.addressesCell
  | .dec s0 _ => s0.addressesCell
  | .push s0 _ => s0.addressesCell
  | .pop _ _ => false
  | .call _ _ => false
  | .jmp _ _ => false
  | .loop _ _ => false
  | .jz _ _ => false
  | .je _ _ => false
  | .jnz _ _ => false
  | .jne _ _ => false
  | .jc _ _ => false
  | .jnc _ _ => false
  | .pusha => false
  | .popa => false
  | .ret => false
  | .clz => false
  | .sez => false
  | .clc => false
  | .sec => false
  | .wfe => false
  | .hlt => false
  | .nop => false

/-- The index MOV stores to, where it stores (42_move.md R170): that of its indirect slot 0, computed by the resolver. -/
def moveStoresAt (s0 : Slot) (off : Byte) (s : State) (idx : Nat) : Bool :=
  match moveDest s0 off s with
  | .ok (.cell i) => i == idx
  | .ok (.register _) => false
  | .error _ => false

/-- Whether an instruction may store to a cell of the stack/data memory (20_memory.md R61): PUSH at `sp`, PUSHA at the four
cells from `sp`, CALL at the two from `sp`, MOV at the index of an indirect slot 0. -/
def mayStore (i : Instr) (s : State) (idx : Nat) : Bool :=
  match i with
  | .push _ _ => idx == u8 s.sp
  | .pusha => decide (u8 s.sp ≤ idx) && decide (idx < u8 s.sp + 4)
  | .call _ _ => idx == u8 s.sp || idx == u8 s.sp + 1
  | .mov s0 _ off => moveStoresAt s0 off s idx
  | .add _ _ _ => false
  | .sub _ _ _ => false
  | .and _ _ _ => false
  | .or _ _ _ => false
  | .xor _ _ _ => false
  | .shl _ _ _ => false
  | .sal _ _ _ => false
  | .shr _ _ _ => false
  | .sar _ _ _ => false
  | .rol _ _ _ => false
  | .ror _ _ _ => false
  | .cmp _ _ _ => false
  | .djnz _ _ _ => false
  | .mul _ _ => false
  | .div _ _ => false
  | .not _ _ => false
  | .inc _ _ => false
  | .dec _ _ => false
  | .pop _ _ => false
  | .jmp _ _ => false
  | .loop _ _ => false
  | .jz _ _ => false
  | .je _ _ => false
  | .jnz _ _ => false
  | .jne _ _ => false
  | .jc _ _ => false
  | .jnc _ _ => false
  | .popa => false
  | .ret => false
  | .clz => false
  | .sez => false
  | .clc => false
  | .sec => false
  | .wfe => false
  | .hlt => false
  | .nop => false

end Sys2Proof.Machine
end

