-- ==== Sys2Proof/Certificates/Slice0/Obligations.lean ====
section
/-!
DEFINITION. Sys2Proof/Certificates/Slice0/Obligations.lean: the statements for the provers, from the numbered rules of
spec/. A statement gives the whole next state as a record update wherever it can: the update is then its frame, since every
field it does not name is unchanged. Where the stack/data memory changes, the frame is said through `State.memRead`.
Dn names a decision of spec/92_eei_decisions.md that a statement rests on (its basis is then 'derived').
-/

open Sys2Proof Sys2Proof.Machine

/-! ### Encoding -/

/-- Every instruction, with every operand at every value, is read back from its own record (R80, R82, R84, R95; opcode
bytes D2); and so for every configuration (R5, log 23), with its own opcode bytes. -/
def Obligations.DecodeOfEncodeIsTheInstruction : Prop :=
  (∀ i : Instr, decode (encode i) = .ok i) ∧
    ∀ (cfg : Config.Parameters) (i : Instr), decode (encode i cfg) cfg = .ok i

/-- The record of a decoded instruction is the record it was decoded from, but for the fields its format leaves unused: no
bit that a format uses is dropped or moved. That decoding ignores those fields is R85 with D28; that they encode to 0 is
the notation of R100 (30_encoding.md section 4, D30). -/
def Obligations.EncodeOfDecodeKeepsUsedFields : Prop :=
  ∀ (r : Record) (i : Instr), decode r = .ok i → encode i = r.usedFields i.opcode.format

/-- The decoder answers on every record: an instruction below opcode 0x28, a rejection by name from 0x28 on (R96, R98,
opcode bytes D2). -/
def Obligations.DecoderRejectsExactlyUndefinedOpcodes : Prop :=
  ∀ r : Record,
    (r.opcode.toNat < 0x28 → ∃ i, decode r = .ok i) ∧
      (0x28 ≤ r.opcode.toNat → decode r = .error (.undefinedOpcode r.opcode))

/-- Records written out from the spec's encoding, one for each of the 40 rows of R95, decode to the instructions they stand
for, and the first opcode byte past the table is rejected (sanity; the records of 42_move.md R170, 45_jump.md R221 and
95_test_vectors.md section 2; opcode bytes D2). -/
def Obligations.WrittenRecordsDecode : Prop :=
  (∀ p ∈
      ([(⟨0x00, 0x01, 0x00, 0xC0, 0x02⟩, .add ⟨0x01, false, false, false, false⟩ ⟨0x00, false, false, true, true⟩ 0x02),
          (⟨0x01, 0x00, 0x01, 0x00, 0x00⟩, .sub ⟨0x00, false, false, false, false⟩ ⟨0x01, false, false, false, false⟩ 0x00),
          (⟨0x02, 0x07, 0x00, 0x01, 0x00⟩, .mul ⟨0x07, true, false, false, false⟩ 0x00),
          (⟨0x03, 0x01, 0x00, 0x08, 0x00⟩, .div ⟨0x01, false, false, false, true⟩ 0x00),
          (⟨0x04, 0x00, 0x3C, 0x10, 0x00⟩, .and ⟨0x00, false, false, false, false⟩ ⟨0x3C, true, false, false, false⟩ 0x00),
          (⟨0x05, 0x00, 0x80, 0x10, 0x00⟩, .or ⟨0x00, false, false, false, false⟩ ⟨0x80, true, false, false, false⟩ 0x00),
          (⟨0x06, 0x00, 0xFF, 0x10, 0x00⟩, .xor ⟨0x00, false, false, false, false⟩ ⟨0xFF, true, false, false, false⟩ 0x00),
          (⟨0x07, 0x01, 0x00, 0x00, 0x00⟩, .not ⟨0x01, false, false, false, false⟩ 0x00),
          (⟨0x08, 0x01, 0x02, 0x11, 0x00⟩, .cmp ⟨0x01, true, false, false, false⟩ ⟨0x02, true, false, false, false⟩ 0x00),
          (⟨0x09, 0x00, 0x01, 0x08, 0x00⟩, .mov ⟨0x00, false, false, false, true⟩ ⟨0x01, false, false, false, false⟩ 0x00)] ++
        [(⟨0x0A, 0x00, 0x02, 0x10, 0x00⟩, .shl ⟨0x00, false, false, false, false⟩ ⟨0x02, true, false, false, false⟩ 0x00),
          (⟨0x0B, 0x00, 0x01, 0x10, 0x00⟩, .sal ⟨0x00, false, false, false, false⟩ ⟨0x01, true, false, false, false⟩ 0x00),
          (⟨0x0C, 0x00, 0x09, 0x10, 0x00⟩, .shr ⟨0x00, false, false, false, false⟩ ⟨0x09, true, false, false, false⟩ 0x00),
          (⟨0x0D, 0x00, 0x02, 0x10, 0x00⟩, .sar ⟨0x00, false, false, false, false⟩ ⟨0x02, true, false, false, false⟩ 0x00),
          (⟨0x0E, 0x00, 0x01, 0x10, 0x00⟩, .rol ⟨0x00, false, false, false, false⟩ ⟨0x01, true, false, false, false⟩ 0x00),
          (⟨0x0F, 0x00, 0x01, 0x10, 0x00⟩, .ror ⟨0x00, false, false, false, false⟩ ⟨0x01, true, false, false, false⟩ 0x00),
          (⟨0x10, 0x01, 0x00, 0x00, 0x00⟩, .inc ⟨0x01, false, false, false, false⟩ 0x00),
          (⟨0x11, 0x02, 0x00, 0x00, 0x00⟩, .dec ⟨0x02, false, false, false, false⟩ 0x00)] ++
        [(⟨0x12, 0x2A, 0x00, 0x01, 0x00⟩, .push ⟨0x2A, true, false, false, false⟩ 0x00),
          (⟨0x13, 0x01, 0x00, 0x00, 0x00⟩, .pop ⟨0x01, false, false, false, false⟩ 0x00),
          (⟨0x14, 0x00, 0x00, 0x00, 0x00⟩, .pusha),
          (⟨0x15, 0x00, 0x00, 0x00, 0x00⟩, .popa),
          (⟨0x16, 0x00, 0x00, 0x02, 0x00⟩, .call ⟨0x00, false, true, false, false⟩ 0x00),
          (⟨0x17, 0x00, 0x00, 0x00, 0x00⟩, .ret)] ++
        [(⟨0x18, 0x00, 0x00, 0x06, 0xFF⟩, .jmp ⟨0x00, false, true, true, false⟩ 0xFF),
          (⟨0x19, 0x01, 0x00, 0x02, 0x00⟩, .loop ⟨0x01, false, true, false, false⟩ 0x00),
          (⟨0x1A, 0x00, 0x00, 0x02, 0x00⟩, .jz ⟨0x00, false, true, false, false⟩ 0x00),
          (⟨0x1B, 0x00, 0x00, 0x02, 0x00⟩, .je ⟨0x00, false, true, false, false⟩ 0x00),
          (⟨0x1C, 0x00, 0x00, 0x02, 0x00⟩, .jnz ⟨0x00, false, true, false, false⟩ 0x00),
          (⟨0x1D, 0x00, 0x00, 0x02, 0x00⟩, .jne ⟨0x00, false, true, false, false⟩ 0x00),
          (⟨0x1E, 0x00, 0x00, 0x02, 0x00⟩, .jc ⟨0x00, false, true, false, false⟩ 0x00),
          (⟨0x1F, 0x00, 0x00, 0x02, 0x00⟩, .jnc ⟨0x00, false, true, false, false⟩ 0x00),
          (⟨0x20, 0x02, 0x01, 0x60, 0x02⟩, .djnz ⟨0x02, false, false, false, false⟩ ⟨0x01, false, true, true, false⟩ 0x02)] ++
        [(⟨0x21, 0x00, 0x00, 0x00, 0x00⟩, .clz),
          (⟨0x22, 0x00, 0x00, 0x00, 0x00⟩, .sez),
          (⟨0x23, 0x00, 0x00, 0x00, 0x00⟩, .clc),
          (⟨0x24, 0x00, 0x00, 0x00, 0x00⟩, .sec),
          (⟨0x25, 0x00, 0x00, 0x00, 0x00⟩, .wfe),
          (⟨0x26, 0x00, 0x00, 0x00, 0x00⟩, .hlt),
          (⟨0x27, 0x00, 0x00, 0x00, 0x00⟩, .nop)] :
        List (Record × Instr)),
      decode p.1 = .ok p.2) ∧
    decode ⟨0x28, 0x00, 0x00, 0x00, 0x00⟩ = .error (.undefinedOpcode 0x28)

/-- Mnemonics with one effect are distinct opcodes with identical semantics (R101, 30_encoding.md section 4): JZ and JE
(R224), JNZ and JNE (R226), SHL and SAL (R182, 43_shift_incdec.md section 2), JMP and LOOP (R222; that their opcodes are
distinct rests on R95). The opcode bytes, and so that each pair has two, are the spec's decision D2 (log 7). -/
def Obligations.AliasesAreDistinctOpcodesWithOneMeaning : Prop :=
  (opcodeMap .jz ≠ opcodeMap .je ∧ opcodeMap .jnz ≠ opcodeMap .jne ∧ opcodeMap .shl ≠ opcodeMap .sal ∧
      opcodeMap .jmp ≠ opcodeMap .loop) ∧
    ∀ (s0 s1 : Slot) (off : Byte) (s : State),
      exec (.jz s0 off) s = exec (.je s0 off) s ∧ exec (.jnz s0 off) s = exec (.jne s0 off) s ∧
        exec (.shl s0 s1 off) s = exec (.sal s0 s1 off) s ∧ exec (.jmp s0 off) s = exec (.loop s0 off) s

/-! ### The tick -/

/-- A STEP RUNS THE DECODED INSTRUCTION (R120, R125, R126): the step request consumed, a negative `ip` clamped (D12), the
record copied into `ir` and `ip` moved to the next slot, then the instruction's own meaning. The same for every
configuration (R5, log 23). -/
def Obligations.StepRunsTheDecodedInstruction : Prop :=
  ∀ (s : State) (r : Record) (i : Instr),
    s.fault = false → (s.wait = false ∨ s.stepReq = true) →
      s.prog[(if 0x8000 ≤ s.ip.toNat then 0x0000 else s.ip).toNat]? = some r →
        (decode r = .ok i →
          step s =
            exec i
              { s with
                stepReq := false
                ip := (if 0x8000 ≤ s.ip.toNat then 0x0000 else s.ip) + 1
                ir := some r }) ∧
          ∀ cfg : Config.Parameters, decode r cfg = .ok i →
            stepWith cfg s =
              execWith cfg i
                { s with
                  stepReq := false
                  ip := (if 0x8000 ≤ s.ip.toNat then 0x0000 else s.ip) + 1
                  ir := some r }

/-- The halt check (R121): a tick of a faulted core, or of a waiting core with no step request, changes no state at all, a
step request included, and returns false. -/
def Obligations.HaltedTickChangesNothing : Prop :=
  ∀ s : State,
    (s.fault = true ∨ s.wait = true ∧ s.stepReq = false) → step s = .next s ∧ s.tickReturns = false

/-- The fetch bound check (R124), after the clamp (R123, D12): UNDEFINED_IP, `ip` not incremented, `ir` not written. -/
def Obligations.FetchOutsideTheProgramFaults : Prop :=
  ∀ s : State,
    s.fault = false → (s.wait = false ∨ s.stepReq = true) →
      s.prog.length ≤ (if 0x8000 ≤ s.ip.toNat then 0x0000 else s.ip).toNat →
        step s =
          .next
            { s with
              stepReq := false
              ip := if 0x8000 ≤ s.ip.toNat then 0x0000 else s.ip
              fault := true
              faultCode := Config.faultCodeMap .undefinedIp }

/-- An undefined opcode (R96, D11) is fetched like any other, with `ip` incremented, and raises the internal-error fault,
whose text is free. The same for every configuration (R5, log 23), with its own opcode bytes and its own INTERNAL_FAULT_CODE. -/
def Obligations.UndefinedOpcodeFaultsAfterTheFetch : Prop :=
  ∀ (s : State) (r : Record),
    s.fault = false → (s.wait = false ∨ s.stepReq = true) →
      s.prog[(if 0x8000 ≤ s.ip.toNat then 0x0000 else s.ip).toNat]? = some r →
        (0x28 ≤ r.opcode.toNat →
          ∃ text : String,
            step s =
              .next
                { s with
                  stepReq := false
                  ip := (if 0x8000 ≤ s.ip.toNat then 0x0000 else s.ip) + 1
                  ir := some r
                  fault := true
                  faultCode := Config.faultCodeMap Config.internalFaultCode
                  diag := some text }) ∧
          ∀ cfg : Config.Parameters, (∀ op : Opcode, cfg.opcodeMap op ≠ r.opcode) →
            ∃ text : String,
              stepWith cfg s =
                .next
                  { s with
                    stepReq := false
                    ip := (if 0x8000 ≤ s.ip.toNat then 0x0000 else s.ip) + 1
                    ir := some r
                    fault := true
                    faultCode := cfg.faultCodeMap cfg.internalFaultCode
                    diag := some text }

/-- Step consumption (R122): every tick that passes the halt check returns true (R127, D22) and clears the step request; a
single step does not clear `wait`, and the tick after it is again a no-op. -/
def Obligations.TickConsumesTheStepRequest : Prop :=
  ∀ s t : State,
    s.fault = false → (s.wait = false ∨ s.stepReq = true) → step s = .next t →
      s.tickReturns = true ∧ t.stepReq = false ∧ (s.wait = true → t.wait = true ∧ step t = .next t)

/-- No exception ever escapes the tick (R126, R266): from every state a step answers a next state, whatever stands in the
program, and under every configuration (R5, log 23). -/
def Obligations.EveryTickAnswersANextState : Prop :=
  ∀ s : State, (∃ t, step s = .next t) ∧ ∀ cfg : Config.Parameters, ∃ t, stepWith cfg s = .next t

/-- How an instruction leaves `ip` (R26): only the jumps, DJNZ, CALL and RET move it from the fetched slot + 1, and an
instruction that faults leaves it there. -/
def Obligations.OnlyControlTransfersMoveIp : Prop :=
  ∀ (i : Instr) (s t : State), exec i s = .next t →
    (i.opcode ∉ [Opcode.jmp, .loop, .jz, .je, .jnz, .jne, .jc, .jnc, .djnz, .call, .ret] → t.ip = s.ip) ∧
      (s.fault = false → t.fault = true → t.ip = s.ip)

/-! ### What instructions leave unchanged, over the whole set -/

/-- The flag table (R31): a flag an instruction does not list keeps its value. -/
def Obligations.UnlistedFlagsKeepTheirValue : Prop :=
  ∀ (i : Instr) (s t : State), exec i s = .next t →
    (i.opcode ∉ [Opcode.add, .sub, .mul, .div, .and, .or, .xor, .not, .cmp, .shl, .sal, .shr, .sar, .rol, .ror,
        .inc, .dec, .djnz, .clz, .sez] → t.zero = s.zero) ∧
      (i.opcode ∉ [Opcode.add, .sub, .mul, .div, .cmp] → t.overflow = s.overflow) ∧
      (i.opcode ∉ [Opcode.cmp, .clc, .sec] → t.carry = s.carry)

/-- Registers (R21, R22, R23): an instruction changes no register but its destination (A for MUL and DIV, A to D for POPA);
in particular PUSHA and POPA do not touch PORTS. The register file is "never resized". -/
def Obligations.OnlyDestinationRegistersChange : Prop :=
  ∀ (i : Instr) (s t : State), exec i s = .next t →
    t.regs.length = s.regs.length ∧ ∀ r : Nat, mayWriteReg i r = false → t.reg r = s.reg r

/-- The stack/data memory (R61, R62): only PUSH, PUSHA, CALL and MOV with an indirect destination store, and only to the
cells `mayStore` computes; every other cell reads as before. That POP and POPA leave the cells they read as they were
is the spec's decision D17 (44_stack_call.md section 1, log 12). -/
def Obligations.OnlyStoredCellsChange : Prop :=
  ∀ (i : Instr) (s t : State), exec i s = .next t →
    ∀ idx : Nat, mayStore i s idx = false → t.memRead idx = s.memRead idx

/-- The rest of the state: no instruction writes `ir`, the step request, the program or the labels (R36, R38, R39, R62);
only WFE writes `wait` (R34); only the six stack instructions write `sp` (R27); and without a fault neither `faultCode` nor
`diag` is written (R33, R37). -/
def Obligations.OtherStateIsWrittenOnlyByItsWriters : Prop :=
  ∀ (i : Instr) (s t : State), exec i s = .next t →
    (t.ir = s.ir ∧ t.stepReq = s.stepReq ∧ t.prog = s.prog ∧ t.labels = s.labels) ∧
      (i.opcode ≠ .wfe → t.wait = s.wait) ∧
      (i.opcode ∉ [Opcode.push, .pop, .pusha, .popa, .call, .ret] → t.sp = s.sp) ∧
      (t.fault = false → s.fault = false ∧ t.faultCode = s.faultCode ∧ t.diag = s.diag)

/-! ### Faults -/

/-- Faults are precise (R140, R266, D33): but for PUSHA, POPA and DJNZ, an instruction that faults changes nothing but
`fault`, `faultCode` and `diag`. -/
def Obligations.FaultsChangeNothingElse : Prop :=
  ∀ (i : Instr) (s t : State), i.opcode ∉ [Opcode.pusha, .popa, .djnz] → s.fault = false →
    exec i s = .next t → t.fault = true →
      t = { s with fault := true, faultCode := t.faultCode, diag := t.diag }

/-- Which instruction raises which code, all eight rows of R261 (codes D3 and D10): OUT_OF_BOUNDS comes only from an
instruction with an indirect slot, read or stored through (R90), and CODE_ERROR and INTERNAL_FAULT_CODE only from one with
an operand slot (R263, R170). -/
def Obligations.FaultCodesComeFromTheirRaisers : Prop :=
  ∀ (i : Instr) (s t : State), s.fault = false → exec i s = .next t → t.fault = true →
    (t.faultCode = Config.faultCodeMap .divisionByZero → i.opcode = .div) ∧
      (t.faultCode = Config.faultCodeMap .stackUnderflow → i.opcode ∈ [Opcode.pop, .popa, .ret]) ∧
      (t.faultCode = Config.faultCodeMap .stackOverflow → i.opcode ∈ [Opcode.push, .pusha, .call]) ∧
      (t.faultCode = Config.faultCodeMap .outOfBounds → addressesCell i = true) ∧
      (t.faultCode = Config.faultCodeMap .codeError ∨
          t.faultCode = Config.faultCodeMap Config.internalFaultCode → i.opcode.format ≠ .n) ∧
      (t.faultCode = Config.faultCodeMap .halted ↔ i.opcode = .hlt) ∧
      t.faultCode ≠ Config.faultCodeMap .undefinedIp ∧ t.faultCode ≠ Config.faultCodeMap .nominal

/-- Operand faults come first, in slot order (R86, R265, D27): the destination, slot 0, slot 1; DIV's divisor and PUSH's
full stack are looked at after them; MOV resolves its source first (D34). -/
def Obligations.OperandFaultsComeFirst : Prop :=
  ∀ (s0 s1 : Slot) (off : Byte) (s : State) (e : Trap),
    (dst s0 = .error e →
      exec (.add s0 s1 off) s = .next (s.raise e) ∧ exec (.sub s0 s1 off) s = .next (s.raise e) ∧
        exec (.and s0 s1 off) s = .next (s.raise e) ∧ exec (.or s0 s1 off) s = .next (s.raise e) ∧
        exec (.xor s0 s1 off) s = .next (s.raise e) ∧ exec (.shl s0 s1 off) s = .next (s.raise e) ∧
        exec (.sal s0 s1 off) s = .next (s.raise e) ∧ exec (.shr s0 s1 off) s = .next (s.raise e) ∧
        exec (.sar s0 s1 off) s = .next (s.raise e) ∧ exec (.rol s0 s1 off) s = .next (s.raise e) ∧
        exec (.ror s0 s1 off) s = .next (s.raise e) ∧ exec (.not s0 off) s = .next (s.raise e) ∧
        exec (.inc s0 off) s = .next (s.raise e) ∧ exec (.dec s0 off) s = .next (s.raise e) ∧
        exec (.djnz s0 s1 off) s = .next (s.raise e)) ∧
      (∀ r : Nat, dst s0 = .ok r → resolve s0 off s = .error e →
        exec (.add s0 s1 off) s = .next (s.raise e) ∧ exec (.sub s0 s1 off) s = .next (s.raise e) ∧
          exec (.and s0 s1 off) s = .next (s.raise e) ∧ exec (.or s0 s1 off) s = .next (s.raise e) ∧
          exec (.xor s0 s1 off) s = .next (s.raise e) ∧ exec (.shl s0 s1 off) s = .next (s.raise e) ∧
          exec (.sal s0 s1 off) s = .next (s.raise e) ∧ exec (.shr s0 s1 off) s = .next (s.raise e) ∧
          exec (.sar s0 s1 off) s = .next (s.raise e) ∧ exec (.rol s0 s1 off) s = .next (s.raise e) ∧
          exec (.ror s0 s1 off) s = .next (s.raise e) ∧ exec (.not s0 off) s = .next (s.raise e) ∧
          exec (.inc s0 off) s = .next (s.raise e) ∧ exec (.dec s0 off) s = .next (s.raise e) ∧
          exec (.djnz s0 s1 off) s = .next (s.raise e)) ∧
      (∀ (r : Nat) (a : Byte), dst s0 = .ok r → resolve s0 off s = .ok a → resolve s1 off s = .error e →
        exec (.add s0 s1 off) s = .next (s.raise e) ∧ exec (.sub s0 s1 off) s = .next (s.raise e) ∧
          exec (.and s0 s1 off) s = .next (s.raise e) ∧ exec (.or s0 s1 off) s = .next (s.raise e) ∧
          exec (.xor s0 s1 off) s = .next (s.raise e) ∧ exec (.shl s0 s1 off) s = .next (s.raise e) ∧
          exec (.sal s0 s1 off) s = .next (s.raise e) ∧ exec (.shr s0 s1 off) s = .next (s.raise e) ∧
          exec (.sar s0 s1 off) s = .next (s.raise e) ∧ exec (.rol s0 s1 off) s = .next (s.raise e) ∧
          exec (.ror s0 s1 off) s = .next (s.raise e)) ∧
      (resolve s0 off s = .error e →
        exec (.mul s0 off) s = .next (s.raise e) ∧ exec (.div s0 off) s = .next (s.raise e) ∧
          exec (.push s0 off) s = .next (s.raise e) ∧ exec (.cmp s0 s1 off) s = .next (s.raise e)) ∧
      (∀ a : Byte, resolve s0 off s = .ok a → resolve s1 off s = .error e →
        exec (.cmp s0 s1 off) s = .next (s.raise e)) ∧
      (resolve s1 off s = .error e → exec (.mov s0 s1 off) s = .next (s.raise e))

/-! ### Invariants -/

/-- THE INVARIANT IS KEPT BY EVERY STEP (R27, R40, R69, R21): `sp` stays in 0 to 64, the stack/data memory stays in
canonical form, with no cell outside 0 to 63, and the register file keeps its NUM_REGS registers. So it is for every
configuration (R5, log 23), with its own NUM_REGS. -/
def Obligations.EveryStepKeepsTheInvariant : Prop :=
  ∀ s t : State,
    (s.inv = true → step s = .next t → t.inv = true) ∧
      ∀ cfg : Config.Parameters, s.inv cfg = true → stepWith cfg s = .next t → t.inv cfg = true

/-- The state after reset meets the invariant. -/
def Obligations.ResetStateMeetsTheInvariant : Prop :=
  State.reset.inv = true

/-- Every host input between two ticks keeps the invariant, for every PORTS_RESET, every snapshot (R72, R46) and every
configuration (R5, log 23). -/
def Obligations.HostInputsKeepTheInvariant : Prop :=
  ∀ (cfg : Config.Parameters) (portsReset : Byte) (s : State) (h : HostInput), s.inv cfg = true →
    (s.input portsReset h cfg).inv cfg = true

/-- So every state that a core can come to, whatever the host does between ticks, meets the invariant: "The invariant
`0 ≤ sp ≤ 64` holds at all times" (R27). -/
def Obligations.EveryReachableStateMeetsTheInvariant : Prop :=
  ∀ (portsReset : Byte) (s : State), Reachable portsReset s → s.inv = true

/-- A program that meets the boot precondition (R296 (2)) never raises an internal-error fault, nor MOV's label fault, at
any tick, and still meets the precondition after it (R263, D10). -/
def Obligations.WellFormedProgramRaisesNoInternalFault : Prop :=
  ∀ s t : State, programWellFormed s.prog s.labels = true → s.fault = false → step s = .next t →
    programWellFormed t.prog t.labels = true ∧
      (t.fault = true →
        t.faultCode ≠ Config.faultCodeMap Config.internalFaultCode ∧ t.faultCode ≠ Config.faultCodeMap .codeError)

/-! ### Operand resolution -/

/-- Register and literal operands (R87, R88; register indices D1; the offset is ignored, R92, D19): a literal slot is its
raw byte, a register slot the contents of the register its raw byte names, and an index of 5 or more the internal-error
fault (R24, D10). For every configuration (R5, log 23) NUM_REGS bounds the index, and each index below it is a register. -/
def Obligations.RegisterAndLiteralOperandValues : Prop :=
  ∀ (k : Slot) (off : Byte) (s : State), k.label = false → k.indirect = false →
    (k.literal = true → resolve k off s = .ok k.raw) ∧
      (k.literal = false →
        (k.raw = 0x00 → resolve k off s = .ok (s.named .a)) ∧ (k.raw = 0x01 → resolve k off s = .ok (s.named .b)) ∧
          (k.raw = 0x02 → resolve k off s = .ok (s.named .c)) ∧ (k.raw = 0x03 → resolve k off s = .ok (s.named .d)) ∧
          (k.raw = 0x04 → resolve k off s = .ok (s.named .ports)) ∧
          (5 ≤ k.raw.toNat → resolve k off s = .error .internal)) ∧
      ∀ cfg : Config.Parameters,
        (k.literal = true → resolve k off s cfg = .ok k.raw) ∧
          (k.literal = false →
            (k.raw.toNat < cfg.numRegs → resolve k off s cfg = .ok (s.reg k.raw.toNat)) ∧
              (cfg.numRegs ≤ k.raw.toNat → resolve k off s cfg = .error .internal))

/-- Label operands (R89, D16): byte 1 of the record at the label's address plus the offset where the offset flag is set; an
index outside the table or a slot outside the program is the internal-error fault (D10), and so is a label slot with the
indirect flag (R91, D20). The literal flag is ignored (R83). -/
def Obligations.LabelOperandValues : Prop :=
  ∀ (k : Slot) (off : Byte) (s : State), k.label = true →
    (k.indirect = true → resolve k off s = .error .internal) ∧
      (k.indirect = false →
        (s.labels.length ≤ k.raw.toNat → resolve k off s = .error .internal) ∧
          ∀ (l : Label) (slot : Int), s.labels[k.raw.toNat]? = some l →
            slot = (l.address.toNat : Int) + (if k.hasOffset then off.toInt else 0) →
              (∀ r : Record, 0 ≤ slot → s.prog[slot.toNat]? = some r → resolve k off s = .ok r.operand0) ∧
                (slot < 0 ∨ (s.prog.length : Int) ≤ slot → resolve k off s = .error .internal))

/-- Memory-indirect operands (R90, signed base D5): the cell at the signed base plus the offset where the offset flag is
set; an index outside 0 to 63 is OUT_OF_BOUNDS (R69), and a base register index of 5 or more the internal-error fault (R24,
D10; that NUM_REGS is 5 is the spec's decision D1, log 6). -/
def Obligations.IndirectOperandValues : Prop :=
  ∀ (k : Slot) (off : Byte) (s : State), k.label = false → k.indirect = true →
    (k.literal = false → 5 ≤ k.raw.toNat → resolve k off s = .error .internal) ∧
      ∀ base : Byte, resolve { k with indirect := false } off s = .ok base →
        ∀ i : Int, i = base.toInt + (if k.hasOffset then off.toInt else 0) →
          (0 ≤ i → i ≤ 63 → resolve k off s = .ok (s.memRead i.toNat)) ∧
            (i < 0 ∨ 63 < i → resolve k off s = .error (.code .outOfBounds))

/-- Control-transfer targets (R94, D14, D16): the label's address plus the sign-extended offset where the offset flag is
set, modulo 2^16, whatever the other mode flags are; an index outside the table is the internal-error fault. -/
def Obligations.ControlTransferTargets : Prop :=
  ∀ (k : Slot) (off : Byte) (s : State),
    (∀ l : Label, s.labels[k.raw.toNat]? = some l →
      target k off s = .ok (if k.hasOffset then l.address + off.signExtend 16 else l.address)) ∧
      (s.labels.length ≤ k.raw.toNat → target k off s = .error .internal)

/-! ### Arithmetic, logic and compare (41_arith_logic.md) -/

/-- ADD (R141), SUB (R142) and MUL (R143) complete with the 8-bit two's-complement result; `zero` is whether that is 0x00
and `overflow` whether the exact signed result is below -128 or above 127 (R140). -/
def Obligations.AddSubMulResults : Prop :=
  ∀ (s0 s1 : Slot) (off : Byte) (s : State) (r : Nat) (a b : Byte),
    (dst s0 = .ok r → resolve s0 off s = .ok a → resolve s1 off s = .ok b →
      exec (.add s0 s1 off) s =
          .next
            { s with
              regs := s.regs.set r (a + b)
              zero := decide (a + b = 0x00)
              overflow := decide (a.toInt + b.toInt < -128 ∨ 127 < a.toInt + b.toInt) } ∧
        exec (.sub s0 s1 off) s =
          .next
            { s with
              regs := s.regs.set r (a - b)
              zero := decide (a = b)
              overflow := decide (a.toInt - b.toInt < -128 ∨ 127 < a.toInt - b.toInt) }) ∧
      (resolve s0 off s = .ok b →
        exec (.mul s0 off) s =
          .next
            { s with
              regs := s.regs.set Reg.a.index (s.named .a * b)
              zero := decide (s.named .a * b = 0x00)
              overflow := decide ((s.named .a).toInt * b.toInt < -128 ∨ 127 < (s.named .a).toInt * b.toInt) })

/-- DIV (R144, rounding toward zero D6): a divisor that is not 0 completes, with `overflow` exactly for 0x80 / 0xFF; the
divisor 0x00 is DIVISION_BY_ZERO with no flag or register change. -/
def Obligations.DivResultAndDivisionByZero : Prop :=
  ∀ (s0 : Slot) (off : Byte) (s : State) (b : Byte), resolve s0 off s = .ok b →
    (b ≠ 0x00 →
      exec (.div s0 off) s =
        .next
          { s with
            regs := s.regs.set Reg.a.index ((s.named .a).sdiv b)
            zero := decide ((s.named .a).sdiv b = 0x00)
            overflow := decide (s.named .a = 0x80 ∧ b = 0xFF) }) ∧
      (b = 0x00 →
        exec (.div s0 off) s =
          .next { s with fault := true, faultCode := Config.faultCodeMap .divisionByZero })

/-- AND (R145), OR (R146), XOR (R147) and NOT (R148) complete with the bitwise result and `zero`. -/
def Obligations.BitwiseResults : Prop :=
  ∀ (s0 s1 : Slot) (off : Byte) (s : State) (r : Nat) (a : Byte), dst s0 = .ok r → resolve s0 off s = .ok a →
    (∀ b : Byte, resolve s1 off s = .ok b →
      exec (.and s0 s1 off) s =
          .next { s with regs := s.regs.set r (a &&& b), zero := decide (a &&& b = 0x00) } ∧
        exec (.or s0 s1 off) s =
          .next { s with regs := s.regs.set r (a ||| b), zero := decide (a = 0x00 ∧ b = 0x00) } ∧
        exec (.xor s0 s1 off) s =
          .next { s with regs := s.regs.set r (a ^^^ b), zero := decide (a = b) }) ∧
      exec (.not s0 off) s =
        .next { s with regs := s.regs.set r (~~~a), zero := decide (a = 0xFF) }

/-- CMP (R149): `zero` is equality, `carry` the signed less-than (D8), `overflow` that of the subtraction (D7); no register
is written. -/
def Obligations.CompareFlags : Prop :=
  ∀ (s0 s1 : Slot) (off : Byte) (s : State) (a b : Byte), resolve s0 off s = .ok a → resolve s1 off s = .ok b →
    exec (.cmp s0 s1 off) s =
      .next
        { s with
          zero := decide (a = b)
          carry := a.slt b
          overflow := decide (a.toInt - b.toInt < -128 ∨ 127 < a.toInt - b.toInt) }

/-! ### MOV (42_move.md) -/

/-- MOV to a register (R170, register or literal class D21) writes the register slot 0's raw byte names and nothing else;
an index of 5 or more is the internal-error fault (R24, D10; that NUM_REGS is 5 is the spec's decision D1, log 6); a label
destination is CODE_ERROR with its text. -/
def Obligations.MoveToRegisterOrLabel : Prop :=
  ∀ (s0 s1 : Slot) (off : Byte) (s : State) (v : Byte), resolve s1 off s = .ok v → s0.indirect = false →
    (s0.label = false →
      (∀ r : Nat, dst s0 = .ok r → exec (.mov s0 s1 off) s = .next { s with regs := s.regs.set r v }) ∧
        (5 ≤ s0.raw.toNat → exec (.mov s0 s1 off) s = .next (s.raise .internal))) ∧
      (s0.label = true →
        exec (.mov s0 s1 off) s =
          .next
            { s with
              fault := true
              faultCode := Config.faultCodeMap .codeError
              diag := some "label in first operand" })

/-- MOV to memory (R170): the source byte is stored at the index of slot 0, every other cell and all other state is as
before, and a failing index raises its fault; a label with the indirect flag is the internal-error fault (D20). -/
def Obligations.MoveToMemory : Prop :=
  ∀ (s0 s1 : Slot) (off : Byte) (s : State) (v : Byte), s.inv = true → resolve s1 off s = .ok v →
    s0.indirect = true →
      (s0.label = true → exec (.mov s0 s1 off) s = .next (s.raise .internal)) ∧
        (s0.label = false →
          (∀ e : Trap, index s0 off s = .error e → exec (.mov s0 s1 off) s = .next (s.raise e)) ∧
            ∀ i : Nat, index s0 off s = .ok i →
              ∃ t, exec (.mov s0 s1 off) s = .next t ∧ t.memRead i = v ∧
                (∀ idx : Nat, idx ≠ i → t.memRead idx = s.memRead idx) ∧ { t with stack := s.stack } = s)

/-! ### Shifts, rotates, INC and DEC (43_shift_incdec.md) -/

/-- SHL (R181), SAL (R182), SHR (R183) and SAR (R184, K1) complete with the shift by the amount clamped to 8 (R180, D9) and
`zero`; no other flag is written. -/
def Obligations.ShiftResults : Prop :=
  ∀ (s0 s1 : Slot) (off : Byte) (s : State) (r : Nat) (a b : Byte),
    dst s0 = .ok r → resolve s0 off s = .ok a → resolve s1 off s = .ok b →
      ∀ n : Nat, n = min b.toNat 8 →
        exec (.shl s0 s1 off) s = .next { s with regs := s.regs.set r (a <<< n), zero := decide (a <<< n = 0x00) } ∧
          exec (.sal s0 s1 off) s = .next { s with regs := s.regs.set r (a <<< n), zero := decide (a <<< n = 0x00) } ∧
          exec (.shr s0 s1 off) s = .next { s with regs := s.regs.set r (a >>> n), zero := decide (a >>> n = 0x00) } ∧
          exec (.sar s0 s1 off) s =
            .next { s with regs := s.regs.set r (a.sshiftRight n), zero := decide (a.sshiftRight n = 0x00) }

/-- ROL (R185) and ROR (R186) complete with the 8-bit rotate by the amount clamped to 8 (R180, D9; direction and formula
K2, K3); `zero` is set exactly for the value 0x00. -/
def Obligations.RotateResults : Prop :=
  ∀ (s0 s1 : Slot) (off : Byte) (s : State) (r : Nat) (a b : Byte),
    dst s0 = .ok r → resolve s0 off s = .ok a → resolve s1 off s = .ok b →
      exec (.rol s0 s1 off) s =
          .next { s with regs := s.regs.set r (a.rotateLeft (min b.toNat 8)), zero := decide (a = 0x00) } ∧
        exec (.ror s0 s1 off) s =
          .next { s with regs := s.regs.set r (a.rotateRight (min b.toNat 8)), zero := decide (a = 0x00) }

/-- INC (R187) and DEC (R188) complete with the truncated result and `zero`; `overflow` and `carry` are not written. -/
def Obligations.IncDecResults : Prop :=
  ∀ (s0 : Slot) (off : Byte) (s : State) (r : Nat) (a : Byte), dst s0 = .ok r → resolve s0 off s = .ok a →
    exec (.inc s0 off) s = .next { s with regs := s.regs.set r (a + 1), zero := decide (a = 0xFF) } ∧
      exec (.dec s0 off) s = .next { s with regs := s.regs.set r (a - 1), zero := decide (a = 0x01) }

/-! ### Stack, call and return (44_stack_call.md) -/

/-- PUSH (R200, R201): with a free cell the byte goes to the cell at `sp` and `sp` moves up by one, nothing else changing;
at `sp` = 64 it is STACK_OVERFLOW with no write. -/
def Obligations.PushResult : Prop :=
  ∀ (s0 : Slot) (off : Byte) (s : State) (v : Byte), s.inv = true → resolve s0 off s = .ok v →
    (s.sp.toNat ≤ 63 →
      ∃ t, exec (.push s0 off) s = .next t ∧ t.sp = s.sp + 1 ∧ t.memRead s.sp.toNat = v ∧
        (∀ idx : Nat, idx ≠ s.sp.toNat → t.memRead idx = s.memRead idx) ∧
        { t with stack := s.stack, sp := s.sp } = s) ∧
      (s.sp.toNat = 64 →
        exec (.push s0 off) s = .next { s with fault := true, faultCode := Config.faultCodeMap .stackOverflow })

/-- POP (R200, R202, D17): a byte on the stack goes to the register slot 0's raw byte names and `sp` moves down by one, the
cell keeping its byte; an empty stack is STACK_UNDERFLOW; a register index of 5 or more is the internal-error fault (R24, D10;
that NUM_REGS is 5 is the spec's decision D1, log 6) before the pop (D33); slot 0's mode nibble and the offset have no
effect. -/
def Obligations.PopResult : Prop :=
  ∀ (s0 : Slot) (off : Byte) (s : State),
    (∀ r : Nat, dst s0 = .ok r →
      (1 ≤ s.sp.toNat →
        exec (.pop s0 off) s =
          .next { s with regs := s.regs.set r (s.memRead (s.sp.toNat - 1)), sp := s.sp - 1 }) ∧
        (s.sp.toNat = 0 →
          exec (.pop s0 off) s = .next { s with fault := true, faultCode := Config.faultCodeMap .stackUnderflow })) ∧
      (5 ≤ s0.raw.toNat → exec (.pop s0 off) s = .next (s.raise .internal)) ∧
      ∀ (k : Slot) (off' : Byte), k.raw = s0.raw → exec (.pop k off') s = exec (.pop s0 off) s

/-- PUSHA (R203): A, B, C and D go to the cells from `sp` up as far as there are cells; with fewer than four free cells the
pushes before the first that finds `sp` = 64 stay and the fault is STACK_OVERFLOW. -/
def Obligations.PushaResult : Prop :=
  ∀ s : State, s.inv = true →
    ∃ t, exec .pusha s = .next t ∧ t.sp.toNat = min 64 (s.sp.toNat + 4) ∧
      (s.sp.toNat < 64 → t.memRead s.sp.toNat = s.named .a) ∧
      (s.sp.toNat + 1 < 64 → t.memRead (s.sp.toNat + 1) = s.named .b) ∧
      (s.sp.toNat + 2 < 64 → t.memRead (s.sp.toNat + 2) = s.named .c) ∧
      (s.sp.toNat + 3 < 64 → t.memRead (s.sp.toNat + 3) = s.named .d) ∧
      (∀ idx : Nat, idx < s.sp.toNat ∨ s.sp.toNat + 4 ≤ idx ∨ 64 ≤ idx → t.memRead idx = s.memRead idx) ∧
      (s.sp.toNat ≤ 60 → { t with stack := s.stack, sp := s.sp } = s) ∧
      (60 < s.sp.toNat →
        { t with stack := s.stack, sp := s.sp } =
          { s with fault := true, faultCode := Config.faultCodeMap .stackOverflow })

/-- POPA (R204): D, C, B and A take the bytes from the top of the stack down as far as there are bytes; with fewer than four
the pops before the first that finds `sp` = 0 stay and the fault is STACK_UNDERFLOW. No cell changes (D17), nor PORTS. -/
def Obligations.PopaResult : Prop :=
  ∀ s : State, s.inv = true →
    ∃ t, exec .popa s = .next t ∧ t.sp.toNat = s.sp.toNat - 4 ∧
      t.named .d = (if 1 ≤ s.sp.toNat then s.memRead (s.sp.toNat - 1) else s.named .d) ∧
      t.named .c = (if 2 ≤ s.sp.toNat then s.memRead (s.sp.toNat - 2) else s.named .c) ∧
      t.named .b = (if 3 ≤ s.sp.toNat then s.memRead (s.sp.toNat - 3) else s.named .b) ∧
      t.named .a = (if 4 ≤ s.sp.toNat then s.memRead (s.sp.toNat - 4) else s.named .a) ∧
      t.named .ports = s.named .ports ∧ t.regs.length = s.regs.length ∧
      (4 ≤ s.sp.toNat → { t with regs := s.regs, sp := s.sp } = s) ∧
      (s.sp.toNat < 4 →
        { t with regs := s.regs, sp := s.sp } =
          { s with fault := true, faultCode := Config.faultCodeMap .stackUnderflow })

/-- CALL (R205, R63): with two free cells the return address goes to the cells at `sp` and `sp` + 1, the low byte at the
lower index, `sp` moves up by two and `ip` is the target; with fewer it is STACK_OVERFLOW before any push; a label index
outside the table is the internal-error fault (D10). -/
def Obligations.CallResult : Prop :=
  ∀ (s0 : Slot) (off : Byte) (s : State), s.inv = true →
    (∀ a : SlotAddr, target s0 off s = .ok a →
      (s.sp.toNat ≤ 62 →
        ∃ t, exec (.call s0 off) s = .next t ∧ t.ip = a ∧ t.sp = s.sp + 2 ∧
          t.memRead s.sp.toNat = s.ip.extractLsb' 0 8 ∧ t.memRead (s.sp.toNat + 1) = s.ip.extractLsb' 8 8 ∧
          (∀ idx : Nat, idx ≠ s.sp.toNat → idx ≠ s.sp.toNat + 1 → t.memRead idx = s.memRead idx) ∧
          { t with stack := s.stack, sp := s.sp, ip := s.ip } = s) ∧
        (63 ≤ s.sp.toNat →
          exec (.call s0 off) s = .next { s with fault := true, faultCode := Config.faultCodeMap .stackOverflow })) ∧
      (s.labels.length ≤ s0.raw.toNat → exec (.call s0 off) s = .next (s.raise .internal))

/-- RET (R206, combination D13): with two bytes on the stack `ip` is the higher cell's byte over the lower cell's and `sp`
moves down by two; with fewer it is STACK_UNDERFLOW and nothing else changes. -/
def Obligations.RetResult : Prop :=
  ∀ s : State,
    (2 ≤ s.sp.toNat →
      exec .ret s =
        .next
          { s with
            ip := s.memRead (s.sp.toNat - 1) ++ s.memRead (s.sp.toNat - 2)
            sp := s.sp - 2 }) ∧
      (s.sp.toNat ≤ 1 →
        exec .ret s = .next { s with fault := true, faultCode := Config.faultCodeMap .stackUnderflow })

/-- "PUSH then POP is idempotent on stack pointer and restores the pushed byte exactly" (R201), whatever the fetch of the
POP makes of `ip` and `ir`. -/
def Obligations.PushThenPopRestoresTheByte : Prop :=
  ∀ (s0 s1 : Slot) (off off' : Byte) (s : State) (v : Byte) (r : Nat),
    s.inv = true → s.sp.toNat ≤ 63 → resolve s0 off s = .ok v → dst s1 = .ok r →
      ∃ t, exec (.push s0 off) s = .next t ∧
        ∀ (ip : SlotAddr) (ir : Option Record),
          ∃ u, exec (.pop s1 off') { t with ip := ip, ir := ir } = .next u ∧ u.sp = s.sp ∧ u.reg r = v

/-- "PUSHA followed by POPA restores A to D exactly" (R204), whatever the registers held between; and nothing else changes,
the popped cells included, which is the spec's decision D17 (R200, 44_stack_call.md section 1, log 12). So it is for every
configuration (R5, log 23), wherever it places A to D and however many registers it has: any other keeps its value. -/
def Obligations.PushaThenPopaRestoresTheRegisters : Prop :=
  ∀ s : State, s.sp.toNat ≤ 60 →
    (s.inv = true →
      ∃ t, exec .pusha s = .next t ∧
        ∀ (ip : SlotAddr) (ir : Option Record) (between : Regs), between.length = 5 →
          exec .popa { t with ip := ip, ir := ir, regs := between } =
            .next
              { t with
                ip := ip
                ir := ir
                sp := s.sp
                regs := s.regs.set Reg.ports.index (between.getD Reg.ports.index 0x00) }) ∧
      ∀ cfg : Config.Parameters, s.inv cfg = true →
        ∃ t, execWith cfg .pusha s = .next t ∧
          ∀ (ip : SlotAddr) (ir : Option Record) (between : Regs), between.length = cfg.numRegs →
            ∃ u, execWith cfg .popa { t with ip := ip, ir := ir, regs := between } = .next u ∧
              (∀ r : Reg, r ≠ .ports → u.named r cfg = s.named r cfg) ∧
              (∀ j : Nat, (∀ r : Reg, r ≠ .ports → j ≠ r.index cfg) → u.reg j = between.getD j 0x00) ∧
              u.regs.length = cfg.numRegs ∧
              { u with regs := between } = { t with ip := ip, ir := ir, sp := s.sp, regs := between }

/-- "CALL then RET restores `ip` to the instruction immediately after the CALL" (R205, R206), and `sp`, whatever the fetch
of the RET makes of `ip` and `ir`. -/
def Obligations.CallThenRetReturnsAfterTheCall : Prop :=
  ∀ (s0 : Slot) (off : Byte) (s : State) (a : SlotAddr),
    s.inv = true → s.sp.toNat ≤ 62 → target s0 off s = .ok a →
      ∃ t, exec (.call s0 off) s = .next t ∧ t.ip = a ∧
        ∀ (ip : SlotAddr) (ir : Option Record),
          exec .ret { t with ip := ip, ir := ir } = .next { t with ip := s.ip, ir := ir, sp := s.sp }

/-! ### Jumps (45_jump.md) -/

/-- JMP (R221) and LOOP (R222) write the target to `ip` and nothing else; LOOP counts no register. A label index outside
the table is the internal-error fault (D10). -/
def Obligations.JumpAndLoopGoToTheirTarget : Prop :=
  ∀ (s0 : Slot) (off : Byte) (s : State),
    (∀ a : SlotAddr, target s0 off s = .ok a →
      exec (.jmp s0 off) s = .next { s with ip := a } ∧ exec (.loop s0 off) s = .next { s with ip := a }) ∧
      (s.labels.length ≤ s0.raw.toNat →
        exec (.jmp s0 off) s = .next (s.raise .internal) ∧ exec (.loop s0 off) s = .next (s.raise .internal))

/-- The conditional jumps (R220, R223 to R228; polarity K5; the target evaluated only when taken, D14): JZ and JE test
`zero` = 1, JNZ and JNE `zero` = 0, JC `carry` = 1, JNC `carry` = 0. An untaken jump changes nothing, whatever its label. -/
def Obligations.ConditionalJumpsTestTheirFlag : Prop :=
  ∀ (s0 : Slot) (off : Byte) (s : State),
    (∀ a : SlotAddr, target s0 off s = .ok a →
      (s.zero = true →
        exec (.jz s0 off) s = .next { s with ip := a } ∧ exec (.je s0 off) s = .next { s with ip := a }) ∧
        (s.zero = false →
          exec (.jnz s0 off) s = .next { s with ip := a } ∧ exec (.jne s0 off) s = .next { s with ip := a }) ∧
        (s.carry = true → exec (.jc s0 off) s = .next { s with ip := a }) ∧
        (s.carry = false → exec (.jnc s0 off) s = .next { s with ip := a })) ∧
      (s.labels.length ≤ s0.raw.toNat →
        (s.zero = true →
          exec (.jz s0 off) s = .next (s.raise .internal) ∧ exec (.je s0 off) s = .next (s.raise .internal)) ∧
          (s.zero = false →
            exec (.jnz s0 off) s = .next (s.raise .internal) ∧ exec (.jne s0 off) s = .next (s.raise .internal)) ∧
          (s.carry = true → exec (.jc s0 off) s = .next (s.raise .internal)) ∧
          (s.carry = false → exec (.jnc s0 off) s = .next (s.raise .internal))) ∧
      (s.zero = false → exec (.jz s0 off) s = .next s ∧ exec (.je s0 off) s = .next s) ∧
      (s.zero = true → exec (.jnz s0 off) s = .next s ∧ exec (.jne s0 off) s = .next s) ∧
      (s.carry = false → exec (.jc s0 off) s = .next s) ∧
      (s.carry = true → exec (.jnc s0 off) s = .next s)

/-- DJNZ (R229, D15): the register is decremented and `zero` written; it jumps exactly when the decremented value is not
0x00 (so not at the transition from 1 to 0); the decrement stays where the taken jump's label is outside the table. -/
def Obligations.DecrementAndJumpIfNotZero : Prop :=
  ∀ (s0 s1 : Slot) (off : Byte) (s : State) (r : Nat) (a : Byte), dst s0 = .ok r → resolve s0 off s = .ok a →
    (a = 0x01 → exec (.djnz s0 s1 off) s = .next { s with regs := s.regs.set r 0x00, zero := true }) ∧
      (a ≠ 0x01 →
        (∀ tgt : SlotAddr, target s1 off s = .ok tgt →
          exec (.djnz s0 s1 off) s = .next { s with regs := s.regs.set r (a - 1), zero := false, ip := tgt }) ∧
          (s.labels.length ≤ s1.raw.toNat →
            exec (.djnz s0 s1 off) s =
              .next (State.raise { s with regs := s.regs.set r (a - 1), zero := false } .internal)))

/-! ### Flag and system instructions (46_flag_system.md) -/

/-- CLZ (R240), SEZ (R241), CLC (R242) and SEC (R243) write their flag and nothing else (which flag and value K6); NOP
(R246) has no effect beyond the fetch. -/
def Obligations.FlagInstructionsWriteTheirFlagAndNopNothing : Prop :=
  ∀ s : State,
    exec .clz s = .next { s with zero := false } ∧ exec .sez s = .next { s with zero := true } ∧
      exec .clc s = .next { s with carry := false } ∧ exec .sec s = .next { s with carry := true } ∧
      exec .nop s = .next s

/-- WFE sets `wait` and nothing else, and without a step request the next tick is then a no-op (R244). -/
def Obligations.WaitForEventWaits : Prop :=
  ∀ s : State,
    exec .wfe s = .next { s with wait := true } ∧
      (s.stepReq = false → step { s with wait := true } = .next { s with wait := true })

/-- HLT raises HALTED, with `ip` left where it is, and the core stays halted at every later tick, also after a wake or a
step request (R245). -/
def Obligations.HaltHalts : Prop :=
  ∀ s : State,
    exec .hlt s = .next { s with fault := true, faultCode := Config.faultCodeMap .halted } ∧
      ∀ t : State, exec .hlt s = .next t →
        step t = .next t ∧ step t.wake = .next t.wake ∧ step t.requestStep = .next t.requestStep

/-! ### The host's inputs -/

/-- Load of a program (R290, R292, R42), for every PORTS_RESET: every element at its power-on value, every stack cell 0x00, the
program and its labels installed, and the next tick fetches slot 0 (five registers with PORTS last: the spec's decision D1,
log 6). For every configuration (R5, log 23) the register file is NUM_REGS registers, all 0x00 but PORTS. -/
def Obligations.LoadResetsEverythingAndInstalls : Prop :=
  ∀ (portsReset : Byte) (records : List Record) (labels : List Label) (s : State),
    s.load portsReset (.program records labels) =
        { regs := [0x00, 0x00, 0x00, 0x00, portsReset]
          ip := 0x0000, sp := 0x00
          zero := false, overflow := false, carry := false, fault := false, wait := false
          faultCode := Config.faultCodeMap .nominal
          stepReq := false, ir := none, diag := none
          stack := [], prog := records, labels := labels } ∧
      (∀ idx : Nat, (s.load portsReset (.program records labels)).memRead idx = 0x00) ∧
      ∀ cfg : Config.Parameters,
        (s.load portsReset (.program records labels) cfg).regs.length = cfg.numRegs ∧
          (s.load portsReset (.program records labels) cfg).named .ports cfg = portsReset ∧
          ∀ j : Nat, j ≠ Reg.ports.index cfg → (s.load portsReset (.program records labels) cfg).reg j = 0x00

/-- Load of an absent program (R291) is the load of an empty one, and the next tick faults UNDEFINED_IP with `ip` still 0;
a load-time error (R264) is the load of an empty program, and then `fault`, CODE_ERROR and the message. That its label table
is empty too is the model's choice (log 20): R264 names the empty program alone. -/
def Obligations.LoadWithoutAProgramLeavesAnEmptyOne : Prop :=
  ∀ (portsReset : Byte) (message : String) (s : State),
    s.load portsReset .absent = s.load portsReset (.program [] []) ∧
      step (s.load portsReset .absent) =
        .next
          { s.load portsReset .absent with
            fault := true
            faultCode := Config.faultCodeMap .undefinedIp } ∧
      s.load portsReset (.erroneous message) =
        { s.load portsReset (.program [] []) with
          fault := true
          faultCode := Config.faultCodeMap .codeError
          diag := some message }

/-- Reset (R293, D18): every element at its power-on value but the stack, the program and the labels, which are kept; so
after it the core is not halted. -/
def Obligations.ResetKeepsStackAndProgram : Prop :=
  ∀ (portsReset : Byte) (s : State),
    s.hardReset portsReset = { s.load portsReset (.program s.prog s.labels) with stack := s.stack } ∧
      (s.hardReset portsReset).halted = false

/-- THE MODEL'S CHOICE for PORTS_RESET (log 1) in the state a core has before its first load, which is that of a load of an
absent program (D32). -/
def Obligations.ResetStateIsLoadOfNothing : Prop :=
  ∀ s : State, State.reset = s.load 0x00 .absent

/-- Wake (R128) and the single-step request (R129) each write one bit and nothing else; a core that is not faulted then
runs at the next tick, which returns true (R127, D22, log 11), and a faulted core stays halted. The host's write of PORTS (R23, R273, D36) writes all 8 bits of that
register and nothing else, and the next read gives the byte, in every configuration (R5, log 23). -/
def Obligations.WakeStepRequestAndPortsWrite : Prop :=
  ∀ (s : State) (v : Byte),
    s.writePorts v = { s with regs := s.regs.set Reg.ports.index v } ∧
      (∀ cfg : Config.Parameters, s.inv cfg = true → (s.writePorts v cfg).readPorts cfg = v) ∧
    s.wake = { s with wait := false } ∧ s.requestStep = { s with stepReq := true } ∧
      s.requestStep.requestStep = s.requestStep ∧
      (s.fault = false → s.wake.tickReturns = true ∧ s.requestStep.tickReturns = true) ∧
      (s.fault = true → s.wake.tickReturns = false ∧ s.requestStep.tickReturns = false)

/-- The packed flags word (R44; unused bits written as 0, D31): the five flags in bits 4:0, `sp` in bits 47:40, `ip` in
bits 63:48. -/
def Obligations.FlagsWordLayout : Prop :=
  ∀ s : State,
    s.packFlags.getLsbD 0 = s.fault ∧ s.packFlags.getLsbD 1 = s.zero ∧ s.packFlags.getLsbD 2 = s.overflow ∧
      s.packFlags.getLsbD 3 = s.carry ∧ s.packFlags.getLsbD 4 = s.wait ∧ s.packFlags.extractLsb' 5 35 = 0 ∧
      s.packFlags.extractLsb' 40 8 = s.sp ∧ s.packFlags.extractLsb' 48 16 = s.ip

/-- Save then restore (R45): every persisted field bit for bit, on whatever core; the step request and `ir` are cleared,
and an empty diagnostic string restores as absent. The same for every configuration (R5, log 23), for all its registers. -/
def Obligations.RestoreOfSaveIsTheSameState : Prop :=
  ∀ s u : State,
    (s.inv = true →
      u.restore s.save =
        { s with
          stepReq := false
          ir := none
          diag := if s.diag = some "" then none else s.diag }) ∧
      ∀ cfg : Config.Parameters, s.inv cfg = true →
        State.restore s.save u cfg =
          { s with
            stepReq := false
            ir := none
            diag := if s.diag = some "" then none else s.diag }

/-- Restore (R46, R294, D29): a snapshot with more than five registers or an `sp` above 64 is refused and changes nothing;
any other is taken, with the registers its array lacks filled with 0x00 and the unused flag bits ignored (D31). That there
are five registers, and their order A, B, C, D, PORTS in the array, is the spec's decision D1 (log 6). -/
def Obligations.RestoreRefusesOrTakesTheSnapshot : Prop :=
  ∀ (snap : Snapshot) (s : State),
    (5 < snap.registers.length ∨ 64 < (snap.flags.extractLsb' 40 8).toNat → s.restore snap = s) ∧
      (snap.registers.length ≤ 5 → (snap.flags.extractLsb' 40 8).toNat ≤ 64 →
        (s.restore snap).ip = snap.flags.extractLsb' 48 16 ∧ (s.restore snap).sp = snap.flags.extractLsb' 40 8 ∧
          (s.restore snap).fault = snap.flags.getLsbD 0 ∧ (s.restore snap).zero = snap.flags.getLsbD 1 ∧
          (s.restore snap).overflow = snap.flags.getLsbD 2 ∧ (s.restore snap).carry = snap.flags.getLsbD 3 ∧
          (s.restore snap).wait = snap.flags.getLsbD 4 ∧ (s.restore snap).faultCode = snap.faultCode ∧
          (s.restore snap).stepReq = false ∧ (s.restore snap).ir = none ∧
          (s.restore snap).diag = (if snap.error = some "" then none else snap.error) ∧
          (s.restore snap).prog = snap.program ∧ (s.restore snap).labels = snap.labels ∧
          (∀ idx : Fin 64, (s.restore snap).memRead idx.val = snap.stack[idx]) ∧
          (s.restore snap).regs.length = 5 ∧
          [(s.restore snap).named .a, (s.restore snap).named .b, (s.restore snap).named .c, (s.restore snap).named .d,
              (s.restore snap).named .ports] =
            snap.registers ++ List.replicate (5 - snap.registers.length) 0x00)
end

