-- ==== Sys2Proof/Laws/Decode.lean ====
section
/-!
SUPPORT. Sys2Proof/Laws/Decode.lean: the mode byte packs and unpacks (30_encoding.md R82), and each mnemonic is read back from
its opcode byte (R81, R95).
-/

namespace Sys2Proof

variable {cfg : Config.Parameters}

theorem mem_allOpcodes (op : Opcode) : op ∈ allOpcodes := by
  cases op <;> decide

/-- A byte that selects a mnemonic is that mnemonic's byte. -/
theorem opcodeMap_of_opcodeOf {byte : Byte} {op : Opcode} (h : opcodeOf byte cfg = some op) : cfg.opcodeMap op = byte := by
  have := List.find?_some h
  simpa using this

/-- Each mnemonic's byte selects it. -/
theorem opcodeOf_opcodeMap (cfg : Config.Parameters) (op : Opcode) :
    opcodeOf (cfg.opcodeMap op) cfg = some op := by
  cases h : opcodeOf (cfg.opcodeMap op) cfg with
  | none => simpa using List.find?_eq_none.1 h op (mem_allOpcodes op)
  | some q => rw [cfg.opcodeMap_injective (opcodeMap_of_opcodeOf h)]

theorem Instr.opcode_instrOf (op : Opcode) (r : Record) : (instrOf op r).opcode = op := by
  cases op <;> rfl

/-- The eight mode bits of two nibbles, bit by bit. -/
theorem packed_bits : ∀ a0 b0 c0 d0 a1 b1 c1 d1 : Bool,
    let m := BitVec.ofNat 8 ((Slot.mk 0 a0 b0 c0 d0).nibble + 16 * (Slot.mk 0 a1 b1 c1 d1).nibble)
    (m.getLsbD 0 = a0 ∧ m.getLsbD 1 = b0 ∧ m.getLsbD 2 = c0 ∧ m.getLsbD 3 = d0) ∧
      (m.getLsbD 4 = a1 ∧ m.getLsbD 5 = b1 ∧ m.getLsbD 6 = c1 ∧ m.getLsbD 7 = d1) := by
  decide +kernel

@[simp] theorem recordOf_slot0 (op : Opcode) (s0 s1 : Slot) (off : Byte) : (recordOf op s0 s1 off cfg).slot0 = s0 := by
  obtain ⟨r0, a0, b0, c0, d0⟩ := s0
  obtain ⟨r1, a1, b1, c1, d1⟩ := s1
  obtain ⟨h0, h1, h2, h3⟩ := (packed_bits a0 b0 c0 d0 a1 b1 c1 d1).1
  exact Slot.mk.injEq .. ▸ ⟨rfl, h0, h1, h2, h3⟩

@[simp] theorem recordOf_slot1 (op : Opcode) (s0 s1 : Slot) (off : Byte) : (recordOf op s0 s1 off cfg).slot1 = s1 := by
  obtain ⟨r0, a0, b0, c0, d0⟩ := s0
  obtain ⟨r1, a1, b1, c1, d1⟩ := s1
  obtain ⟨h0, h1, h2, h3⟩ := (packed_bits a0 b0 c0 d0 a1 b1 c1 d1).2
  exact Slot.mk.injEq .. ▸ ⟨rfl, h0, h1, h2, h3⟩

@[simp] theorem recordOf_offset (op : Opcode) (s0 s1 : Slot) (off : Byte) : (recordOf op s0 s1 off cfg).offset = off := rfl

@[simp] theorem recordOf_opcode (op : Opcode) (s0 s1 : Slot) (off : Byte) :
    (recordOf op s0 s1 off cfg).opcode = cfg.opcodeMap op := rfl

/-- A mode byte is the two nibbles its slots hold. -/
theorem mode_of_nibbles (r : Record) : BitVec.ofNat 8 (r.slot0.nibble + 16 * r.slot1.nibble) = r.mode := by
  obtain ⟨o, a, b, m, f⟩ := r
  simp only [Slot.nibble, Record.slot0, Record.slot1]
  revert m
  decide +kernel

end Sys2Proof
end

