-- ==== Sys2Proof/Laws/State.lean ====
section
/-!
SUPPORT. Sys2Proof/Laws/State.lean: one lemma for each field of State and each update, true by rfl, so that no proof
unfolds a record update; the parameters at their defaults; and the laws of the register file.
-/

namespace Sys2Proof

/-! ### The parameters at their defaults -/

@[simp] theorem Config.parameters_opcodeMap : Config.parameters.opcodeMap = opcodeMap := rfl
@[simp] theorem Config.parameters_faultCodeMap : Config.parameters.faultCodeMap = Config.faultCodeMap := rfl
@[simp] theorem Config.parameters_internalFaultCode : Config.parameters.internalFaultCode = .codeError := rfl
@[simp] theorem Config.parameters_registerIndex : Config.parameters.registerIndex = Config.registerIndex := rfl
@[simp] theorem Config.parameters_numRegs : Config.parameters.numRegs = 5 := rfl
@[simp] theorem Config.parameters_quotient : Config.parameters.quotient = Config.quotient := rfl
@[simp] theorem Config.parameters_compareOverflow : Config.parameters.compareOverflow = Config.compareOverflow := rfl
@[simp] theorem Config.generalRegisters_default : Config.generalRegisters = [0, 1, 2, 3] := rfl
@[simp] theorem Config.resetRegisters_default (portsReset : Byte) :
    Config.resetRegisters portsReset = [0x00, 0x00, 0x00, 0x00, portsReset] := rfl

@[simp] theorem Reg.index_a : Reg.a.index = 0 := rfl
@[simp] theorem Reg.index_b : Reg.b.index = 1 := rfl
@[simp] theorem Reg.index_c : Reg.c.index = 2 := rfl
@[simp] theorem Reg.index_d : Reg.d.index = 3 := rfl
@[simp] theorem Reg.index_ports : Reg.ports.index = 4 := rfl

/-! ### The register indices, for any parameters (10_state.md R21, R22) -/

theorem Reg.index_lt (r : Reg) (cfg : Config.Parameters) : r.index cfg < cfg.numRegs := cfg.registerIndex_lt r

@[simp] theorem Reg.index_inj {r q : Reg} {cfg : Config.Parameters} : r.index cfg = q.index cfg ↔ r = q :=
  cfg.registerIndex_injective.eq_iff

/-- The general registers are those at the indices of A to D. -/
theorem Config.mem_generalRegisters_iff {i : Nat} {cfg : Config.Parameters} :
    i ∈ Config.generalRegisters cfg ↔ ∃ r : Reg, r ≠ .ports ∧ i = r.index cfg := by
  simp only [Config.generalRegisters, List.mem_insertionSort, List.mem_map, List.mem_cons, List.not_mem_nil, or_false]
  constructor
  · rintro ⟨r, h, rfl⟩
    exact ⟨r, by rintro rfl; simp at h, rfl⟩
  · rintro ⟨r, h, rfl⟩
    exact ⟨r, by cases r <;> simp_all, rfl⟩

/-- There are four of them, whatever the indices (R5). -/
theorem Config.length_generalRegisters (cfg : Config.Parameters) : (Config.generalRegisters cfg).length = 4 :=
  List.length_insertionSort _ _

/-- No register is saved twice. -/
theorem Config.nodup_generalRegisters (cfg : Config.Parameters) : (Config.generalRegisters cfg).Nodup :=
  (List.perm_insertionSort _ _).nodup_iff.2 (List.Nodup.map cfg.registerIndex_injective (by decide))

/-- They stand in ascending index order (R22). -/
theorem Config.pairwise_generalRegisters (cfg : Config.Parameters) :
    (Config.generalRegisters cfg).Pairwise (· ≤ ·) :=
  List.pairwise_insertionSort _ _

@[simp] theorem Config.length_resetRegisters (portsReset : Byte) (cfg : Config.Parameters) :
    (Config.resetRegisters portsReset cfg).length = cfg.numRegs := by
  simp [Config.resetRegisters]

end Sys2Proof

namespace Sys2Proof.Machine

/-! ### setReg -/

@[simp] theorem State.setReg_regs (s : State) (r : Nat) (v : Byte) : (s.setReg r v).regs = s.regs.set r v := rfl
@[simp] theorem State.setReg_ip (s : State) (r : Nat) (v : Byte) : (s.setReg r v).ip = s.ip := rfl
@[simp] theorem State.setReg_sp (s : State) (r : Nat) (v : Byte) : (s.setReg r v).sp = s.sp := rfl
@[simp] theorem State.setReg_zero (s : State) (r : Nat) (v : Byte) : (s.setReg r v).zero = s.zero := rfl
@[simp] theorem State.setReg_overflow (s : State) (r : Nat) (v : Byte) : (s.setReg r v).overflow = s.overflow := rfl
@[simp] theorem State.setReg_carry (s : State) (r : Nat) (v : Byte) : (s.setReg r v).carry = s.carry := rfl
@[simp] theorem State.setReg_fault (s : State) (r : Nat) (v : Byte) : (s.setReg r v).fault = s.fault := rfl
@[simp] theorem State.setReg_wait (s : State) (r : Nat) (v : Byte) : (s.setReg r v).wait = s.wait := rfl
@[simp] theorem State.setReg_faultCode (s : State) (r : Nat) (v : Byte) : (s.setReg r v).faultCode = s.faultCode := rfl
@[simp] theorem State.setReg_stepReq (s : State) (r : Nat) (v : Byte) : (s.setReg r v).stepReq = s.stepReq := rfl
@[simp] theorem State.setReg_ir (s : State) (r : Nat) (v : Byte) : (s.setReg r v).ir = s.ir := rfl
@[simp] theorem State.setReg_diag (s : State) (r : Nat) (v : Byte) : (s.setReg r v).diag = s.diag := rfl
@[simp] theorem State.setReg_stack (s : State) (r : Nat) (v : Byte) : (s.setReg r v).stack = s.stack := rfl
@[simp] theorem State.setReg_prog (s : State) (r : Nat) (v : Byte) : (s.setReg r v).prog = s.prog := rfl
@[simp] theorem State.setReg_labels (s : State) (r : Nat) (v : Byte) : (s.setReg r v).labels = s.labels := rfl

/-! ### memWrite -/

@[simp] theorem State.memWrite_regs (s : State) (idx : Nat) (v : Byte) : (s.memWrite idx v).regs = s.regs := rfl
@[simp] theorem State.memWrite_ip (s : State) (idx : Nat) (v : Byte) : (s.memWrite idx v).ip = s.ip := rfl
@[simp] theorem State.memWrite_sp (s : State) (idx : Nat) (v : Byte) : (s.memWrite idx v).sp = s.sp := rfl
@[simp] theorem State.memWrite_zero (s : State) (idx : Nat) (v : Byte) : (s.memWrite idx v).zero = s.zero := rfl
@[simp] theorem State.memWrite_overflow (s : State) (idx : Nat) (v : Byte) : (s.memWrite idx v).overflow = s.overflow := rfl
@[simp] theorem State.memWrite_carry (s : State) (idx : Nat) (v : Byte) : (s.memWrite idx v).carry = s.carry := rfl
@[simp] theorem State.memWrite_fault (s : State) (idx : Nat) (v : Byte) : (s.memWrite idx v).fault = s.fault := rfl
@[simp] theorem State.memWrite_wait (s : State) (idx : Nat) (v : Byte) : (s.memWrite idx v).wait = s.wait := rfl
@[simp] theorem State.memWrite_faultCode (s : State) (idx : Nat) (v : Byte) : (s.memWrite idx v).faultCode = s.faultCode := rfl
@[simp] theorem State.memWrite_stepReq (s : State) (idx : Nat) (v : Byte) : (s.memWrite idx v).stepReq = s.stepReq := rfl
@[simp] theorem State.memWrite_ir (s : State) (idx : Nat) (v : Byte) : (s.memWrite idx v).ir = s.ir := rfl
@[simp] theorem State.memWrite_diag (s : State) (idx : Nat) (v : Byte) : (s.memWrite idx v).diag = s.diag := rfl
@[simp] theorem State.memWrite_stack (s : State) (idx : Nat) (v : Byte) : (s.memWrite idx v).stack = memStore s.stack idx v := rfl
@[simp] theorem State.memWrite_prog (s : State) (idx : Nat) (v : Byte) : (s.memWrite idx v).prog = s.prog := rfl
@[simp] theorem State.memWrite_labels (s : State) (idx : Nat) (v : Byte) : (s.memWrite idx v).labels = s.labels := rfl

/-! ### setIp -/

@[simp] theorem State.setIp_regs (s : State) (a : SlotAddr) : (s.setIp a).regs = s.regs := rfl
@[simp] theorem State.setIp_ip (s : State) (a : SlotAddr) : (s.setIp a).ip = a := rfl
@[simp] theorem State.setIp_sp (s : State) (a : SlotAddr) : (s.setIp a).sp = s.sp := rfl
@[simp] theorem State.setIp_zero (s : State) (a : SlotAddr) : (s.setIp a).zero = s.zero := rfl
@[simp] theorem State.setIp_overflow (s : State) (a : SlotAddr) : (s.setIp a).overflow = s.overflow := rfl
@[simp] theorem State.setIp_carry (s : State) (a : SlotAddr) : (s.setIp a).carry = s.carry := rfl
@[simp] theorem State.setIp_fault (s : State) (a : SlotAddr) : (s.setIp a).fault = s.fault := rfl
@[simp] theorem State.setIp_wait (s : State) (a : SlotAddr) : (s.setIp a).wait = s.wait := rfl
@[simp] theorem State.setIp_faultCode (s : State) (a : SlotAddr) : (s.setIp a).faultCode = s.faultCode := rfl
@[simp] theorem State.setIp_stepReq (s : State) (a : SlotAddr) : (s.setIp a).stepReq = s.stepReq := rfl
@[simp] theorem State.setIp_ir (s : State) (a : SlotAddr) : (s.setIp a).ir = s.ir := rfl
@[simp] theorem State.setIp_diag (s : State) (a : SlotAddr) : (s.setIp a).diag = s.diag := rfl
@[simp] theorem State.setIp_stack (s : State) (a : SlotAddr) : (s.setIp a).stack = s.stack := rfl
@[simp] theorem State.setIp_prog (s : State) (a : SlotAddr) : (s.setIp a).prog = s.prog := rfl
@[simp] theorem State.setIp_labels (s : State) (a : SlotAddr) : (s.setIp a).labels = s.labels := rfl

/-! ### setSp -/

@[simp] theorem State.setSp_regs (s : State) (v : Byte) : (s.setSp v).regs = s.regs := rfl
@[simp] theorem State.setSp_ip (s : State) (v : Byte) : (s.setSp v).ip = s.ip := rfl
@[simp] theorem State.setSp_sp (s : State) (v : Byte) : (s.setSp v).sp = v := rfl
@[simp] theorem State.setSp_zero (s : State) (v : Byte) : (s.setSp v).zero = s.zero := rfl
@[simp] theorem State.setSp_overflow (s : State) (v : Byte) : (s.setSp v).overflow = s.overflow := rfl
@[simp] theorem State.setSp_carry (s : State) (v : Byte) : (s.setSp v).carry = s.carry := rfl
@[simp] theorem State.setSp_fault (s : State) (v : Byte) : (s.setSp v).fault = s.fault := rfl
@[simp] theorem State.setSp_wait (s : State) (v : Byte) : (s.setSp v).wait = s.wait := rfl
@[simp] theorem State.setSp_faultCode (s : State) (v : Byte) : (s.setSp v).faultCode = s.faultCode := rfl
@[simp] theorem State.setSp_stepReq (s : State) (v : Byte) : (s.setSp v).stepReq = s.stepReq := rfl
@[simp] theorem State.setSp_ir (s : State) (v : Byte) : (s.setSp v).ir = s.ir := rfl
@[simp] theorem State.setSp_diag (s : State) (v : Byte) : (s.setSp v).diag = s.diag := rfl
@[simp] theorem State.setSp_stack (s : State) (v : Byte) : (s.setSp v).stack = s.stack := rfl
@[simp] theorem State.setSp_prog (s : State) (v : Byte) : (s.setSp v).prog = s.prog := rfl
@[simp] theorem State.setSp_labels (s : State) (v : Byte) : (s.setSp v).labels = s.labels := rfl

/-! ### setZero -/

@[simp] theorem State.setZero_regs (s : State) (b : Bool) : (s.setZero b).regs = s.regs := rfl
@[simp] theorem State.setZero_ip (s : State) (b : Bool) : (s.setZero b).ip = s.ip := rfl
@[simp] theorem State.setZero_sp (s : State) (b : Bool) : (s.setZero b).sp = s.sp := rfl
@[simp] theorem State.setZero_zero (s : State) (b : Bool) : (s.setZero b).zero = b := rfl
@[simp] theorem State.setZero_overflow (s : State) (b : Bool) : (s.setZero b).overflow = s.overflow := rfl
@[simp] theorem State.setZero_carry (s : State) (b : Bool) : (s.setZero b).carry = s.carry := rfl
@[simp] theorem State.setZero_fault (s : State) (b : Bool) : (s.setZero b).fault = s.fault := rfl
@[simp] theorem State.setZero_wait (s : State) (b : Bool) : (s.setZero b).wait = s.wait := rfl
@[simp] theorem State.setZero_faultCode (s : State) (b : Bool) : (s.setZero b).faultCode = s.faultCode := rfl
@[simp] theorem State.setZero_stepReq (s : State) (b : Bool) : (s.setZero b).stepReq = s.stepReq := rfl
@[simp] theorem State.setZero_ir (s : State) (b : Bool) : (s.setZero b).ir = s.ir := rfl
@[simp] theorem State.setZero_diag (s : State) (b : Bool) : (s.setZero b).diag = s.diag := rfl
@[simp] theorem State.setZero_stack (s : State) (b : Bool) : (s.setZero b).stack = s.stack := rfl
@[simp] theorem State.setZero_prog (s : State) (b : Bool) : (s.setZero b).prog = s.prog := rfl
@[simp] theorem State.setZero_labels (s : State) (b : Bool) : (s.setZero b).labels = s.labels := rfl

/-! ### setOverflow -/

@[simp] theorem State.setOverflow_regs (s : State) (b : Bool) : (s.setOverflow b).regs = s.regs := rfl
@[simp] theorem State.setOverflow_ip (s : State) (b : Bool) : (s.setOverflow b).ip = s.ip := rfl
@[simp] theorem State.setOverflow_sp (s : State) (b : Bool) : (s.setOverflow b).sp = s.sp := rfl
@[simp] theorem State.setOverflow_zero (s : State) (b : Bool) : (s.setOverflow b).zero = s.zero := rfl
@[simp] theorem State.setOverflow_overflow (s : State) (b : Bool) : (s.setOverflow b).overflow = b := rfl
@[simp] theorem State.setOverflow_carry (s : State) (b : Bool) : (s.setOverflow b).carry = s.carry := rfl
@[simp] theorem State.setOverflow_fault (s : State) (b : Bool) : (s.setOverflow b).fault = s.fault := rfl
@[simp] theorem State.setOverflow_wait (s : State) (b : Bool) : (s.setOverflow b).wait = s.wait := rfl
@[simp] theorem State.setOverflow_faultCode (s : State) (b : Bool) : (s.setOverflow b).faultCode = s.faultCode := rfl
@[simp] theorem State.setOverflow_stepReq (s : State) (b : Bool) : (s.setOverflow b).stepReq = s.stepReq := rfl
@[simp] theorem State.setOverflow_ir (s : State) (b : Bool) : (s.setOverflow b).ir = s.ir := rfl
@[simp] theorem State.setOverflow_diag (s : State) (b : Bool) : (s.setOverflow b).diag = s.diag := rfl
@[simp] theorem State.setOverflow_stack (s : State) (b : Bool) : (s.setOverflow b).stack = s.stack := rfl
@[simp] theorem State.setOverflow_prog (s : State) (b : Bool) : (s.setOverflow b).prog = s.prog := rfl
@[simp] theorem State.setOverflow_labels (s : State) (b : Bool) : (s.setOverflow b).labels = s.labels := rfl

/-! ### setCarry -/

@[simp] theorem State.setCarry_regs (s : State) (b : Bool) : (s.setCarry b).regs = s.regs := rfl
@[simp] theorem State.setCarry_ip (s : State) (b : Bool) : (s.setCarry b).ip = s.ip := rfl
@[simp] theorem State.setCarry_sp (s : State) (b : Bool) : (s.setCarry b).sp = s.sp := rfl
@[simp] theorem State.setCarry_zero (s : State) (b : Bool) : (s.setCarry b).zero = s.zero := rfl
@[simp] theorem State.setCarry_overflow (s : State) (b : Bool) : (s.setCarry b).overflow = s.overflow := rfl
@[simp] theorem State.setCarry_carry (s : State) (b : Bool) : (s.setCarry b).carry = b := rfl
@[simp] theorem State.setCarry_fault (s : State) (b : Bool) : (s.setCarry b).fault = s.fault := rfl
@[simp] theorem State.setCarry_wait (s : State) (b : Bool) : (s.setCarry b).wait = s.wait := rfl
@[simp] theorem State.setCarry_faultCode (s : State) (b : Bool) : (s.setCarry b).faultCode = s.faultCode := rfl
@[simp] theorem State.setCarry_stepReq (s : State) (b : Bool) : (s.setCarry b).stepReq = s.stepReq := rfl
@[simp] theorem State.setCarry_ir (s : State) (b : Bool) : (s.setCarry b).ir = s.ir := rfl
@[simp] theorem State.setCarry_diag (s : State) (b : Bool) : (s.setCarry b).diag = s.diag := rfl
@[simp] theorem State.setCarry_stack (s : State) (b : Bool) : (s.setCarry b).stack = s.stack := rfl
@[simp] theorem State.setCarry_prog (s : State) (b : Bool) : (s.setCarry b).prog = s.prog := rfl
@[simp] theorem State.setCarry_labels (s : State) (b : Bool) : (s.setCarry b).labels = s.labels := rfl

/-! ### setWait -/

@[simp] theorem State.setWait_regs (s : State) (b : Bool) : (s.setWait b).regs = s.regs := rfl
@[simp] theorem State.setWait_ip (s : State) (b : Bool) : (s.setWait b).ip = s.ip := rfl
@[simp] theorem State.setWait_sp (s : State) (b : Bool) : (s.setWait b).sp = s.sp := rfl
@[simp] theorem State.setWait_zero (s : State) (b : Bool) : (s.setWait b).zero = s.zero := rfl
@[simp] theorem State.setWait_overflow (s : State) (b : Bool) : (s.setWait b).overflow = s.overflow := rfl
@[simp] theorem State.setWait_carry (s : State) (b : Bool) : (s.setWait b).carry = s.carry := rfl
@[simp] theorem State.setWait_fault (s : State) (b : Bool) : (s.setWait b).fault = s.fault := rfl
@[simp] theorem State.setWait_wait (s : State) (b : Bool) : (s.setWait b).wait = b := rfl
@[simp] theorem State.setWait_faultCode (s : State) (b : Bool) : (s.setWait b).faultCode = s.faultCode := rfl
@[simp] theorem State.setWait_stepReq (s : State) (b : Bool) : (s.setWait b).stepReq = s.stepReq := rfl
@[simp] theorem State.setWait_ir (s : State) (b : Bool) : (s.setWait b).ir = s.ir := rfl
@[simp] theorem State.setWait_diag (s : State) (b : Bool) : (s.setWait b).diag = s.diag := rfl
@[simp] theorem State.setWait_stack (s : State) (b : Bool) : (s.setWait b).stack = s.stack := rfl
@[simp] theorem State.setWait_prog (s : State) (b : Bool) : (s.setWait b).prog = s.prog := rfl
@[simp] theorem State.setWait_labels (s : State) (b : Bool) : (s.setWait b).labels = s.labels := rfl

/-! ### raise -/

@[simp] theorem State.raise_regs (s : State) (t : Trap) (cfg : Config.Parameters) :
    (s.raise t cfg).regs = s.regs := rfl
@[simp] theorem State.raise_ip (s : State) (t : Trap) (cfg : Config.Parameters) :
    (s.raise t cfg).ip = s.ip := rfl
@[simp] theorem State.raise_sp (s : State) (t : Trap) (cfg : Config.Parameters) :
    (s.raise t cfg).sp = s.sp := rfl
@[simp] theorem State.raise_zero (s : State) (t : Trap) (cfg : Config.Parameters) :
    (s.raise t cfg).zero = s.zero := rfl
@[simp] theorem State.raise_overflow (s : State) (t : Trap) (cfg : Config.Parameters) :
    (s.raise t cfg).overflow = s.overflow := rfl
@[simp] theorem State.raise_carry (s : State) (t : Trap) (cfg : Config.Parameters) :
    (s.raise t cfg).carry = s.carry := rfl
@[simp] theorem State.raise_fault (s : State) (t : Trap) (cfg : Config.Parameters) :
    (s.raise t cfg).fault = true := rfl
@[simp] theorem State.raise_wait (s : State) (t : Trap) (cfg : Config.Parameters) :
    (s.raise t cfg).wait = s.wait := rfl
@[simp] theorem State.raise_faultCode (s : State) (t : Trap) (cfg : Config.Parameters) :
    (s.raise t cfg).faultCode = cfg.faultCodeMap (t.faultCode cfg) := rfl
@[simp] theorem State.raise_stepReq (s : State) (t : Trap) (cfg : Config.Parameters) :
    (s.raise t cfg).stepReq = s.stepReq := rfl
@[simp] theorem State.raise_ir (s : State) (t : Trap) (cfg : Config.Parameters) :
    (s.raise t cfg).ir = s.ir := rfl
@[simp] theorem State.raise_diag (s : State) (t : Trap) (cfg : Config.Parameters) :
    (s.raise t cfg).diag = t.diagAfter s := rfl
@[simp] theorem State.raise_stack (s : State) (t : Trap) (cfg : Config.Parameters) :
    (s.raise t cfg).stack = s.stack := rfl
@[simp] theorem State.raise_prog (s : State) (t : Trap) (cfg : Config.Parameters) :
    (s.raise t cfg).prog = s.prog := rfl
@[simp] theorem State.raise_labels (s : State) (t : Trap) (cfg : Config.Parameters) :
    (s.raise t cfg).labels = s.labels := rfl

@[simp] theorem Trap.faultCode_code (c : FaultCode) (cfg : Config.Parameters) : (Trap.code c).faultCode cfg = c := rfl
@[simp] theorem Trap.faultCode_internal (cfg : Config.Parameters) : Trap.internal.faultCode cfg = cfg.internalFaultCode := rfl
@[simp] theorem Trap.faultCode_labelDestination (cfg : Config.Parameters) :
    Trap.labelDestination.faultCode cfg = .codeError := rfl

/-! ### writeArith -/

@[simp] theorem State.writeArith_regs (s : State) (r : Nat) (z : Int) : (s.writeArith r z).regs = s.regs.set r (result z) := rfl
@[simp] theorem State.writeArith_ip (s : State) (r : Nat) (z : Int) : (s.writeArith r z).ip = s.ip := rfl
@[simp] theorem State.writeArith_sp (s : State) (r : Nat) (z : Int) : (s.writeArith r z).sp = s.sp := rfl
@[simp] theorem State.writeArith_zero (s : State) (r : Nat) (z : Int) : (s.writeArith r z).zero = zeroOf z := rfl
@[simp] theorem State.writeArith_overflow (s : State) (r : Nat) (z : Int) : (s.writeArith r z).overflow = ovfOf z := rfl
@[simp] theorem State.writeArith_carry (s : State) (r : Nat) (z : Int) : (s.writeArith r z).carry = s.carry := rfl
@[simp] theorem State.writeArith_fault (s : State) (r : Nat) (z : Int) : (s.writeArith r z).fault = s.fault := rfl
@[simp] theorem State.writeArith_wait (s : State) (r : Nat) (z : Int) : (s.writeArith r z).wait = s.wait := rfl
@[simp] theorem State.writeArith_faultCode (s : State) (r : Nat) (z : Int) : (s.writeArith r z).faultCode = s.faultCode := rfl
@[simp] theorem State.writeArith_stepReq (s : State) (r : Nat) (z : Int) : (s.writeArith r z).stepReq = s.stepReq := rfl
@[simp] theorem State.writeArith_ir (s : State) (r : Nat) (z : Int) : (s.writeArith r z).ir = s.ir := rfl
@[simp] theorem State.writeArith_diag (s : State) (r : Nat) (z : Int) : (s.writeArith r z).diag = s.diag := rfl
@[simp] theorem State.writeArith_stack (s : State) (r : Nat) (z : Int) : (s.writeArith r z).stack = s.stack := rfl
@[simp] theorem State.writeArith_prog (s : State) (r : Nat) (z : Int) : (s.writeArith r z).prog = s.prog := rfl
@[simp] theorem State.writeArith_labels (s : State) (r : Nat) (z : Int) : (s.writeArith r z).labels = s.labels := rfl

/-! ### writeLogic -/

@[simp] theorem State.writeLogic_regs (s : State) (r : Nat) (v : Byte) : (s.writeLogic r v).regs = s.regs.set r v := rfl
@[simp] theorem State.writeLogic_ip (s : State) (r : Nat) (v : Byte) : (s.writeLogic r v).ip = s.ip := rfl
@[simp] theorem State.writeLogic_sp (s : State) (r : Nat) (v : Byte) : (s.writeLogic r v).sp = s.sp := rfl
@[simp] theorem State.writeLogic_zero (s : State) (r : Nat) (v : Byte) : (s.writeLogic r v).zero = (v == 0x00) := rfl
@[simp] theorem State.writeLogic_overflow (s : State) (r : Nat) (v : Byte) : (s.writeLogic r v).overflow = s.overflow := rfl
@[simp] theorem State.writeLogic_carry (s : State) (r : Nat) (v : Byte) : (s.writeLogic r v).carry = s.carry := rfl
@[simp] theorem State.writeLogic_fault (s : State) (r : Nat) (v : Byte) : (s.writeLogic r v).fault = s.fault := rfl
@[simp] theorem State.writeLogic_wait (s : State) (r : Nat) (v : Byte) : (s.writeLogic r v).wait = s.wait := rfl
@[simp] theorem State.writeLogic_faultCode (s : State) (r : Nat) (v : Byte) : (s.writeLogic r v).faultCode = s.faultCode := rfl
@[simp] theorem State.writeLogic_stepReq (s : State) (r : Nat) (v : Byte) : (s.writeLogic r v).stepReq = s.stepReq := rfl
@[simp] theorem State.writeLogic_ir (s : State) (r : Nat) (v : Byte) : (s.writeLogic r v).ir = s.ir := rfl
@[simp] theorem State.writeLogic_diag (s : State) (r : Nat) (v : Byte) : (s.writeLogic r v).diag = s.diag := rfl
@[simp] theorem State.writeLogic_stack (s : State) (r : Nat) (v : Byte) : (s.writeLogic r v).stack = s.stack := rfl
@[simp] theorem State.writeLogic_prog (s : State) (r : Nat) (v : Byte) : (s.writeLogic r v).prog = s.prog := rfl
@[simp] theorem State.writeLogic_labels (s : State) (r : Nat) (v : Byte) : (s.writeLogic r v).labels = s.labels := rfl

/-! ### prepared -/

@[simp] theorem State.prepared_regs (s : State) : (s.prepared).regs = s.regs := rfl
@[simp] theorem State.prepared_ip (s : State) : (s.prepared).ip = clampIp s.ip := rfl
@[simp] theorem State.prepared_sp (s : State) : (s.prepared).sp = s.sp := rfl
@[simp] theorem State.prepared_zero (s : State) : (s.prepared).zero = s.zero := rfl
@[simp] theorem State.prepared_overflow (s : State) : (s.prepared).overflow = s.overflow := rfl
@[simp] theorem State.prepared_carry (s : State) : (s.prepared).carry = s.carry := rfl
@[simp] theorem State.prepared_fault (s : State) : (s.prepared).fault = s.fault := rfl
@[simp] theorem State.prepared_wait (s : State) : (s.prepared).wait = s.wait := rfl
@[simp] theorem State.prepared_faultCode (s : State) : (s.prepared).faultCode = s.faultCode := rfl
@[simp] theorem State.prepared_stepReq (s : State) : (s.prepared).stepReq = false := rfl
@[simp] theorem State.prepared_ir (s : State) : (s.prepared).ir = s.ir := rfl
@[simp] theorem State.prepared_diag (s : State) : (s.prepared).diag = s.diag := rfl
@[simp] theorem State.prepared_stack (s : State) : (s.prepared).stack = s.stack := rfl
@[simp] theorem State.prepared_prog (s : State) : (s.prepared).prog = s.prog := rfl
@[simp] theorem State.prepared_labels (s : State) : (s.prepared).labels = s.labels := rfl

/-! ### fetched -/

@[simp] theorem State.fetched_regs (s : State) (r : Record) : (s.fetched r).regs = s.regs := rfl
@[simp] theorem State.fetched_ip (s : State) (r : Record) : (s.fetched r).ip = trunc16 ((u16 s.ip : Int) + 1) := rfl
@[simp] theorem State.fetched_sp (s : State) (r : Record) : (s.fetched r).sp = s.sp := rfl
@[simp] theorem State.fetched_zero (s : State) (r : Record) : (s.fetched r).zero = s.zero := rfl
@[simp] theorem State.fetched_overflow (s : State) (r : Record) : (s.fetched r).overflow = s.overflow := rfl
@[simp] theorem State.fetched_carry (s : State) (r : Record) : (s.fetched r).carry = s.carry := rfl
@[simp] theorem State.fetched_fault (s : State) (r : Record) : (s.fetched r).fault = s.fault := rfl
@[simp] theorem State.fetched_wait (s : State) (r : Record) : (s.fetched r).wait = s.wait := rfl
@[simp] theorem State.fetched_faultCode (s : State) (r : Record) : (s.fetched r).faultCode = s.faultCode := rfl
@[simp] theorem State.fetched_stepReq (s : State) (r : Record) : (s.fetched r).stepReq = s.stepReq := rfl
@[simp] theorem State.fetched_ir (s : State) (r : Record) : (s.fetched r).ir = some r := rfl
@[simp] theorem State.fetched_diag (s : State) (r : Record) : (s.fetched r).diag = s.diag := rfl
@[simp] theorem State.fetched_stack (s : State) (r : Record) : (s.fetched r).stack = s.stack := rfl
@[simp] theorem State.fetched_prog (s : State) (r : Record) : (s.fetched r).prog = s.prog := rfl
@[simp] theorem State.fetched_labels (s : State) (r : Record) : (s.fetched r).labels = s.labels := rfl

/-! ### The register file -/

@[simp] theorem State.length_regs_setReg (s : State) (r : Nat) (v : Byte) :
    (s.setReg r v).regs.length = s.regs.length := List.length_set

/-- A write to a register of the file is read back. -/
theorem State.reg_setReg_same (s : State) {r : Nat} (v : Byte) (h : r < s.regs.length) : (s.setReg r v).reg r = v := by
  simp [State.reg, State.setReg, h]

/-- A write leaves every other register alone. -/
theorem State.reg_setReg_other (s : State) {r q : Nat} (v : Byte) (h : q ≠ r) : (s.setReg r v).reg q = s.reg q := by
  simp [State.reg, State.setReg, h.symm]

/-- Two register files of one length that read alike are the same data. -/
theorem State.regs_ext {s t : State} (hlen : s.regs.length = t.regs.length)
    (h : ∀ i, i < s.regs.length → s.reg i = t.reg i) : s.regs = t.regs := by
  refine List.ext_getElem hlen fun i hs ht => ?_
  simpa [State.reg, List.getElem?_eq_getElem, hs, ht] using h i hs

theorem State.reg_eq_of_regs_eq {s t : State} (h : t.regs = s.regs) (r : Nat) : t.reg r = s.reg r := by
  simp only [State.reg, h]

theorem State.memRead_eq_of_stack_eq {s t : State} (h : t.stack = s.stack) (idx : Nat) :
    t.memRead idx = s.memRead idx := by
  simp only [State.memRead, h]

end Sys2Proof.Machine
end

