-- ==== Sys2Proof/Laws/Memory.lean ====
section
/-!
SUPPORT. Sys2Proof/Laws/Memory.lean: the laws of the stack/data memory (20_memory.md R67): a read gives the last byte
written, a write leaves every other cell alone, and every operation keeps the canonical form.
-/

namespace Sys2Proof.Machine

theorem Memory.wfFrom_cons {lo i : Nat} {v : Byte} {rest : Memory} :
    Memory.wfFrom lo ((i, v) :: rest) = true ↔
      lo ≤ i ∧ i < Config.stackSize ∧ v ≠ Config.unwrittenCell ∧ Memory.wfFrom (i + 1) rest = true := by
  simp [Memory.wfFrom, and_assoc]

theorem Memory.wfFrom_mono {lo lo' : Nat} (h : lo ≤ lo') : ∀ {m : Memory}, Memory.wfFrom lo' m = true →
    Memory.wfFrom lo m = true
  | [], _ => rfl
  | (i, v) :: rest, hm => by
    rw [Memory.wfFrom_cons] at hm ⊢
    exact ⟨h.trans hm.1, hm.2⟩

/-- An index below every listed one reads as an unwritten cell. -/
theorem memLookup_below {lo idx : Nat} (h : idx < lo) : ∀ {m : Memory}, Memory.wfFrom lo m = true →
    memLookup m idx = Config.unwrittenCell
  | [], _ => rfl
  | (i, v) :: rest, hm => by
    rw [Memory.wfFrom_cons] at hm
    have hi : i ≠ idx := by omega
    simp only [memLookup, hi, if_false]
    exact memLookup_below (by omega) hm.2.2.2

/-- A write leaves every other cell alone. -/
theorem memLookup_memStore_other {idx j : Nat} (v : Byte) (h : j ≠ idx) : ∀ m : Memory,
    memLookup (memStore m idx v) j = memLookup m j
  | [] => by
    unfold memStore
    split <;> simp [memLookup, h.symm]
  | (i, w) :: rest => by
    have ih := memLookup_memStore_other v h rest
    have h' : idx ≠ j := h.symm
    unfold memStore
    split_ifs with _ _ he <;> simp_all [memLookup]

/-- A read after a write to the same cell gives the byte written. -/
theorem memLookup_memStore_same {idx lo : Nat} (v : Byte) : ∀ {m : Memory}, Memory.wfFrom lo m = true →
    memLookup (memStore m idx v) idx = v
  | [], _ => by
    unfold memStore
    split <;> simp_all [memLookup]
  | (i, w) :: rest, hm => by
    rw [Memory.wfFrom_cons] at hm
    unfold memStore
    split_ifs with h1 h2 h3 h4
    · simp only [memLookup, show i ≠ idx by omega, if_false, h2]
      exact memLookup_below (by omega) hm.2.2.2
    · simp [memLookup]
    · subst h3; rw [h4]
      exact memLookup_below (by omega) hm.2.2.2
    · simp [memLookup]
    · simp only [memLookup, h3, if_false]
      exact memLookup_memStore_same v hm.2.2.2

/-- A write inside the memory keeps the canonical form. -/
theorem Memory.wfFrom_memStore {lo idx : Nat} (v : Byte) (hlo : lo ≤ idx) (hidx : idx < Config.stackSize) :
    ∀ {m : Memory}, Memory.wfFrom lo m = true → Memory.wfFrom lo (memStore m idx v) = true
  | [], _ => by
    unfold memStore
    split
    · rfl
    · rw [Memory.wfFrom_cons]; exact ⟨hlo, hidx, ‹_›, rfl⟩
  | (i, w) :: rest, hm => by
    have hm' := hm
    rw [Memory.wfFrom_cons] at hm'
    unfold memStore
    split_ifs with h1 h2 h3 h4
    · exact hm
    · rw [Memory.wfFrom_cons]
      exact ⟨hlo, hidx, h2, Memory.wfFrom_cons.2 ⟨by omega, hm'.2⟩⟩
    · exact Memory.wfFrom_mono (by omega) hm'.2.2.2
    · rw [Memory.wfFrom_cons]
      exact ⟨hlo, hidx, h4, h3 ▸ hm'.2.2.2⟩
    · rw [Memory.wfFrom_cons]
      exact ⟨hm'.1, hm'.2.1, hm'.2.2.1, Memory.wfFrom_memStore v (by omega) hidx hm'.2.2.2⟩

theorem Memory.wf_memStore {m : Memory} {idx : Nat} (v : Byte) (hidx : idx < Config.stackSize) (hm : m.wf = true) :
    Memory.wf (memStore m idx v) = true :=
  Memory.wfFrom_memStore v (Nat.zero_le _) hidx hm

/-- Two memories in canonical form that read alike are the same data. -/
theorem Memory.ext_of_wfFrom : ∀ {m n : Memory} {lo : Nat}, Memory.wfFrom lo m = true → Memory.wfFrom lo n = true →
    (∀ idx, memLookup m idx = memLookup n idx) → m = n
  | [], [], _, _, _, _ => rfl
  | [], (j, w) :: n, _, _, hn, h => by
    rw [Memory.wfFrom_cons] at hn
    exact absurd (by simpa [memLookup] using (h j).symm) hn.2.2.1
  | (i, v) :: m, [], _, hm, _, h => by
    rw [Memory.wfFrom_cons] at hm
    exact absurd (by simpa [memLookup] using h i) hm.2.2.1
  | (i, v) :: m, (j, w) :: n, _, hm, hn, h => by
    have hi := Memory.wfFrom_cons.1 hm
    have hj := Memory.wfFrom_cons.1 hn
    have hij : i = j := by
      by_contra hne
      rcases Nat.lt_or_gt_of_ne hne with hlt | hgt
      · have hh := h i
        simp only [memLookup, if_true, show j ≠ i by omega, if_false,
          memLookup_below (show i < j + 1 by omega) hj.2.2.2] at hh
        exact hi.2.2.1 hh
      · have hh := h j
        simp only [memLookup, if_true, show i ≠ j by omega, if_false,
          memLookup_below (show j < i + 1 by omega) hi.2.2.2] at hh
        exact hj.2.2.1 hh.symm
    subst hij
    have hv : v = w := by simpa [memLookup] using h i
    subst hv
    have hrest : m = n := Memory.ext_of_wfFrom hi.2.2.2 hj.2.2.2 fun idx => by
      by_cases he : i = idx
      · subst he
        rw [memLookup_below (Nat.lt_succ_self i) hi.2.2.2, memLookup_below (Nat.lt_succ_self i) hj.2.2.2]
      · simpa [memLookup, he] using h idx
    rw [hrest]

/-- The memory a snapshot's bytes give is in canonical form. -/
theorem Memory.wfFrom_memoryOfBytes : ∀ (bytes : List Byte) (lo : Nat), lo + bytes.length ≤ Config.stackSize →
    Memory.wfFrom lo (memoryOfBytes lo bytes) = true
  | [], _, _ => rfl
  | v :: vs, lo, h => by
    have ih := Memory.wfFrom_memoryOfBytes vs (lo + 1) (by simp only [List.length_cons] at h; omega)
    unfold memoryOfBytes
    split_ifs with hv
    · exact Memory.wfFrom_mono (Nat.le_succ lo) ih
    · rw [Memory.wfFrom_cons]
      exact ⟨Nat.le_refl lo, by simp only [List.length_cons] at h; omega, hv, ih⟩

/-- The memory a snapshot's bytes give reads as those bytes. -/
theorem memLookup_memoryOfBytes : ∀ (bytes : List Byte) (lo idx : Nat), lo + bytes.length ≤ Config.stackSize →
    memLookup (memoryOfBytes lo bytes) (lo + idx) = bytes.getD idx Config.unwrittenCell
  | [], _, _, _ => rfl
  | v :: vs, lo, idx, h => by
    have hlen : lo + 1 + vs.length ≤ Config.stackSize := by simp only [List.length_cons] at h; omega
    cases idx with
    | zero =>
      unfold memoryOfBytes
      split_ifs with hv
      · simpa [hv] using memLookup_below (Nat.lt_succ_self lo) (Memory.wfFrom_memoryOfBytes vs (lo + 1) hlen)
      · simp [memLookup]
    | succ j =>
      have ih := memLookup_memoryOfBytes vs (lo + 1) j hlen
      have he : lo + (j + 1) = lo + 1 + j := by omega
      unfold memoryOfBytes
      rw [he]
      split_ifs with hv
      · simpa using ih
      · simpa [memLookup, show lo ≠ lo + 1 + j by omega] using ih

/-! ### On the state -/

theorem State.memRead_memWrite_other (s : State) {idx j : Nat} (v : Byte) (h : j ≠ idx) :
    (s.memWrite idx v).memRead j = s.memRead j :=
  memLookup_memStore_other v h s.stack

theorem State.memRead_memWrite_same (s : State) (idx : Nat) (v : Byte) (hs : s.stack.wf = true) :
    (s.memWrite idx v).memRead idx = v :=
  memLookup_memStore_same v hs

/-- What the invariant says. -/
theorem State.inv_iff {s : State} {cfg : Config.Parameters} :
    s.inv cfg = true ↔ u8 s.sp ≤ 64 ∧ s.stack.wf = true ∧ s.regs.length = cfg.numRegs := by
  rw [State.inv, Bool.and_eq_true, Bool.and_eq_true, decide_eq_true_eq, decide_eq_true_eq, and_assoc]
  exact Iff.rfl

end Sys2Proof.Machine
end

