-- ==== Sys2Proof/Laws/Ops.lean ====
section
/-!
SUPPORT. Sys2Proof/Laws/Ops.lean: for each shared operation of Machine/Ops.lean one lemma that says all it can do. Cite
these instead of unfolding the operation.
-/

namespace Sys2Proof.Machine

variable {cfg : Config.Parameters}

/-- Everything an instruction that ends by `conclude` can do. -/
theorem conclude_next_iff {α : Type} {s t : State} {checks : Except Trap α} {k : α → State} :
    conclude cfg s checks k = .next t ↔
      (∃ x, checks = .ok x ∧ t = k x) ∨ (∃ e, checks = .error e ∧ t = s.raise e cfg) := by
  cases checks <;> simp [conclude, eq_comm]

@[simp] theorem conclude_ok {α : Type} (s : State) (x : α) (k : α → State) :
    conclude cfg s (.ok x) k = .next (k x) := rfl

@[simp] theorem conclude_error {α : Type} (s : State) (e : Trap) (k : α → State) :
    conclude cfg s (.error e) k = .next (s.raise e cfg) := rfl

/-- A meaning that ends by `conclude` answers a next state. -/
theorem conclude_answers {α : Type} (s : State) (checks : Except Trap α) (k : α → State) :
    ∃ t, conclude cfg s checks k = .next t := by
  cases checks <;> exact ⟨_, rfl⟩

/-- Taking a fault keeps the invariant. -/
theorem State.inv_raise {s : State} (e : Trap) (h : s.inv cfg = true) : (s.raise e cfg).inv cfg = true := h

/-- A register write keeps the invariant. -/
theorem State.inv_setReg {s : State} (r : Nat) (v : Byte) (h : s.inv cfg = true) : (s.setReg r v).inv cfg = true := by
  rw [State.inv_iff] at *
  simpa using h

/-- A push that succeeds. -/
theorem State.push_ok_iff {s s' : State} {v : Byte} :
    s.push v = .ok s' ↔ u8 s.sp < 64 ∧ s' = (s.memWrite (u8 s.sp) v).setSp (s.sp + 1) := by
  unfold State.push
  split <;> rename_i h <;> simp only [Config.stackSize] at h <;> simp [eq_comm] <;> omega

/-- A push that faults: the stack is full. -/
theorem State.push_error_iff {s : State} {v : Byte} {e : Trap} :
    s.push v = .error e ↔ 64 ≤ u8 s.sp ∧ e = .code .stackOverflow := by
  unfold State.push
  split <;> rename_i h <;> simp only [Config.stackSize] at h <;> simp [eq_comm] <;> omega

/-- A pop that succeeds. -/
theorem State.pop_ok_iff {s s' : State} {v : Byte} :
    s.pop = .ok (v, s') ↔ u8 s.sp ≠ 0 ∧ v = s.memRead (u8 s.sp - 1) ∧ s' = s.setSp (s.sp - 1) := by
  simp only [State.pop]
  split <;> simp_all [eq_comm]

/-- A pop that faults: the stack is empty. -/
theorem State.pop_error_iff {s : State} {e : Trap} :
    s.pop = .error e ↔ u8 s.sp = 0 ∧ e = .code .stackUnderflow := by
  simp only [State.pop]
  split <;> simp_all [eq_comm]

/-- `sp + 1` does not wrap while a push is possible. -/
theorem u8_add_one {v : Byte} (h : u8 v < 64) : u8 (v + 1) = u8 v + 1 := by
  unfold u8 at *
  bv_omega

/-- `sp - 1` does not wrap while a pop is possible. -/
theorem u8_sub_one {v : Byte} (h : u8 v ≠ 0) : u8 (v - 1) = u8 v - 1 := by
  unfold u8 at *
  bv_omega

/-- A push keeps the invariant. -/
theorem State.inv_push {s s' : State} {v : Byte} (hs : s.inv cfg = true) (h : s.push v = .ok s') :
    s'.inv cfg = true := by
  obtain ⟨hsp, rfl⟩ := State.push_ok_iff.1 h
  rw [State.inv_iff] at *
  refine ⟨?_, Memory.wf_memStore v hsp hs.2.1, hs.2.2⟩
  simp only [State.setSp_sp, u8_add_one hsp]
  omega

/-- A pop keeps the invariant. -/
theorem State.inv_pop {s s' : State} {v : Byte} (hs : s.inv cfg = true) (h : s.pop = .ok (v, s')) :
    s'.inv cfg = true := by
  obtain ⟨hsp, -, rfl⟩ := State.pop_ok_iff.1 h
  rw [State.inv_iff] at *
  refine ⟨?_, hs.2⟩
  simp only [State.setSp_sp, u8_sub_one hsp]
  omega

/-- Package the induction of PUSHA once: what every push and the fault keep, the sequence keeps. -/
theorem State.pushAll_induction {P : State → Prop} (hpush : ∀ s s' v, P s → s.push v = .ok s' → P s')
    (hraise : ∀ s, P s → P (s.raise (.code .stackOverflow) cfg)) : ∀ (vs : List Byte) (s : State), P s → P (s.pushAll vs cfg)
  | [], _, hs => hs
  | v :: vs, s, hs => by
    unfold State.pushAll
    split
    · exact State.pushAll_induction hpush hraise vs _ (hpush _ _ _ hs ‹_›)
    · rename_i e he
      obtain ⟨-, rfl⟩ := State.push_error_iff.1 he
      exact hraise s hs

/-- Package the induction of POPA once: what every pop into a register and the fault keep, the sequence keeps. -/
theorem State.popAll_induction {P : State → Prop} {ok : Nat → Prop}
    (hpop : ∀ s s' v r, ok r → P s → s.pop = .ok (v, s') → P (s'.setReg r v))
    (hraise : ∀ s, P s → P (s.raise (.code .stackUnderflow) cfg)) :
    ∀ (rs : List Nat) (s : State), (∀ r ∈ rs, ok r) → P s → P (s.popAll rs cfg)
  | [], _, _, hs => hs
  | r :: rs, s, hr, hs => by
    unfold State.popAll
    split
    · exact State.popAll_induction hpop hraise rs _ (fun q hq => hr q (List.mem_cons_of_mem _ hq))
        (hpop _ _ _ _ (hr r List.mem_cons_self) hs ‹_›)
    · rename_i e he
      obtain ⟨-, rfl⟩ := State.pop_error_iff.1 he
      exact hraise s hs

/-- Everything a sequence of pushes can do at its first byte: push it, or end with the fault. -/
theorem State.pushAll_cons (s : State) (v : Byte) (vs : List Byte) :
    s.pushAll (v :: vs) cfg =
      if u8 s.sp < 64 then ((s.memWrite (u8 s.sp) v).setSp (s.sp + 1)).pushAll vs cfg
      else s.raise (.code .stackOverflow) cfg := by
  rw [State.pushAll]
  split
  · rename_i h
    obtain ⟨hsp, rfl⟩ := State.push_ok_iff.1 h
    rw [if_pos hsp]
  · rename_i h
    obtain ⟨hsp, rfl⟩ := State.push_error_iff.1 h
    rw [if_neg (by omega)]

/-- Everything a sequence of pops can do at its first register: pop into it, or end with the fault. -/
theorem State.popAll_cons (s : State) (r : Nat) (rs : List Nat) :
    s.popAll (r :: rs) cfg =
      if u8 s.sp = 0 then s.raise (.code .stackUnderflow) cfg
      else ((s.setSp (s.sp - 1)).setReg r (s.memRead (u8 s.sp - 1))).popAll rs cfg := by
  rw [State.popAll]
  split
  · rename_i h
    obtain ⟨hsp, rfl, rfl⟩ := State.pop_ok_iff.1 h
    rw [if_neg hsp]
  · rename_i h
    obtain ⟨hsp, rfl⟩ := State.pop_error_iff.1 h
    rw [if_pos hsp]

end Sys2Proof.Machine
end

