-- ==== Sys2Proof/Laws/Operands.lean ====
section
/-!
SUPPORT. Sys2Proof/Laws/Operands.lean: what each function of the operand resolver answers (30_encoding.md R86 to R94).
-/

namespace Sys2Proof.Machine

variable {cfg : Config.Parameters}

/-- A register index is valid exactly when it is below NUM_REGS (R24). -/
theorem validIndex_eq_some_iff {raw : Byte} {r : Nat} :
    Config.validIndex raw cfg = some r ↔ raw.toNat < cfg.numRegs ∧ r = raw.toNat := by
  simp [Config.validIndex, eq_comm]

theorem validIndex_eq_none_iff {raw : Byte} : Config.validIndex raw cfg = none ↔ cfg.numRegs ≤ raw.toNat := by
  simp [Config.validIndex]

/-- `dst` faults only for an invalid index (R93). -/
theorem dst_error_iff {k : Slot} {e : Trap} :
    dst k cfg = .error e ↔ cfg.numRegs ≤ k.raw.toNat ∧ e = .internal := by
  rw [← validIndex_eq_none_iff]
  unfold dst
  cases Config.validIndex k.raw cfg <;> simp [eq_comm]

/-- `dst` answers the index itself (R93). -/
theorem dst_ok_iff {k : Slot} {r : Nat} : dst k cfg = .ok r ↔ k.raw.toNat < cfg.numRegs ∧ r = k.raw.toNat := by
  rw [← validIndex_eq_some_iff]
  unfold dst
  split <;> simp_all

theorem regRead_ok_iff {raw v : Byte} {s : State} :
    regRead raw s cfg = .ok v ↔ raw.toNat < cfg.numRegs ∧ v = s.reg raw.toNat := by
  unfold regRead Config.validIndex
  split <;> simp_all [eq_comm]

theorem regRead_error_iff {raw : Byte} {s : State} {e : Trap} :
    regRead raw s cfg = .error e ↔ cfg.numRegs ≤ raw.toNat ∧ e = .internal := by
  rw [← validIndex_eq_none_iff]
  unfold regRead
  cases Config.validIndex raw cfg <;> simp [eq_comm]

/-- An index that an indirect slot gives is inside the memory (R69, R90). -/
theorem index_lt {k : Slot} {off : Byte} {s : State} {i : Nat} (h : index k off s cfg = .ok i) : i < Config.stackSize := by
  unfold index at h
  split at h
  · cases h
  · simp only at h
    split at h
    · cases h
    · rename_i hr
      cases h
      simp only [Config.stackSize]
      omega

/-- The resolver reads only the registers, the memory, the program and the labels. -/
theorem resolve_congr {k : Slot} {off : Byte} {s t : State} (hr : t.regs = s.regs) (hm : t.stack = s.stack)
    (hp : t.prog = s.prog) (hl : t.labels = s.labels) : resolve k off t cfg = resolve k off s cfg := by
  simp only [resolve, labelValue, slotBase, regRead, index, State.reg, State.memRead, hr, hm, hp, hl]

/-- A target reads only the label table (R94). -/
theorem target_congr {k : Slot} {off : Byte} {s t : State} (hl : t.labels = s.labels) :
    target k off t = target k off s := by
  simp only [target, hl]

theorem target_error {k : Slot} {off : Byte} {s : State} {e : Trap} (h : target k off s = .error e) :
    e = .internal := by
  unfold target at h
  split at h <;> cases h
  rfl

/-- Everything the checks of format D can answer. -/
theorem destInput_ok_iff {s0 : Slot} {off : Byte} {s : State} {r : Nat} {a : Byte} :
    destInput s0 off s cfg = .ok (r, a) ↔ dst s0 cfg = .ok r ∧ resolve s0 off s cfg = .ok a := by
  unfold destInput
  split
  · simp_all
  · split <;> simp_all

/-- Everything the checks of format DS can answer. -/
theorem destInputs_ok_iff {s0 s1 : Slot} {off : Byte} {s : State} {r : Nat} {a b : Byte} :
    destInputs s0 s1 off s cfg = .ok (r, a, b) ↔
      dst s0 cfg = .ok r ∧ resolve s0 off s cfg = .ok a ∧ resolve s1 off s cfg = .ok b := by
  rw [← and_assoc, ← destInput_ok_iff]
  unfold destInputs
  split
  · simp_all
  · split <;> simp_all [and_assoc]

/-- Everything the checks of format SS can answer. -/
theorem sourceInputs_ok_iff {s0 s1 : Slot} {off : Byte} {s : State} {a b : Byte} :
    sourceInputs s0 s1 off s cfg = .ok (a, b) ↔ resolve s0 off s cfg = .ok a ∧ resolve s1 off s cfg = .ok b := by
  unfold sourceInputs
  split
  · simp_all
  · split <;> simp_all

/-- A MOV destination in memory is inside the memory (R170, R69). -/
theorem moveDest_cell_lt {s0 : Slot} {off : Byte} {s : State} {i : Nat} (h : moveDest s0 off s cfg = .ok (.cell i)) :
    s0.indirect = true ∧ index s0 off s cfg = .ok i ∧ i < Config.stackSize := by
  unfold moveDest at h
  split at h
  · split at h
    · cases h
    · split at h
      · cases h
      · rename_i hx
        cases h
        exact ⟨‹s0.indirect = true›, hx, index_lt hx⟩
  · split at h
    · cases h
    · split at h <;> cases h

theorem moveDest_register {s0 : Slot} {off : Byte} {s : State} {r : Nat}
    (h : moveDest s0 off s cfg = .ok (.register r)) : s0.indirect = false ∧ s0.label = false ∧ dst s0 cfg = .ok r := by
  unfold moveDest at h
  split at h
  · split at h
    · cases h
    · split at h <;> cases h
  · split at h
    · cases h
    · split at h
      · cases h
      · cases h
        simp_all

/-- The base of a slot (R86, R90). -/
theorem slotBase_ok_iff {k : Slot} {s : State} {base : Byte} :
    slotBase k s cfg = .ok base ↔
      (k.literal = true ∧ base = k.raw) ∨
        (k.literal = false ∧ k.raw.toNat < cfg.numRegs ∧ base = s.reg k.raw.toNat) := by
  unfold slotBase
  cases k.literal
  · simp [regRead_ok_iff]
  · simp [eq_comm]

/-- A base faults only for an invalid register index (R87). -/
theorem slotBase_error_iff {k : Slot} {s : State} {e : Trap} :
    slotBase k s cfg = .error e ↔ k.literal = false ∧ cfg.numRegs ≤ k.raw.toNat ∧ e = .internal := by
  unfold slotBase
  cases k.literal
  · simp [regRead_error_iff]
  · simp

/-- When an indirect slot gives an index (R90). -/
theorem index_ok_iff {k : Slot} {off : Byte} {s : State} {i : Nat} :
    index k off s cfg = .ok i ↔
      i ≤ 63 ∧ ∃ base, slotBase k s cfg = .ok base ∧ s8 base + slotOffset k off = (i : Int) := by
  unfold index
  cases slotBase k s cfg with
  | error e => simp
  | ok base =>
    simp only [Except.ok.injEq, exists_eq_left']
    split_ifs with h <;> simp <;> omega

/-- When an indirect slot faults (R90): its base does, or its index is outside 0 to 63. -/
theorem index_error_iff {k : Slot} {off : Byte} {s : State} {e : Trap} :
    index k off s cfg = .error e ↔
      slotBase k s cfg = .error e ∨
        ∃ base, slotBase k s cfg = .ok base ∧ (s8 base + slotOffset k off < 0 ∨ 63 < s8 base + slotOffset k off) ∧
          e = .code .outOfBounds := by
  unfold index
  cases slotBase k s cfg with
  | error e => simp
  | ok base =>
    simp only [Except.ok.injEq, exists_eq_left', reduceCtorEq, false_or]
    split_ifs with h <;> simp [h, eq_comm]

/-- When a label operand has a value (R89). -/
theorem labelValue_ok_iff {k : Slot} {off : Byte} {s : State} {v : Byte} :
    labelValue k off s = .ok v ↔
      ∃ l r, s.labels[u8 k.raw]? = some l ∧ 0 ≤ (u16 l.address : Int) + slotOffset k off ∧
        s.prog[((u16 l.address : Int) + slotOffset k off).toNat]? = some r ∧ v = r.operand0 := by
  unfold labelValue
  cases s.labels[u8 k.raw]? with
  | none => simp
  | some l =>
    simp only [Option.some.injEq, exists_and_left, exists_eq_left']
    split_ifs with h
    · simp [h]
    · cases s.prog[((u16 l.address : Int) + slotOffset k off).toNat]? with
      | none => simp
      | some r => simp [eq_comm]; omega

/-- A label operand has only the internal-error fault (R89). -/
theorem labelValue_error {k : Slot} {off : Byte} {s : State} {e : Trap} (h : labelValue k off s = .error e) :
    e = .internal := by
  unfold labelValue at h
  split at h
  · cases h; rfl
  · simp only at h
    split at h
    · cases h; rfl
    · split at h <;> cases h
      rfl

/-- Everything `resolve` can answer as a value (R86): a label's byte, the cell at an index, or the base itself. -/
theorem resolve_ok_iff {k : Slot} {off : Byte} {s : State} {v : Byte} :
    resolve k off s cfg = .ok v ↔
      (k.label = true ∧ k.indirect = false ∧ labelValue k off s = .ok v) ∨
        (k.label = false ∧ k.indirect = true ∧ ∃ i, index k off s cfg = .ok i ∧ v = s.memRead i) ∨
        (k.label = false ∧ k.indirect = false ∧ slotBase k s cfg = .ok v) := by
  unfold resolve
  cases k.label <;> cases hi : k.indirect
  · cases slotBase k s cfg <;> simp
  · cases hb : slotBase k s cfg with
    | error e =>
      have : index k off s cfg = .error e := index_error_iff.2 (.inl hb)
      simp [this]
    | ok base => cases index k off s cfg <;> simp [eq_comm]
  · simp
  · simp

/-- The faults `resolve` can raise (R86): the internal-error fault, and OUT_OF_BOUNDS for a slot that addresses a cell. -/
theorem resolve_error {k : Slot} {off : Byte} {s : State} {e : Trap} (h : resolve k off s cfg = .error e) :
    e = .internal ∨ (k.addressesCell = true ∧ e = .code .outOfBounds) := by
  unfold resolve at h
  split at h
  · split at h
    · cases h; exact .inl rfl
    · exact .inl (labelValue_error h)
  · rename_i hl
    split at h
    · cases h; exact .inl (slotBase_error_iff.1 ‹_›).2.2
    · split at h
      · rename_i hi
        split at h
        · cases h
          rename_i hx
          rcases index_error_iff.1 hx with hb | ⟨_, -, -, rfl⟩
          · exact .inl (slotBase_error_iff.1 hb).2.2
          · exact .inr ⟨by simp [Slot.addressesCell, hi, hl], rfl⟩
        · cases h
      · cases h

/-- The faults the checks of format D can raise. -/
theorem destInput_error {s0 : Slot} {off : Byte} {s : State} {e : Trap} (h : destInput s0 off s cfg = .error e) :
    e = .internal ∨ (s0.addressesCell = true ∧ e = .code .outOfBounds) := by
  unfold destInput at h
  split at h
  · cases h; exact .inl (dst_error_iff.1 ‹_›).2
  · split at h
    · cases h; exact resolve_error ‹_›
    · cases h

/-- The faults the checks of format DS can raise. -/
theorem destInputs_error {s0 s1 : Slot} {off : Byte} {s : State} {e : Trap}
    (h : destInputs s0 s1 off s cfg = .error e) :
    e = .internal ∨ ((s0.addressesCell || s1.addressesCell) = true ∧ e = .code .outOfBounds) := by
  unfold destInputs at h
  split at h
  · cases h; exact (destInput_error ‹_›).imp_right fun h => ⟨by simp [h.1], h.2⟩
  · split at h
    · cases h; exact (resolve_error ‹_›).imp_right fun h => ⟨by simp [h.1], h.2⟩
    · cases h

/-- The faults the checks of format SS can raise. -/
theorem sourceInputs_error {s0 s1 : Slot} {off : Byte} {s : State} {e : Trap}
    (h : sourceInputs s0 s1 off s cfg = .error e) :
    e = .internal ∨ ((s0.addressesCell || s1.addressesCell) = true ∧ e = .code .outOfBounds) := by
  unfold sourceInputs at h
  split at h
  · cases h; exact (resolve_error ‹_›).imp_right fun h => ⟨by simp [h.1], h.2⟩
  · split at h
    · cases h; exact (resolve_error ‹_›).imp_right fun h => ⟨by simp [h.1], h.2⟩
    · cases h

/-- The faults MOV's destination can raise (R170). -/
theorem moveDest_error {s0 : Slot} {off : Byte} {s : State} {e : Trap} (h : moveDest s0 off s cfg = .error e) :
    e = .internal ∨ e = .labelDestination ∨ (s0.addressesCell = true ∧ e = .code .outOfBounds) := by
  unfold moveDest at h
  split at h
  · rename_i hi
    split at h
    · cases h; exact .inl rfl
    · rename_i hl
      split at h
      · cases h
        rename_i hx
        rcases index_error_iff.1 hx with hb | ⟨_, -, -, rfl⟩
        · exact .inl (slotBase_error_iff.1 hb).2.2
        · exact .inr (.inr ⟨by simp [Slot.addressesCell, hi, hl], rfl⟩)
      · cases h
  · split at h
    · cases h; exact .inr (.inl rfl)
    · split at h
      · cases h; exact .inl (dst_error_iff.1 ‹_›).2
      · cases h

/-- Everything `target` can answer as an address (R94). -/
theorem target_ok_iff {k : Slot} {off : Byte} {s : State} {a : SlotAddr} :
    target k off s = .ok a ↔
      ∃ l, s.labels[u8 k.raw]? = some l ∧ a = trunc16 ((u16 l.address : Int) + slotOffset k off) := by
  unfold target
  cases s.labels[u8 k.raw]? <;> simp [eq_comm]

end Sys2Proof.Machine
end

