-- ==== Sys2Proof/Laws/Exec.lean ====
section
/-!
SUPPORT. Sys2Proof/Laws/Exec.lean: what the checks of the single instructions can answer and which faults they can
raise, and what a tick can do: one inversion lemma each, to be cited instead of unfolding the meaning.
-/

namespace Sys2Proof.Machine

variable {cfg : Config.Parameters}

/-! ### The checks of single instructions -/

/-- What the checks of DIV answer (41_arith_logic.md R144). -/
theorem divisor_ok_iff {s0 : Slot} {off : Byte} {s : State} {b : Byte} :
    divisor s0 off s cfg = .ok b ↔ resolve s0 off s cfg = .ok b ∧ s8 b ≠ 0 := by
  unfold divisor
  split
  · simp_all
  · rename_i b' hb
    rw [hb]
    split
    · simp only [Except.ok.injEq, reduceCtorEq, false_iff, not_and, not_not]
      rintro rfl
      assumption
    · simp only [Except.ok.injEq]
      constructor
      · rintro rfl
        exact ⟨rfl, ‹_›⟩
      · exact And.left

/-- What the checks of MOV answer (42_move.md R170). -/
theorem moveParts_ok_iff {s0 s1 : Slot} {off : Byte} {s : State} {v : Byte} {dest : MoveDest} :
    moveParts s0 s1 off s cfg = .ok (v, dest) ↔ resolve s1 off s cfg = .ok v ∧ moveDest s0 off s cfg = .ok dest := by
  unfold moveParts
  split
  · simp_all
  · split <;> simp_all

/-- What PUSH comes to (44_stack_call.md R201). -/
theorem pushOperand_ok_iff {s0 : Slot} {off : Byte} {s s' : State} :
    pushOperand s0 off s cfg = .ok s' ↔ ∃ v, resolve s0 off s cfg = .ok v ∧ s.push v = .ok s' := by
  unfold pushOperand
  split <;> simp_all

/-- What POP comes to (44_stack_call.md R202). -/
theorem popInto_ok_iff {s0 : Slot} {s s' : State} :
    popInto s0 s cfg = .ok s' ↔ ∃ r v s'', dst s0 cfg = .ok r ∧ s.pop = .ok (v, s'') ∧ s' = s''.setReg r v := by
  unfold popInto
  cases dst s0 cfg with
  | error e => simp
  | ok r =>
    cases s.pop with
    | error e => simp
    | ok p => obtain ⟨v, s''⟩ := p; simp [eq_comm]

/-- What the checks of CALL answer (44_stack_call.md R205). -/
theorem callTarget_ok_iff {s0 : Slot} {off : Byte} {s : State} {a : SlotAddr} :
    callTarget s0 off s = .ok a ↔ target s0 off s = .ok a ∧ u8 s.sp < 63 := by
  unfold callTarget
  split
  · simp_all
  · split <;> simp_all

/-- What the check of RET answers (44_stack_call.md R206). -/
theorem returnAddress_ok_iff {s : State} {a : SlotAddr} :
    returnAddress s = .ok a ↔
      1 < u8 s.sp ∧ a = concatBytes (s.memRead (u8 s.sp - 1)) (s.memRead (u8 s.sp - 2)) := by
  unfold returnAddress
  split <;> simp [eq_comm] <;> omega

/-- The faults of DIV (R144). -/
theorem divisor_error {s0 : Slot} {off : Byte} {s : State} {e : Trap} (h : divisor s0 off s cfg = .error e) :
    e = .internal ∨ e = .code .divisionByZero ∨ (s0.addressesCell = true ∧ e = .code .outOfBounds) := by
  unfold divisor at h
  split at h
  · cases h; exact (resolve_error ‹_›).imp_right .inr
  · split at h <;> cases h
    exact .inr (.inl rfl)

/-- The faults of MOV (R170). -/
theorem moveParts_error {s0 s1 : Slot} {off : Byte} {s : State} {e : Trap} (h : moveParts s0 s1 off s cfg = .error e) :
    e = .internal ∨ e = .labelDestination ∨
      ((s0.addressesCell || s1.addressesCell) = true ∧ e = .code .outOfBounds) := by
  unfold moveParts at h
  split at h
  · cases h; exact (resolve_error ‹_›).imp_right fun h => .inr ⟨by simp [h.1], h.2⟩
  · split at h
    · cases h; exact (moveDest_error ‹_›).imp_right (.imp_right fun h => ⟨by simp [h.1], h.2⟩)
    · cases h

/-- The faults of PUSH (R201). -/
theorem pushOperand_error {s0 : Slot} {off : Byte} {s : State} {e : Trap} (h : pushOperand s0 off s cfg = .error e) :
    e = .internal ∨ e = .code .stackOverflow ∨ (s0.addressesCell = true ∧ e = .code .outOfBounds) := by
  unfold pushOperand at h
  split at h
  · cases h; exact (resolve_error ‹_›).imp_right .inr
  · exact .inr (.inl (State.push_error_iff.1 h).2)

/-- The faults of POP (R202). -/
theorem popInto_error {s0 : Slot} {s : State} {e : Trap} (h : popInto s0 s cfg = .error e) :
    e = .internal ∨ e = .code .stackUnderflow := by
  unfold popInto at h
  split at h
  · cases h; exact .inl (dst_error_iff.1 ‹_›).2
  · split at h
    · cases h; rename_i hp; exact .inr (State.pop_error_iff.1 hp).2
    · cases h

/-- The faults of CALL (R205). -/
theorem callTarget_error {s0 : Slot} {off : Byte} {s : State} {e : Trap} (h : callTarget s0 off s = .error e) :
    e = .internal ∨ e = .code .stackOverflow := by
  unfold callTarget at h
  split at h
  · cases h; exact .inl (target_error ‹_›)
  · split at h <;> cases h
    exact .inr rfl

/-- The fault of RET (R206). -/
theorem returnAddress_error {s : State} {e : Trap} (h : returnAddress s = .error e) : e = .code .stackUnderflow := by
  unfold returnAddress at h
  split at h <;> cases h
  rfl

/-- PUSHA with the default registers pushes A, B, C and D in this order (R203). -/
theorem execPusha_parameters (s : State) :
    execPusha s = .next (s.pushAll [s.named .a, s.named .b, s.named .c, s.named .d]) := rfl

/-- POPA with the default registers pops D, C, B and A in this order (R204). -/
theorem execPopa_parameters (s : State) :
    execPopa s = .next (s.popAll [Reg.d.index, Reg.c.index, Reg.b.index, Reg.a.index]) := rfl

/-- What a jump gated on a condition can do (45_jump.md R220). -/
theorem jumpIf_next_iff {cond : Bool} {k : Slot} {off : Byte} {s t : State} :
    jumpIf cfg cond k off s = .next t ↔
      (cond = true ∧ ∃ a, target k off s = .ok a ∧ t = s.setIp a) ∨
        (cond = true ∧ ∃ e, target k off s = .error e ∧ t = s.raise e cfg) ∨ (cond = false ∧ t = s) := by
  unfold jumpIf jumpTo
  cases cond
  · simp [eq_comm]
  · simp [conclude_next_iff]

/-- What DJNZ can do (45_jump.md R229): a fault before any write, or the decrement and then the jump. -/
theorem execDjnz_next_iff {s0 s1 : Slot} {off : Byte} {s t : State} :
    execDjnz s0 s1 off s cfg = .next t ↔
      (∃ e, destInput s0 off s cfg = .error e ∧ t = s.raise e cfg) ∨
        ∃ r a, destInput s0 off s cfg = .ok (r, a) ∧
          jumpIf cfg (!(s.writeLogic r (trunc8 (s8 a - 1))).zero) s1 off (s.writeLogic r (trunc8 (s8 a - 1))) = .next t := by
  unfold execDjnz
  split
  · rename_i e he
    simp [he, eq_comm]
  · rename_i r a h
    simp [h]

/-! ### The tick -/

/-- `exec` is `execWith` at the default parameters (log 23). -/
theorem execWith_parameters (i : Instr) (s : State) : execWith Config.parameters i s = exec i s := by
  cases i <;> rfl

/-- `step` is `stepWith` at the default parameters (log 23). -/
theorem stepWith_parameters (s : State) : stepWith Config.parameters s = step s := by
  unfold stepWith step
  cases beginTick s
  · rfl
  · exact execWith_parameters _ _


/-- What a tick can do (40_engine.md R120): nothing, the fetch fault, the undefined-opcode fault, or the decoded
instruction on the fetched state. -/
theorem stepWith_cases (cfg : Config.Parameters) (s : State) :
    (s.halted = true ∧ stepWith cfg s = .next s) ∨
      (s.halted = false ∧ s.prog[u16 s.prepared.ip]? = none ∧ stepWith cfg s = .next (s.prepared.raise (.code .undefinedIp) cfg)) ∨
      (∃ r e, s.halted = false ∧ s.prog[u16 s.prepared.ip]? = some r ∧ decode r cfg = .error e ∧
        stepWith cfg s = .next ((s.prepared.fetched r).raise .internal cfg)) ∨
      ∃ r i, s.halted = false ∧ s.prog[u16 s.prepared.ip]? = some r ∧ decode r cfg = .ok i ∧
        stepWith cfg s = execWith cfg i (s.prepared.fetched r) := by
  cases hh : s.halted
  · right
    cases hp : s.prog[u16 s.prepared.ip]? with
    | none => left; simp only [stepWith, beginTick, hh, State.prepared_prog, hp, Bool.false_eq_true, if_false, and_self]
    | some r =>
      right
      cases hd : decode r cfg with
      | error e => left; exact ⟨r, e, rfl, rfl, hd, by simp only [stepWith, beginTick, hh, State.prepared_prog, hp, hd, Bool.false_eq_true, if_false]⟩
      | ok i => right; exact ⟨r, i, rfl, rfl, hd, by simp only [stepWith, beginTick, hh, State.prepared_prog, hp, hd, Bool.false_eq_true, if_false]⟩
  · left; exact ⟨rfl, by simp [stepWith, beginTick, hh]⟩

theorem step_cases (s : State) :
    (s.halted = true ∧ step s = .next s) ∨
      (s.halted = false ∧ s.prog[u16 s.prepared.ip]? = none ∧ step s = .next (s.prepared.raise (.code .undefinedIp))) ∨
      (∃ r e, s.halted = false ∧ s.prog[u16 s.prepared.ip]? = some r ∧ decode r = .error e ∧
        step s = .next ((s.prepared.fetched r).raise .internal)) ∨
      ∃ r i, s.halted = false ∧ s.prog[u16 s.prepared.ip]? = some r ∧ decode r = .ok i ∧
        step s = exec i (s.prepared.fetched r) := by
  simpa only [stepWith_parameters, execWith_parameters] using stepWith_cases Config.parameters s

/-- Placing a record at a slot puts it there. -/
theorem getElem?_placeRecord (r : Record) : ∀ (n : Nat) (p : List Record), (placeRecord p n r)[n]? = some r
  | 0, [] => rfl
  | 0, _ :: _ => rfl
  | n + 1, [] => getElem?_placeRecord r n []
  | n + 1, _ :: p => getElem?_placeRecord r n p

/-- The tick after `withRecord` fetches and runs exactly the placed record (log 3, log 4). -/
theorem step_withRecord {s : State} {r : Record} {i : Instr} (h : decode r = .ok i) :
    step (s.withRecord r) = exec i ((s.withRecord r).prepared.fetched r) := by
  have hh : (s.withRecord r).halted = false := by
    simp only [State.halted, State.withRecord]
    cases s.wait <;> cases s.stepReq <;> rfl
  have hr : (s.withRecord r).prog[u16 (s.withRecord r).prepared.ip]? = some r := getElem?_placeRecord r _ _
  simp only [step, beginTick, hh, State.prepared_prog, hr, h, Bool.false_eq_true, if_false]

end Sys2Proof.Machine
end

