-- ==== Sys2Proof/Laws/PerInstr.lean ====
section
/-!
SUPPORT. Sys2Proof/Laws/PerInstr.lean: the statements made instruction by instruction: the opcode byte the encoder writes,
and the fields that decoding reads back from the encoded record.
-/

namespace Sys2Proof.Laws

/-- The encoder writes the instruction's opcode byte (30_encoding.md R80, R95). -/
def OpcodeByte.Statement (i : Instr) : Prop :=
  ∀ cfg : Config.Parameters, (encode i cfg).opcode = cfg.opcodeMap i.opcode

/-- The fields of an encoded record give the instruction back (30_encoding.md R80, R82, R84). -/
def FieldsKept.Statement (i : Instr) : Prop :=
  ∀ cfg : Config.Parameters, instrOf i.opcode (encode i cfg) = i

theorem OpcodeByte.add (s0 s1 : Slot) (off : Byte) : OpcodeByte.Statement (.add s0 s1 off) := fun _ => rfl

theorem OpcodeByte.sub (s0 s1 : Slot) (off : Byte) : OpcodeByte.Statement (.sub s0 s1 off) := fun _ => rfl

theorem OpcodeByte.mul (s0 : Slot) (off : Byte) : OpcodeByte.Statement (.mul s0 off) := fun _ => rfl

theorem OpcodeByte.div (s0 : Slot) (off : Byte) : OpcodeByte.Statement (.div s0 off) := fun _ => rfl

theorem OpcodeByte.and (s0 s1 : Slot) (off : Byte) : OpcodeByte.Statement (.and s0 s1 off) := fun _ => rfl

theorem OpcodeByte.or (s0 s1 : Slot) (off : Byte) : OpcodeByte.Statement (.or s0 s1 off) := fun _ => rfl

theorem OpcodeByte.xor (s0 s1 : Slot) (off : Byte) : OpcodeByte.Statement (.xor s0 s1 off) := fun _ => rfl

theorem OpcodeByte.not (s0 : Slot) (off : Byte) : OpcodeByte.Statement (.not s0 off) := fun _ => rfl

theorem OpcodeByte.cmp (s0 s1 : Slot) (off : Byte) : OpcodeByte.Statement (.cmp s0 s1 off) := fun _ => rfl

theorem OpcodeByte.mov (s0 s1 : Slot) (off : Byte) : OpcodeByte.Statement (.mov s0 s1 off) := fun _ => rfl

theorem OpcodeByte.shl (s0 s1 : Slot) (off : Byte) : OpcodeByte.Statement (.shl s0 s1 off) := fun _ => rfl

theorem OpcodeByte.sal (s0 s1 : Slot) (off : Byte) : OpcodeByte.Statement (.sal s0 s1 off) := fun _ => rfl

theorem OpcodeByte.shr (s0 s1 : Slot) (off : Byte) : OpcodeByte.Statement (.shr s0 s1 off) := fun _ => rfl

theorem OpcodeByte.sar (s0 s1 : Slot) (off : Byte) : OpcodeByte.Statement (.sar s0 s1 off) := fun _ => rfl

theorem OpcodeByte.rol (s0 s1 : Slot) (off : Byte) : OpcodeByte.Statement (.rol s0 s1 off) := fun _ => rfl

theorem OpcodeByte.ror (s0 s1 : Slot) (off : Byte) : OpcodeByte.Statement (.ror s0 s1 off) := fun _ => rfl

theorem OpcodeByte.inc (s0 : Slot) (off : Byte) : OpcodeByte.Statement (.inc s0 off) := fun _ => rfl

theorem OpcodeByte.dec (s0 : Slot) (off : Byte) : OpcodeByte.Statement (.dec s0 off) := fun _ => rfl

theorem OpcodeByte.push (s0 : Slot) (off : Byte) : OpcodeByte.Statement (.push s0 off) := fun _ => rfl

theorem OpcodeByte.pop (s0 : Slot) (off : Byte) : OpcodeByte.Statement (.pop s0 off) := fun _ => rfl

theorem OpcodeByte.pusha : OpcodeByte.Statement .pusha := fun _ => rfl

theorem OpcodeByte.popa : OpcodeByte.Statement .popa := fun _ => rfl

theorem OpcodeByte.call (s0 : Slot) (off : Byte) : OpcodeByte.Statement (.call s0 off) := fun _ => rfl

theorem OpcodeByte.ret : OpcodeByte.Statement .ret := fun _ => rfl

theorem OpcodeByte.jmp (s0 : Slot) (off : Byte) : OpcodeByte.Statement (.jmp s0 off) := fun _ => rfl

theorem OpcodeByte.loop (s0 : Slot) (off : Byte) : OpcodeByte.Statement (.loop s0 off) := fun _ => rfl

theorem OpcodeByte.jz (s0 : Slot) (off : Byte) : OpcodeByte.Statement (.jz s0 off) := fun _ => rfl

theorem OpcodeByte.je (s0 : Slot) (off : Byte) : OpcodeByte.Statement (.je s0 off) := fun _ => rfl

theorem OpcodeByte.jnz (s0 : Slot) (off : Byte) : OpcodeByte.Statement (.jnz s0 off) := fun _ => rfl

theorem OpcodeByte.jne (s0 : Slot) (off : Byte) : OpcodeByte.Statement (.jne s0 off) := fun _ => rfl

theorem OpcodeByte.jc (s0 : Slot) (off : Byte) : OpcodeByte.Statement (.jc s0 off) := fun _ => rfl

theorem OpcodeByte.jnc (s0 : Slot) (off : Byte) : OpcodeByte.Statement (.jnc s0 off) := fun _ => rfl

theorem OpcodeByte.djnz (s0 s1 : Slot) (off : Byte) : OpcodeByte.Statement (.djnz s0 s1 off) := fun _ => rfl

theorem OpcodeByte.clz : OpcodeByte.Statement .clz := fun _ => rfl

theorem OpcodeByte.sez : OpcodeByte.Statement .sez := fun _ => rfl

theorem OpcodeByte.clc : OpcodeByte.Statement .clc := fun _ => rfl

theorem OpcodeByte.sec : OpcodeByte.Statement .sec := fun _ => rfl

theorem OpcodeByte.wfe : OpcodeByte.Statement .wfe := fun _ => rfl

theorem OpcodeByte.hlt : OpcodeByte.Statement .hlt := fun _ => rfl

theorem OpcodeByte.nop : OpcodeByte.Statement .nop := fun _ => rfl

theorem FieldsKept.add (s0 s1 : Slot) (off : Byte) : FieldsKept.Statement (.add s0 s1 off) := by
  simp [FieldsKept.Statement, encode, Instr.opcode, instrOf]

theorem FieldsKept.sub (s0 s1 : Slot) (off : Byte) : FieldsKept.Statement (.sub s0 s1 off) := by
  simp [FieldsKept.Statement, encode, Instr.opcode, instrOf]

theorem FieldsKept.mul (s0 : Slot) (off : Byte) : FieldsKept.Statement (.mul s0 off) := by
  simp [FieldsKept.Statement, encode, Instr.opcode, instrOf]

theorem FieldsKept.div (s0 : Slot) (off : Byte) : FieldsKept.Statement (.div s0 off) := by
  simp [FieldsKept.Statement, encode, Instr.opcode, instrOf]

theorem FieldsKept.and (s0 s1 : Slot) (off : Byte) : FieldsKept.Statement (.and s0 s1 off) := by
  simp [FieldsKept.Statement, encode, Instr.opcode, instrOf]

theorem FieldsKept.or (s0 s1 : Slot) (off : Byte) : FieldsKept.Statement (.or s0 s1 off) := by
  simp [FieldsKept.Statement, encode, Instr.opcode, instrOf]

theorem FieldsKept.xor (s0 s1 : Slot) (off : Byte) : FieldsKept.Statement (.xor s0 s1 off) := by
  simp [FieldsKept.Statement, encode, Instr.opcode, instrOf]

theorem FieldsKept.not (s0 : Slot) (off : Byte) : FieldsKept.Statement (.not s0 off) := by
  simp [FieldsKept.Statement, encode, Instr.opcode, instrOf]

theorem FieldsKept.cmp (s0 s1 : Slot) (off : Byte) : FieldsKept.Statement (.cmp s0 s1 off) := by
  simp [FieldsKept.Statement, encode, Instr.opcode, instrOf]

theorem FieldsKept.mov (s0 s1 : Slot) (off : Byte) : FieldsKept.Statement (.mov s0 s1 off) := by
  simp [FieldsKept.Statement, encode, Instr.opcode, instrOf]

theorem FieldsKept.shl (s0 s1 : Slot) (off : Byte) : FieldsKept.Statement (.shl s0 s1 off) := by
  simp [FieldsKept.Statement, encode, Instr.opcode, instrOf]

theorem FieldsKept.sal (s0 s1 : Slot) (off : Byte) : FieldsKept.Statement (.sal s0 s1 off) := by
  simp [FieldsKept.Statement, encode, Instr.opcode, instrOf]

theorem FieldsKept.shr (s0 s1 : Slot) (off : Byte) : FieldsKept.Statement (.shr s0 s1 off) := by
  simp [FieldsKept.Statement, encode, Instr.opcode, instrOf]

theorem FieldsKept.sar (s0 s1 : Slot) (off : Byte) : FieldsKept.Statement (.sar s0 s1 off) := by
  simp [FieldsKept.Statement, encode, Instr.opcode, instrOf]

theorem FieldsKept.rol (s0 s1 : Slot) (off : Byte) : FieldsKept.Statement (.rol s0 s1 off) := by
  simp [FieldsKept.Statement, encode, Instr.opcode, instrOf]

theorem FieldsKept.ror (s0 s1 : Slot) (off : Byte) : FieldsKept.Statement (.ror s0 s1 off) := by
  simp [FieldsKept.Statement, encode, Instr.opcode, instrOf]

theorem FieldsKept.inc (s0 : Slot) (off : Byte) : FieldsKept.Statement (.inc s0 off) := by
  simp [FieldsKept.Statement, encode, Instr.opcode, instrOf]

theorem FieldsKept.dec (s0 : Slot) (off : Byte) : FieldsKept.Statement (.dec s0 off) := by
  simp [FieldsKept.Statement, encode, Instr.opcode, instrOf]

theorem FieldsKept.push (s0 : Slot) (off : Byte) : FieldsKept.Statement (.push s0 off) := by
  simp [FieldsKept.Statement, encode, Instr.opcode, instrOf]

theorem FieldsKept.pop (s0 : Slot) (off : Byte) : FieldsKept.Statement (.pop s0 off) := by
  simp [FieldsKept.Statement, encode, Instr.opcode, instrOf]

theorem FieldsKept.pusha : FieldsKept.Statement .pusha := fun _ => rfl

theorem FieldsKept.popa : FieldsKept.Statement .popa := fun _ => rfl

theorem FieldsKept.call (s0 : Slot) (off : Byte) : FieldsKept.Statement (.call s0 off) := by
  simp [FieldsKept.Statement, encode, Instr.opcode, instrOf]

theorem FieldsKept.ret : FieldsKept.Statement .ret := fun _ => rfl

theorem FieldsKept.jmp (s0 : Slot) (off : Byte) : FieldsKept.Statement (.jmp s0 off) := by
  simp [FieldsKept.Statement, encode, Instr.opcode, instrOf]

theorem FieldsKept.loop (s0 : Slot) (off : Byte) : FieldsKept.Statement (.loop s0 off) := by
  simp [FieldsKept.Statement, encode, Instr.opcode, instrOf]

theorem FieldsKept.jz (s0 : Slot) (off : Byte) : FieldsKept.Statement (.jz s0 off) := by
  simp [FieldsKept.Statement, encode, Instr.opcode, instrOf]

theorem FieldsKept.je (s0 : Slot) (off : Byte) : FieldsKept.Statement (.je s0 off) := by
  simp [FieldsKept.Statement, encode, Instr.opcode, instrOf]

theorem FieldsKept.jnz (s0 : Slot) (off : Byte) : FieldsKept.Statement (.jnz s0 off) := by
  simp [FieldsKept.Statement, encode, Instr.opcode, instrOf]

theorem FieldsKept.jne (s0 : Slot) (off : Byte) : FieldsKept.Statement (.jne s0 off) := by
  simp [FieldsKept.Statement, encode, Instr.opcode, instrOf]

theorem FieldsKept.jc (s0 : Slot) (off : Byte) : FieldsKept.Statement (.jc s0 off) := by
  simp [FieldsKept.Statement, encode, Instr.opcode, instrOf]

theorem FieldsKept.jnc (s0 : Slot) (off : Byte) : FieldsKept.Statement (.jnc s0 off) := by
  simp [FieldsKept.Statement, encode, Instr.opcode, instrOf]

theorem FieldsKept.djnz (s0 s1 : Slot) (off : Byte) : FieldsKept.Statement (.djnz s0 s1 off) := by
  simp [FieldsKept.Statement, encode, Instr.opcode, instrOf]

theorem FieldsKept.clz : FieldsKept.Statement .clz := fun _ => rfl

theorem FieldsKept.sez : FieldsKept.Statement .sez := fun _ => rfl

theorem FieldsKept.clc : FieldsKept.Statement .clc := fun _ => rfl

theorem FieldsKept.sec : FieldsKept.Statement .sec := fun _ => rfl

theorem FieldsKept.wfe : FieldsKept.Statement .wfe := fun _ => rfl

theorem FieldsKept.hlt : FieldsKept.Statement .hlt := fun _ => rfl

theorem FieldsKept.nop : FieldsKept.Statement .nop := fun _ => rfl

end Sys2Proof.Laws
end

