-- ==== Sys2Proof/Tests/Slice0.lean ====
section
/-!
SUPPORT. Sys2Proof/Tests/Slice0.lean: the tests of the model. Expected results come from spec/95_test_vectors.md (sections
1 and 2, named VEC in the comments) or from the corner cases and examples of the instruction rules. The last part shows, for
every statement with hypotheses, concrete states and operands that meet them (`witness_…`).
-/

namespace Sys2Proof.Tests

open Sys2Proof.Machine

-- One test after the other: each evaluates in the kernel, and a hundred of them at once would each hold a thread.
set_option Elab.async false

/-! ### Helpers -/

/-- A register slot (30_encoding.md R100, D30). -/
def reg (raw : Byte) : Slot := ⟨raw, false, false, false, false⟩

/-- A literal slot. -/
def lit (raw : Byte) : Slot := ⟨raw, true, false, false, false⟩

/-- A label slot. -/
def lab (raw : Byte) : Slot := ⟨raw, false, true, false, false⟩

/-- A label slot with the offset flag. -/
def labOff (raw : Byte) : Slot := ⟨raw, false, true, true, false⟩

/-- A register-indirect slot. -/
def ind (raw : Byte) : Slot := ⟨raw, false, false, false, true⟩

/-- A register-indirect slot with the offset flag. -/
def indOff (raw : Byte) : Slot := ⟨raw, false, false, true, true⟩

/-- A NOP slot of the harness whose byte 1 is given. -/
def nop (b1 : Byte) : Record := ⟨0x27, b1, 0x00, 0x00, 0x00⟩

/-- The set-up of VEC 2.0: twelve slots with the record under test at `ip`, and four labels. -/
def harness (r : Record) (s : State) : State :=
  { s with
    prog := [nop 0x00, nop 0x00, nop 0x00, nop 0x00, nop 0x00, nop 0x00, nop 0x00, nop 0x00, nop 0x5A, nop 0xA5,
      nop 0x00, nop 0x00].set s.ip.toNat r
    labels := [⟨"L0", 8⟩, ⟨"L1", 3⟩, ⟨"L2", 0⟩, ⟨"L3", 0x7FFF⟩] }

/-- The state after one tick of a record on the set-up. -/
def tick (r : Record) (s : State) : Option State :=
  match step (harness r s) with
  | .next t => some t
  | .fault _ => none
  | .refused _ => none

/-- The power-on state with given registers. -/
def withRegs (x : Regs) : State := { State.reset with regs := x }

/-- The three ALU flags: zero, overflow, carry. -/
def flags (t : State) : Bool × Bool × Bool := (t.zero, t.overflow, t.carry)

/-- The fault record: fault, faultCode. -/
def faultOf (t : State) : Bool × Byte := (t.fault, t.faultCode)

/-! ### WellFormed smoke: an ill-formed term for each check, which the check refuses -/

theorem test_wellFormed_refuses_bad_destination : (Instr.add (reg 5) (reg 0) 0).wellFormed = false := by decide

theorem test_wellFormed_refuses_bad_source : (Instr.push (reg 5) 0).wellFormed = false := by decide

theorem test_wellFormed_refuses_bad_literal_destination : (Instr.inc (lit 9) 0).wellFormed = false := by decide

theorem test_wellFormed_refuses_label_with_indirect :
    (Instr.mul ⟨0, false, true, false, true⟩ 0).wellFormed = false := by decide

theorem test_wellFormed_refuses_label_destination : (Instr.mov (lab 0) (reg 1) 0).wellFormed = false := by decide

theorem test_wellFormed_refuses_bad_indirect_destination : (Instr.mov (ind 5) (reg 1) 0).wellFormed = false := by decide

theorem test_wellFormed_refuses_bad_pop : (Instr.pop (reg 5) 0).wellFormed = false := by decide

theorem test_wellFormed_takes_boundary_register : (Instr.add (reg 4) (lit 0xFF) 0).wellFormed = true := by decide

theorem test_labelsIn_refuses_bad_target : (Instr.jmp (lab 1) 0).labelsIn 4 [⟨"L0", 3⟩] = false := by decide

theorem test_labelsIn_refuses_bad_label : (Instr.push (lab 1) 0).labelsIn 4 [⟨"L0", 3⟩] = false := by decide

theorem test_labelsIn_refuses_label_past_the_end : (Instr.push (labOff 0) 1).labelsIn 4 [⟨"L0", 3⟩] = false := by decide

theorem test_labelsIn_refuses_label_before_the_start :
    (Instr.push (labOff 0) 0xFF).labelsIn 4 [⟨"L0", 0⟩] = false := by decide

theorem test_labelsIn_takes_last_slot : (Instr.push (lab 0) 1).labelsIn 4 [⟨"L0", 3⟩] = true := by decide

theorem test_program_refuses_undefined_opcode : programWellFormed [⟨0x28, 0, 0, 0, 0⟩] [] = false := by decide

/-! ### Decoding: each constructor from a record written out from R80, R82, R95 (the records of VEC 2.1 to 2.6) -/

theorem test_decode_arith :
    decode ⟨0x00, 0x00, 0x01, 0x10, 0x00⟩ = .ok (.add (reg 0) (lit 1) 0) ∧
      decode ⟨0x01, 0x00, 0x01, 0x00, 0x00⟩ = .ok (.sub (reg 0) (reg 1) 0) ∧
      decode ⟨0x02, 0x07, 0x00, 0x01, 0x00⟩ = .ok (.mul (lit 7) 0) ∧
      decode ⟨0x03, 0x01, 0x00, 0x08, 0x00⟩ = .ok (.div (ind 1) 0) := by decide +kernel

theorem test_decode_logic :
    decode ⟨0x04, 0x00, 0x3C, 0x10, 0x00⟩ = .ok (.and (reg 0) (lit 0x3C) 0) ∧
      decode ⟨0x05, 0x00, 0x80, 0x10, 0x00⟩ = .ok (.or (reg 0) (lit 0x80) 0) ∧
      decode ⟨0x06, 0x00, 0xFF, 0x10, 0x00⟩ = .ok (.xor (reg 0) (lit 0xFF) 0) ∧
      decode ⟨0x07, 0x01, 0x00, 0x00, 0x00⟩ = .ok (.not (reg 1) 0) ∧
      decode ⟨0x08, 0x01, 0x02, 0x11, 0x00⟩ = .ok (.cmp (lit 1) (lit 2) 0) := by decide +kernel

theorem test_decode_mov :
    decode ⟨0x09, 0x00, 0x01, 0x08, 0x00⟩ = .ok (.mov (ind 0) (reg 1) 0) ∧
      decode ⟨0x09, 0x01, 0x02, 0x0C, 0x0A⟩ = .ok (.mov (indOff 1) (reg 2) 0x0A) := by decide +kernel

theorem test_decode_shift :
    decode ⟨0x0A, 0x00, 0x02, 0x10, 0x00⟩ = .ok (.shl (reg 0) (lit 2) 0) ∧
      decode ⟨0x0B, 0x00, 0x01, 0x10, 0x00⟩ = .ok (.sal (reg 0) (lit 1) 0) ∧
      decode ⟨0x0C, 0x00, 0x09, 0x10, 0x00⟩ = .ok (.shr (reg 0) (lit 9) 0) ∧
      decode ⟨0x0D, 0x00, 0x01, 0x10, 0x00⟩ = .ok (.sar (reg 0) (lit 1) 0) ∧
      decode ⟨0x0E, 0x00, 0x01, 0x10, 0x00⟩ = .ok (.rol (reg 0) (lit 1) 0) ∧
      decode ⟨0x0F, 0x00, 0x01, 0x10, 0x00⟩ = .ok (.ror (reg 0) (lit 1) 0) ∧
      decode ⟨0x10, 0x01, 0x00, 0x00, 0x00⟩ = .ok (.inc (reg 1) 0) ∧
      decode ⟨0x11, 0x02, 0x00, 0x00, 0x00⟩ = .ok (.dec (reg 2) 0) := by decide +kernel

theorem test_decode_stack :
    decode ⟨0x12, 0x2A, 0x00, 0x01, 0x00⟩ = .ok (.push (lit 0x2A) 0) ∧
      decode ⟨0x13, 0x01, 0x00, 0x00, 0x00⟩ = .ok (.pop (reg 1) 0) ∧
      decode ⟨0x14, 0x00, 0x00, 0x00, 0x00⟩ = .ok .pusha ∧ decode ⟨0x15, 0x00, 0x00, 0x00, 0x00⟩ = .ok .popa ∧
      decode ⟨0x16, 0x00, 0x00, 0x02, 0x00⟩ = .ok (.call (lab 0) 0) ∧
      decode ⟨0x17, 0x00, 0x00, 0x00, 0x00⟩ = .ok .ret := by decide +kernel

theorem test_decode_jump :
    decode ⟨0x18, 0x00, 0x00, 0x06, 0xFF⟩ = .ok (.jmp (labOff 0) 0xFF) ∧
      decode ⟨0x19, 0x01, 0x00, 0x02, 0x00⟩ = .ok (.loop (lab 1) 0) ∧
      decode ⟨0x1A, 0x00, 0x00, 0x02, 0x00⟩ = .ok (.jz (lab 0) 0) ∧
      decode ⟨0x1B, 0x00, 0x00, 0x02, 0x00⟩ = .ok (.je (lab 0) 0) ∧
      decode ⟨0x1C, 0x00, 0x00, 0x02, 0x00⟩ = .ok (.jnz (lab 0) 0) ∧
      decode ⟨0x1D, 0x00, 0x00, 0x02, 0x00⟩ = .ok (.jne (lab 0) 0) ∧
      decode ⟨0x1E, 0x00, 0x00, 0x02, 0x00⟩ = .ok (.jc (lab 0) 0) ∧
      decode ⟨0x1F, 0x00, 0x00, 0x02, 0x00⟩ = .ok (.jnc (lab 0) 0) ∧
      decode ⟨0x20, 0x02, 0x01, 0x60, 0x02⟩ = .ok (.djnz (reg 2) (labOff 1) 0x02) := by decide +kernel

theorem test_decode_system :
    decode ⟨0x21, 0x00, 0x00, 0x00, 0x00⟩ = .ok .clz ∧ decode ⟨0x22, 0x00, 0x00, 0x00, 0x00⟩ = .ok .sez ∧
      decode ⟨0x23, 0x00, 0x00, 0x00, 0x00⟩ = .ok .clc ∧ decode ⟨0x24, 0x00, 0x00, 0x00, 0x00⟩ = .ok .sec ∧
      decode ⟨0x25, 0x00, 0x00, 0x00, 0x00⟩ = .ok .wfe ∧ decode ⟨0x26, 0x00, 0x00, 0x00, 0x00⟩ = .ok .hlt ∧
      decode ⟨0x27, 0x5A, 0x00, 0x00, 0x00⟩ = .ok .nop := by decide +kernel

theorem test_decode_undefined :
    decode ⟨0x28, 0x00, 0x00, 0x00, 0x00⟩ = .error (.undefinedOpcode 0x28) ∧
      decode ⟨0xFF, 0x01, 0x02, 0x03, 0x04⟩ = .error (.undefinedOpcode 0xFF) := by decide +kernel

theorem test_decodeBytes :
    decodeBytes [0x26, 0x00, 0x00, 0x00, 0x00, 0x27] = .ok (.hlt, [0x27]) ∧
      decodeBytes [0x26, 0x00, 0x00, 0x00] = .error .truncatedRecord := by decide +kernel

/-- A word of the opcode table has byte 0 in bits 39:32 (spec/INDEX.md, log 4). -/
theorem test_tableWord_decodes :
    decodeTableWord 40 0x2002016002 = some (.djnz (reg 2) (labOff 1) 0x02) ∧ decodeTableWord 40 0x2800000000 = none := by
  decide +kernel

/-- The first step after reset runs the word placed there (log 3, log 4): HLT leaves `ip` at 1 and HALTED. -/
theorem test_tableWord_runs :
    (match step (State.reset.withFetchWord 40 0x2600000000) with
      | .next t => (t.ip, t.faultCode, t.prog.length)
      | .fault _ => (0, 0, 0)
      | .refused _ => (0, 0, 0)) = (0x0001, 0x07, 1) := by decide +kernel

/-! ### One step of each instruction (VEC 1.1, 1.2, 1.3, 1.6, 1.8 and 2.1 to 2.7) -/

/-- VEC 1.1, and the sum of -128 and -128. -/
theorem test_add :
    (tick ⟨0x00, 0x00, 0x01, 0x10, 0x00⟩ (withRegs [0x7F, 0, 0, 0, 0])).map (fun t => (t.named .a, flags t)) =
        some (0x80, false, true, false) ∧
      (tick ⟨0x00, 0x00, 0x01, 0x00, 0x00⟩ (withRegs [0x80, 0x80, 0, 0, 0])).map (fun t => (t.named .a, flags t)) =
        some (0x00, true, true, false) := by decide +kernel

theorem test_sub :
    (tick ⟨0x01, 0x00, 0x01, 0x10, 0x00⟩ (withRegs [0x80, 0, 0, 0, 0])).map (fun t => (t.named .a, flags t)) =
        some (0x7F, false, true, false) ∧
      (tick ⟨0x01, 0x00, 0x01, 0x00, 0x00⟩ (withRegs [0x00, 0x80, 0, 0, 0])).map (fun t => (t.named .a, flags t)) =
        some (0x80, false, true, false) := by decide +kernel

theorem test_mul :
    (tick ⟨0x02, 0x10, 0x00, 0x01, 0x00⟩ (withRegs [0x10, 0, 0, 0, 0])).map (fun t => (t.named .a, flags t)) =
        some (0x00, true, true, false) ∧
      (tick ⟨0x02, 0x01, 0x00, 0x00, 0x00⟩ (withRegs [0xFF, 0xFF, 0, 0, 0])).map (fun t => (t.named .a, flags t)) =
        some (0x01, false, false, false) := by decide +kernel

/-- -7 / 2 rounds toward zero, and -128 / -1 overflows. -/
theorem test_div :
    (tick ⟨0x03, 0x02, 0x00, 0x01, 0x00⟩ (withRegs [0xF9, 0, 0, 0, 0])).map (fun t => (t.named .a, flags t)) =
        some (0xFD, false, false, false) ∧
      (tick ⟨0x03, 0x01, 0x00, 0x00, 0x00⟩ (withRegs [0x80, 0xFF, 0, 0, 0])).map (fun t => (t.named .a, flags t)) =
        some (0x80, false, true, false) := by decide +kernel

/-- VEC 1.6, and the operand's fault before the divisor's (R265). -/
theorem test_div_faults :
    (tick ⟨0x03, 0x00, 0x00, 0x01, 0x00⟩ (withRegs [0x64, 0, 0, 0, 0])).map (fun t => (t.named .a, faultOf t)) =
        some (0x64, true, 0x01) ∧
      (tick ⟨0x03, 0x01, 0x00, 0x08, 0x00⟩ (withRegs [0x10, 0x40, 0, 0, 0])).map faultOf = some (true, 0x06) := by
  decide +kernel

theorem test_and_or_xor_not :
    (tick ⟨0x04, 0x00, 0x3C, 0x10, 0x00⟩ (withRegs [0xF0, 0, 0, 0, 0])).map (fun t => t.named .a) = some 0x30 ∧
      (tick ⟨0x05, 0x00, 0x80, 0x10, 0x00⟩ (withRegs [0x0F, 0, 0, 0, 0])).map (fun t => t.named .a) = some 0x8F ∧
      (tick ⟨0x06, 0x00, 0xFF, 0x10, 0x00⟩ (withRegs [0xAA, 0, 0, 0, 0])).map (fun t => t.named .a) = some 0x55 ∧
      (tick ⟨0x07, 0x01, 0x00, 0x00, 0x00⟩ (withRegs [0, 0xFF, 0, 0, 0])).map (fun t => (t.named .b, t.zero)) =
        some (0x00, true) := by decide +kernel

/-- The signed reading: 1 < -1 is false, -128 < 1 is true. -/
theorem test_cmp :
    (tick ⟨0x08, 0x00, 0xFF, 0x10, 0x00⟩ (withRegs [0x01, 0, 0, 0, 0])).map flags = some (false, false, false) ∧
      (tick ⟨0x08, 0x00, 0x01, 0x10, 0x00⟩ (withRegs [0x80, 0, 0, 0, 0])).map flags = some (false, true, true) := by
  decide +kernel

/-- The example of R170, and a literal-class destination (D21). -/
theorem test_mov :
    (tick ⟨0x09, 0x00, 0x01, 0x08, 0x00⟩ (withRegs [0x05, 0x2A, 0, 0, 0])).map (fun t => (t.stack, flags t)) =
        some ([(5, 0x2A)], false, false, false) ∧
      (tick ⟨0x09, 0x02, 0x44, 0x11, 0x00⟩ State.reset).map (fun t => t.named .c) = some 0x44 := by decide +kernel

/-- A label destination is CODE_ERROR with its text (R170), and a store to index 64 is OUT_OF_BOUNDS (R69, program P3). -/
theorem test_mov_faults :
    (tick ⟨0x09, 0x00, 0x01, 0x02, 0x00⟩ State.reset).map (fun t => (faultOf t, t.diag)) =
        some ((true, 0x05), some "label in first operand") ∧
      (tick ⟨0x09, 0x00, 0x00, 0x0C, 0x02⟩ (withRegs [0x3E, 0, 0, 0, 0])).map (fun t => (faultOf t, t.stack)) =
        some ((true, 0x06), []) := by decide +kernel

theorem test_shl_sal_shr_sar :
    (tick ⟨0x0A, 0x00, 0x02, 0x10, 0x00⟩ (withRegs [0x03, 0, 0, 0, 0])).map (fun t => t.named .a) = some 0x0C ∧
      (tick ⟨0x0B, 0x00, 0x01, 0x10, 0x00⟩ (withRegs [0x80, 0, 0, 0, 0])).map (fun t => (t.named .a, t.zero)) =
        some (0x00, true) ∧
      (tick ⟨0x0C, 0x00, 0x09, 0x10, 0x00⟩ (withRegs [0x03, 0, 0, 0, 0])).map (fun t => (t.named .a, t.zero)) =
        some (0x00, true) ∧
      (tick ⟨0x0D, 0x00, 0x09, 0x10, 0x00⟩ (withRegs [0x80, 0, 0, 0, 0])).map (fun t => t.named .a) = some 0xFF := by
  decide +kernel

/-- The rotate of program P4 (95_test_vectors.md section 3), and its mirror. -/
theorem test_rol_ror :
    (tick ⟨0x0E, 0x00, 0x01, 0x10, 0x00⟩ (withRegs [0x81, 0, 0, 0, 0])).map (fun t => t.named .a) = some 0x03 ∧
      (tick ⟨0x0F, 0x00, 0x01, 0x10, 0x00⟩ (withRegs [0x81, 0, 0, 0, 0])).map (fun t => t.named .a) = some 0xC0 := by
  decide +kernel

/-- INC of 0x7F does not write `overflow` (R187). -/
theorem test_inc_dec :
    (tick ⟨0x10, 0x01, 0x00, 0x00, 0x00⟩ (withRegs [0, 0x7F, 0, 0, 0])).map (fun t => (t.named .b, flags t)) =
        some (0x80, false, false, false) ∧
      (tick ⟨0x11, 0x02, 0x00, 0x00, 0x00⟩ (withRegs [0, 0, 0x01, 0, 0])).map (fun t => (t.named .c, t.zero)) =
        some (0x00, true) := by decide +kernel

/-- VEC 1.2 and 1.7. -/
theorem test_push :
    (tick ⟨0x12, 0x00, 0x00, 0x00, 0x00⟩ { withRegs [0x9C, 0, 0, 0, 0] with sp := 5 }).map
        (fun t => (t.sp, t.stack)) = some (6, [(5, 0x9C)]) ∧
      (tick ⟨0x12, 0x00, 0x00, 0x00, 0x00⟩ { withRegs [0x77, 0, 0, 0, 0] with sp := 64 }).map
        (fun t => (faultOf t, t.stack)) = some ((true, 0x03), []) := by decide +kernel

/-- VEC 1.2: the popped cell keeps its byte (D17). -/
theorem test_pop :
    (tick ⟨0x13, 0x01, 0x00, 0x00, 0x00⟩ { State.reset with sp := 6, stack := [(5, 0x9C)] }).map
        (fun t => (t.named .b, t.sp, t.stack)) = some (0x9C, 5, [(5, 0x9C)]) ∧
      (tick ⟨0x13, 0x01, 0x00, 0x00, 0x00⟩ State.reset).map faultOf = some (true, 0x02) := by decide +kernel

/-- Ascending from `sp`, and partly applied when only two cells are free (R203). -/
theorem test_pusha :
    (tick ⟨0x14, 0x00, 0x00, 0x00, 0x00⟩ (withRegs [1, 2, 3, 4, 9])).map (fun t => (t.sp, t.stack)) =
        some (4, [(0, 1), (1, 2), (2, 3), (3, 4)]) ∧
      (tick ⟨0x14, 0x00, 0x00, 0x00, 0x00⟩ { withRegs [1, 2, 3, 4, 9] with sp := 62 }).map
        (fun t => (faultOf t, t.sp, t.stack)) = some ((true, 0x03), 64, [(62, 1), (63, 2)]) := by decide +kernel

/-- Descending, PORTS untouched, and partly applied when only two bytes are there (R204). -/
theorem test_popa :
    (tick ⟨0x15, 0x00, 0x00, 0x00, 0x00⟩
        { withRegs [0, 0, 0, 0, 9] with sp := 4, stack := [(0, 1), (1, 2), (2, 3), (3, 4)] }).map
        (fun t => (t.sp, t.regs)) = some (0, [1, 2, 3, 4, 9]) ∧
      (tick ⟨0x15, 0x00, 0x00, 0x00, 0x00⟩ { State.reset with sp := 2, stack := [(0, 1), (1, 2)] }).map
        (fun t => (faultOf t, t.sp, t.regs)) = some ((true, 0x02), 0, [0, 0, 1, 2, 0]) := by decide +kernel

/-- A return address with both bytes non-zero lies low byte first (R63): slot 0x0203 is read from the stack by RET, and VEC
1.3 for CALL. -/
theorem test_call_ret :
    (tick ⟨0x16, 0x00, 0x00, 0x02, 0x00⟩ { State.reset with ip := 3 }).map (fun t => (t.ip, t.sp, t.stack)) =
        some (8, 2, [(0, 0x04)]) ∧
      (tick ⟨0x17, 0x00, 0x00, 0x00, 0x00⟩ { State.reset with sp := 2, stack := [(0, 0x03), (1, 0x02)] }).map
        (fun t => (t.ip, t.sp)) = some (0x0203, 0) := by decide +kernel

theorem test_call_ret_faults :
    (tick ⟨0x16, 0x00, 0x00, 0x02, 0x00⟩ { State.reset with sp := 63 }).map (fun t => (faultOf t, t.sp)) =
        some ((true, 0x03), 63) ∧
      (tick ⟨0x17, 0x00, 0x00, 0x00, 0x00⟩ { State.reset with sp := 1 }).map (fun t => (faultOf t, t.sp)) =
        some ((true, 0x02), 1) := by decide +kernel

/-- JMP with a negative offset from slot 0 wraps to 0xFFFF (R221); LOOP counts no register (R222). -/
theorem test_jmp_loop :
    (tick ⟨0x18, 0x02, 0x00, 0x06, 0xFF⟩ State.reset).map (fun t => t.ip) = some 0xFFFF ∧
      (tick ⟨0x19, 0x01, 0x00, 0x02, 0x00⟩ (withRegs [0, 0, 5, 0, 0])).map (fun t => (t.ip, t.named .c)) =
        some (3, 5) := by decide +kernel

/-- Taken and not taken; an untaken jump ignores a bad label index (D14). -/
theorem test_conditional_jumps :
    (tick ⟨0x1A, 0x00, 0x00, 0x02, 0x00⟩ { State.reset with zero := true }).map (fun t => t.ip) = some 8 ∧
      (tick ⟨0x1A, 0x09, 0x00, 0x02, 0x00⟩ State.reset).map (fun t => (t.ip, t.fault)) = some (1, false) ∧
      (tick ⟨0x1A, 0x09, 0x00, 0x02, 0x00⟩ { State.reset with zero := true }).map (fun t => (t.ip, faultOf t)) =
        some (1, true, 0x05) ∧
      (tick ⟨0x1B, 0x00, 0x00, 0x02, 0x00⟩ { State.reset with zero := true }).map (fun t => t.ip) = some 8 ∧
      (tick ⟨0x1C, 0x00, 0x00, 0x02, 0x00⟩ State.reset).map (fun t => t.ip) = some 8 ∧
      (tick ⟨0x1D, 0x00, 0x00, 0x02, 0x00⟩ { State.reset with zero := true }).map (fun t => t.ip) = some 1 ∧
      (tick ⟨0x1E, 0x00, 0x00, 0x02, 0x00⟩ { State.reset with carry := true }).map (fun t => t.ip) = some 8 ∧
      (tick ⟨0x1F, 0x00, 0x00, 0x02, 0x00⟩ { State.reset with carry := true }).map (fun t => t.ip) = some 1 := by
  decide +kernel

/-- VEC 1.8. -/
theorem test_djnz :
    (tick ⟨0x20, 0x02, 0x01, 0x20, 0x00⟩ (withRegs [0, 0, 2, 0, 0])).map (fun t => (t.named .c, t.zero, t.ip)) =
        some (1, false, 3) ∧
      (tick ⟨0x20, 0x02, 0x01, 0x20, 0x00⟩ (withRegs [0, 0, 1, 0, 0])).map (fun t => (t.named .c, t.zero, t.ip)) =
        some (0, true, 1) := by decide +kernel

/-- Slot 1's own offset flag counts, slot 0's does not (D15); a bad label index leaves the decrement (R229). -/
theorem test_djnz_target :
    (tick ⟨0x20, 0x02, 0x01, 0x24, 0x02⟩ (withRegs [0, 0, 9, 0, 0])).map (fun t => t.ip) = some 3 ∧
      (tick ⟨0x20, 0x02, 0x09, 0x20, 0x00⟩ (withRegs [0, 0, 9, 0, 0])).map (fun t => (t.named .c, t.ip, faultOf t)) =
        some (8, 1, true, 0x05) := by decide +kernel

theorem test_flag_instructions :
    (tick ⟨0x21, 0, 0, 0, 0⟩ { State.reset with zero := true }).map flags = some (false, false, false) ∧
      (tick ⟨0x22, 0, 0, 0, 0⟩ State.reset).map flags = some (true, false, false) ∧
      (tick ⟨0x23, 0, 0, 0, 0⟩ { State.reset with carry := true }).map flags = some (false, false, false) ∧
      (tick ⟨0x24, 0, 0, 0, 0⟩ State.reset).map flags = some (false, false, true) := by decide +kernel

theorem test_wfe_hlt_nop :
    (tick ⟨0x25, 0, 0, 0, 0⟩ State.reset).map (fun t => (t.wait, t.ip, t.fault)) = some (true, 1, false) ∧
      (tick ⟨0x26, 0, 0, 0, 0⟩ State.reset).map (fun t => (t.ip, faultOf t)) = some (1, true, 0x07) ∧
      (tick ⟨0x27, 0, 0, 0, 0⟩ State.reset).map (fun t => (t.ip, faultOf t)) = some (1, false, 0x00) := by
  decide +kernel

/-- VEC 2.7: the signed base (D5), label operands (R89), and `ADD [A], 1` (R93). -/
theorem test_operands :
    (tick ⟨0x00, 0x01, 0x00, 0xC0, 0x7F⟩ (withRegs [0x80, 1, 0, 0, 0])).map faultOf = some (true, 0x06) ∧
      (tick ⟨0x00, 0x01, 0x00, 0x60, 0x01⟩ (withRegs [0, 1, 0, 0, 0])).map (fun t => t.named .b) = some 0xA6 ∧
      (tick ⟨0x00, 0x01, 0x02, 0x60, 0xFF⟩ (withRegs [0, 1, 0, 0, 0])).map faultOf = some (true, 0x05) ∧
      (tick ⟨0x00, 0x00, 0x01, 0x18, 0x00⟩ { withRegs [3, 0, 0, 0, 0] with stack := [(3, 0x40)] }).map
        (fun t => (t.named .a, t.stack)) = some (0x41, [(3, 0x40)]) := by decide +kernel

/-! ### The engine, the host's inputs and the snapshot (VEC 2.8 and 2.9) -/

/-- VEC E3 and E6: a single step of a waiting core, and the clamp. -/
theorem test_engine_step_and_clamp :
    (tick (nop 0) { State.reset with wait := true, stepReq := true }).map (fun t => (t.ip, t.stepReq, t.wait)) =
        some (1, false, true) ∧
      (tick (nop 0) { State.reset with ip := 0xFFFF }).map (fun t => (t.ip, t.fault)) = some (1, false) := by
  decide +kernel

/-- VEC E5: the fetch fault leaves `ip` and `ir`. -/
theorem test_engine_fetch_fault :
    (tick (nop 0) { State.reset with ip := 12 }).map (fun t => (t.ip, t.ir, faultOf t)) =
      some (12, none, true, 0x04) := by decide +kernel

/-- VEC E9: a wake does not clear a fault. -/
theorem test_engine_wake_of_a_faulted_core :
    ({ State.reset with fault := true, wait := true } : State).wake.tickReturns = false := by decide

/-- VEC S3: the flags word. -/
theorem test_flags_word :
    ({ State.reset with ip := 0xFFFF, sp := 64, carry := true, wait := true } : State).packFlags =
      0xFFFF400000000018 := by decide +kernel

/-- A snapshot with a flags word and registers, all else empty. -/
def snapshot (word : BitVec 64) (regs : List Byte) : Snapshot :=
  ⟨Vector.replicate 64 0x00, regs, 0x00, word, some "", [], []⟩

/-- VEC S7 and S6: missing registers are zero, unused bits are ignored. -/
theorem test_restore :
    ((State.restore (snapshot 0x0003020000000010 [0x01, 0x02]) State.reset).ip,
        (State.restore (snapshot 0x0003020000000010 [0x01, 0x02]) State.reset).regs) =
        (0x0003, [0x01, 0x02, 0x00, 0x00, 0x00]) ∧
      State.restore (snapshot 0x00000000FFFFFFE0 []) State.reset = State.reset := by decide +kernel

/-- VEC S8: refused, and nothing changes. -/
theorem test_restore_refuses :
    State.restore (snapshot 0 [1, 2, 3, 4, 5, 6]) State.reset = State.reset ∧
      State.restore (snapshot 0x0000410000000000 []) State.reset = State.reset := by decide +kernel

/-! ### Another configuration (00_scope.md R5, log 23) -/

/-- The bytes of ADD and SUB and those of NOMINAL and HALTED exchanged, INTERNAL_FAULT_CODE at OUT_OF_BOUNDS, seven
registers with PORTS at 0, B at 1, A at 2, C at 3 and D at 5 (so that 4 and 6 have no name), the quotient rounded down, and
CMP's `overflow` never set. -/
def other : Config.Parameters where
  opcodeMap op := opcodeMap (if op = .add then .sub else if op = .sub then .add else op)
  faultCodeMap c := Config.faultCodeMap (if c = .nominal then .halted else if c = .halted then .nominal else c)
  internalFaultCode := .outOfBounds
  numRegs := 7
  registerIndex
    | .ports => 0
    | .b => 1
    | .a => 2
    | .c => 3
    | .d => 5
  quotient a b := (s8 a).fdiv (s8 b)
  compareOverflow _ _ := false
  opcodeMap_injective a b h := by
    have := Config.opcodeMap_injective h
    cases a <;> cases b <;> simp_all
  faultCodeMap_injective a b h := by
    have := Config.faultCodeMap_injective h
    cases a <;> cases b <;> simp_all
  registerIndex_injective r q h := by cases r <;> cases q <;> simp_all
  registerIndex_lt r := by cases r <;> decide

/-- The state after one tick of a record on the set-up, under `other`. -/
def tickOther (r : Record) (s : State) : Option State :=
  match stepWith other (harness r s) with
  | .next t => some t
  | .fault _ => none
  | .refused _ => none

/-- Byte 0x01 is ADD, index 2 is A and index 6 a register without a name; -7 / 2 is -4; CMP of -128 and 1 leaves
`overflow` 0. -/
theorem test_configured_operations :
    (tickOther ⟨0x01, 0x02, 0x06, 0x00, 0x00⟩ (withRegs [0, 0, 0x02, 0, 0, 0, 0x05])).map (fun t => t.regs) =
        some [0, 0, 0x07, 0, 0, 0, 0x05] ∧
      (tickOther ⟨0x01, 0x06, 0x05, 0x10, 0x00⟩ (withRegs [0, 0, 0, 0, 0, 0, 0x02])).map (fun t => t.regs) =
        some [0, 0, 0, 0, 0, 0, 0x07] ∧
      (tickOther ⟨0x03, 0x02, 0x00, 0x01, 0x00⟩ (withRegs [0, 0, 0xF9, 0, 0, 0, 0])).map (fun t => t.regs) =
        some [0, 0, 0xFC, 0, 0, 0, 0] ∧
      (tickOther ⟨0x08, 0x80, 0x01, 0x11, 0x00⟩ State.reset).map flags = some (false, false, true) := by decide +kernel

/-- HALTED is byte 0x00, an undefined opcode records OUT_OF_BOUNDS, and reset gives NOMINAL's byte 0x07. -/
theorem test_configured_faults :
    (tickOther ⟨0x26, 0x00, 0x00, 0x00, 0x00⟩ State.reset).map faultOf = some (true, 0x00) ∧
      (tickOther ⟨0x28, 0x00, 0x00, 0x00, 0x00⟩ State.reset).map faultOf = some (true, 0x06) ∧
      (State.reset.hardReset 0x00 other).faultCode = 0x07 := by decide +kernel

/-- PUSHA pushes the four general registers in ascending index order, B before A, and no other register; POPA gives them
back; a snapshot lists all seven registers by index, and a shorter array is filled to seven. -/
theorem test_configured_registers :
    (tickOther ⟨0x14, 0x00, 0x00, 0x00, 0x00⟩ (withRegs [9, 1, 2, 3, 8, 4, 7])).map (fun t => t.stack) =
        some [(0, 1), (1, 2), (2, 3), (3, 4)] ∧
      (tickOther ⟨0x15, 0x00, 0x00, 0x00, 0x00⟩
        { withRegs [9, 0, 0, 0, 8, 0, 7] with sp := 4, stack := [(0, 1), (1, 2), (2, 3), (3, 4)] }).map
        (fun t => t.regs) = some [9, 1, 2, 3, 8, 4, 7] ∧
      (withRegs [9, 1, 2, 3, 8, 4, 7]).save.registers = [9, 1, 2, 3, 8, 4, 7] ∧
      (State.restore (snapshot 0 [9, 1, 2, 3, 8, 4]) State.reset other).regs = [9, 1, 2, 3, 8, 4, 0] := by decide +kernel

/-- Reset gives seven registers, 0x00 but PORTS, and the host's PORTS write goes to index 0. -/
theorem test_configured_reset :
    (State.reset.hardReset 0x0F other).regs = [0x0F, 0, 0, 0, 0, 0, 0] ∧
      (State.writePorts 0x5A (State.reset.hardReset 0x0F other) other).readPorts other = 0x5A := by decide +kernel

/-! ### Witnesses: for each statement with hypotheses, states and operands that meet them, for each clause at a boundary -/

/-- A state on the set-up, the record under test at slot 0. -/
def base : State := harness (nop 0x00) State.reset

/-- A full stack, an empty one and the counts between are this state with another `sp`. -/
def atSp (sp : Byte) : State := { base with sp := sp }

theorem witness_EncodeOfDecodeKeepsUsedFields :
    decode ⟨0x27, 0x5A, 0x01, 0xFF, 0x80⟩ = .ok .nop ∧ decode ⟨0x02, 0x07, 0x99, 0xF1, 0x00⟩ = .ok (.mul (lit 7) 0) := by
  decide +kernel

theorem witness_DecoderRejectsExactlyUndefinedOpcodes :
    (nop 0x00).opcode.toNat < 0x28 ∧ 0x28 ≤ (Record.mk 0x28 0 0 0 0).opcode.toNat := by decide

/-- A running core at slot 0, a waiting one with a step request, and a negative `ip`. -/
theorem witness_StepRunsTheDecodedInstruction :
    (base.fault = false ∧ base.wait = false ∧
        base.prog[(if 0x8000 ≤ base.ip.toNat then 0x0000 else base.ip).toNat]? = some (nop 0x00)) ∧
      (({ base with wait := true, stepReq := true } : State).fault = false ∧
        ({ base with wait := true, stepReq := true } : State).stepReq = true) ∧
      (0x8000 ≤ ({ base with ip := 0x8000 } : State).ip.toNat ∧
        base.prog[(0x0000 : SlotAddr).toNat]? = some (nop 0x00)) ∧
      decode (nop 0x00) = .ok .nop ∧ decode (nop 0x00) other = .ok .nop := by decide +kernel

/-- Both ways to be halted. -/
theorem witness_HaltedTickChangesNothing :
    ({ base with fault := true } : State).fault = true ∧
      (({ base with wait := true } : State).wait = true ∧ ({ base with wait := true } : State).stepReq = false) := by
  decide +kernel

/-- `ip` = PROG_LEN, `ip` = 0x7FFF, and `ip` = 0x8000 with an empty program. -/
theorem witness_FetchOutsideTheProgramFaults :
    (base.fault = false ∧ base.wait = false ∧ base.prog.length ≤ (12 : SlotAddr).toNat) ∧
      base.prog.length ≤ (0x7FFF : SlotAddr).toNat ∧
      (State.reset.fault = false ∧ State.reset.wait = false ∧
        State.reset.prog.length ≤ (if 0x8000 ≤ (0x8000 : SlotAddr).toNat then (0x0000 : SlotAddr) else 0x8000).toNat) := by
  decide +kernel

theorem witness_UndefinedOpcodeFaultsAfterTheFetch :
    (harness ⟨0x28, 0, 0, 0, 0⟩ State.reset).fault = false ∧ (harness ⟨0x28, 0, 0, 0, 0⟩ State.reset).wait = false ∧
      (harness ⟨0x28, 0, 0, 0, 0⟩ State.reset).prog[(0x0000 : SlotAddr).toNat]? = some ⟨0x28, 0, 0, 0, 0⟩ ∧
      0x28 ≤ (Record.mk 0x28 0 0 0 0).opcode.toNat := by decide +kernel

/-- No mnemonic of the other configuration has the byte 0x28 either. -/
theorem witness_UndefinedOpcodeFaultsAfterTheFetch_configured (op : Opcode) : other.opcodeMap op ≠ 0x28 := by
  cases op <;> decide

/-- A single step of a waiting core runs a NOP. -/
theorem witness_TickConsumesTheStepRequest :
    ({ base with wait := true, stepReq := true } : State).fault = false ∧
      ({ base with wait := true, stepReq := true } : State).stepReq = true ∧
      step { base with wait := true, stepReq := true } =
        .next { base with wait := true, ip := 1, ir := some (nop 0x00) } := by
  repeat' apply And.intro
  all_goals rfl

/-- An instruction that is no control transfer, and one that faults. -/
theorem witness_OnlyControlTransfersMoveIp :
    (exec .nop base = .next base ∧ Instr.opcode .nop ∉ [Opcode.jmp, .loop, .jz, .je, .jnz, .jne, .jc, .jnc, .djnz, .call, .ret]) ∧
      (base.fault = false ∧ exec .ret base = .next { base with fault := true, faultCode := 0x02 }) := by
  repeat' apply And.intro
  all_goals first | rfl | decide +kernel

/-- MOV lists no flag. -/
theorem witness_UnlistedFlagsKeepTheirValue :
    exec (.mov (reg 1) (lit 0) 0) { base with zero := true, overflow := true, carry := true } =
      .next { base with zero := true, overflow := true, carry := true } := by
  rfl

/-- ADD to B may not write A, nor PORTS. -/
theorem witness_OnlyDestinationRegistersChange :
    exec (.add (reg 1) (lit 1) 0) base = .next { base with regs := [0, 1, 0, 0, 0] } ∧
      mayWriteReg (.add (reg 1) (lit 1) 0) 0 = false ∧ mayWriteReg (.add (reg 1) (lit 1) 0) 4 = false := by
  repeat' apply And.intro
  all_goals rfl

/-- PUSH stores at `sp` = 63, so not at 62; CALL at 62 and 63, so not at 61. -/
theorem witness_OnlyStoredCellsChange :
    exec (.push (lit 7) 0) (atSp 63) = .next { atSp 64 with stack := [(63, 7)] } ∧
      mayStore (.push (lit 7) 0) (atSp 63) 62 = false ∧ mayStore (.push (lit 7) 0) (atSp 63) 63 = true ∧
      exec (.call (lab 0) 0) { atSp 62 with ip := 4 } = .next { atSp 64 with ip := 8, stack := [(62, 4)] } ∧
      mayStore (.call (lab 0) 0) (atSp 62) 61 = false := by
  repeat' apply And.intro
  all_goals rfl

theorem witness_OtherStateIsWrittenOnlyByItsWriters :
    exec .sec base = .next { base with carry := true } ∧ Instr.opcode .sec ≠ .wfe ∧
      Instr.opcode .sec ∉ [Opcode.push, .pop, .pusha, .popa, .call, .ret] ∧
      ({ base with carry := true } : State).fault = false := by
  repeat' apply And.intro
  all_goals first | rfl | decide +kernel

theorem witness_FaultsChangeNothingElse :
    Instr.opcode (.div (lit 0) 0) ∉ [Opcode.pusha, .popa, .djnz] ∧ base.fault = false ∧
      exec (.div (lit 0) 0) base = .next { base with fault := true, faultCode := 0x01 } := by
  repeat' apply And.intro
  all_goals first | rfl | decide +kernel

/-- One instruction for each code that a clause names; an indirect literal of index 64 for OUT_OF_BOUNDS, a bad register
index for CODE_ERROR. -/
theorem witness_FaultCodesComeFromTheirRaisers :
    base.fault = false ∧
      exec (.push ⟨0x40, true, false, false, true⟩ 0) base = .next { base with fault := true, faultCode := 0x06 } ∧
      exec (.pop (reg 5) 0) base = .next (base.raise .internal) ∧ (base.raise .internal).faultCode = 0x05 ∧ exec (.div (lit 0) 0) base = .next { base with fault := true, faultCode := 0x01 } ∧
      exec .popa base = .next { base with fault := true, faultCode := 0x02 } ∧
      exec .pusha (atSp 64) = .next { atSp 64 with fault := true, faultCode := 0x03 } ∧
      exec .hlt base = .next { base with fault := true, faultCode := 0x07 } := by
  repeat' apply And.intro
  all_goals rfl

/-- The six clauses: a bad destination, a bad slot 0, a bad slot 1, and the same for the forms without a destination. -/
theorem witness_OperandFaultsComeFirst :
    dst (reg 5) = .error .internal ∧
      (dst (ind 0) = .ok 0 ∧ resolve (ind 0) 0 { base with regs := [0x40, 0, 0, 0, 0] } = .error (.code .outOfBounds)) ∧
      (dst (reg 4) = .ok 4 ∧ resolve (reg 4) 0 base = .ok 0x00 ∧ resolve (lab 4) 0 base = .error .internal) := by
  decide +kernel

/-- `atSp 63` as a state of the other configuration, with its seven registers. -/
def otherAtSp (sp : Byte) : State := { atSp sp with regs := [9, 1, 2, 3, 8, 4, 7] }

/-- The step that fills the stack meets the premises. -/
theorem witness_EveryStepKeepsTheInvariant :
    (harness ⟨0x12, 0x07, 0x00, 0x01, 0x00⟩ (atSp 63)).inv = true ∧
      (tick ⟨0x12, 0x07, 0x00, 0x01, 0x00⟩ (atSp 63)).map (fun t => (t.sp, t.inv)) = some (64, true) ∧
      (harness ⟨0x12, 0x07, 0x00, 0x01, 0x00⟩ (otherAtSp 63)).inv other = true ∧
      (tickOther ⟨0x12, 0x07, 0x00, 0x01, 0x00⟩ (otherAtSp 63)).map (fun t => (t.sp, t.inv other)) = some (64, true) := by
  decide +kernel

theorem witness_HostInputsKeepTheInvariant : (atSp 64).inv = true ∧ (otherAtSp 64).inv other = true := by decide +kernel

theorem witness_EveryReachableStateMeetsTheInvariant : Reachable 0x00 State.reset := .start

/-- A program with a label operand, a jump and a HLT meets the boot precondition, and its first tick answers. -/
theorem witness_WellFormedProgramRaisesNoInternalFault :
    programWellFormed [⟨0x00, 0x00, 0x00, 0x20, 0x00⟩, ⟨0x18, 0x00, 0x00, 0x02, 0x00⟩, ⟨0x26, 0x07, 0x00, 0x00, 0x00⟩]
        [⟨"L0", 2⟩] = true ∧
      step { State.reset with
          prog := [⟨0x00, 0x00, 0x00, 0x20, 0x00⟩, ⟨0x18, 0x00, 0x00, 0x02, 0x00⟩, ⟨0x26, 0x07, 0x00, 0x00, 0x00⟩]
          labels := [⟨"L0", 2⟩] } =
        .next { State.reset with
          prog := [⟨0x00, 0x00, 0x00, 0x20, 0x00⟩, ⟨0x18, 0x00, 0x00, 0x02, 0x00⟩, ⟨0x26, 0x07, 0x00, 0x00, 0x00⟩]
          labels := [⟨"L0", 2⟩]
          ip := 1
          ir := some ⟨0x00, 0x00, 0x00, 0x20, 0x00⟩
          regs := [0x07, 0, 0, 0, 0] } := by
  repeat' apply And.intro
  all_goals rfl

/-- A literal slot, the last register and the first index past it, also of seven registers. -/
theorem witness_RegisterAndLiteralOperandValues :
    ((lit 0xFF).label = false ∧ (lit 0xFF).indirect = false ∧ (lit 0xFF).literal = true) ∧
      ((reg 4).label = false ∧ (reg 4).indirect = false ∧ (reg 4).literal = false ∧ (reg 4).raw = 0x04) ∧
      ((reg 5).literal = false ∧ 5 ≤ (reg 5).raw.toNat) ∧
      ((reg 6).raw.toNat < other.numRegs ∧ other.numRegs ≤ (reg 7).raw.toNat) := by decide

/-- A label with the indirect flag; the first index past the table; a label at slot 8 and slot 11, and past both ends. -/
theorem witness_LabelOperandValues :
    ((Slot.mk 0 false true false true).label = true ∧ (Slot.mk 0 false true false true).indirect = true) ∧
      ((lab 4).label = true ∧ (lab 4).indirect = false ∧ base.labels.length ≤ (lab 4).raw.toNat) ∧
      (base.labels[(labOff 0).raw.toNat]? = some ⟨"L0", 8⟩ ∧
        ((11 : Int) = ((8 : SlotAddr).toNat : Int) + (if (labOff 0).hasOffset then (3 : Byte).toInt else 0)) ∧
        base.prog[(11 : Int).toNat]? = some (nop 0x00)) ∧
      ((12 : Int) = ((8 : SlotAddr).toNat : Int) + (if (labOff 0).hasOffset then (4 : Byte).toInt else 0) ∧
        (base.prog.length : Int) ≤ 12) ∧
      (base.labels[(labOff 2).raw.toNat]? = some ⟨"L2", 0⟩ ∧
        ((-1 : Int) = ((0 : SlotAddr).toNat : Int) + (if (labOff 2).hasOffset then (0xFF : Byte).toInt else 0))) := by
  decide +kernel

/-- A bad base register; bases 0 and 63, and with an offset the indices -1 and 64. -/
theorem witness_IndirectOperandValues :
    ((ind 5).label = false ∧ (ind 5).indirect = true ∧ (ind 5).literal = false ∧ 5 ≤ (ind 5).raw.toNat) ∧
      (resolve { indOff 0 with indirect := false } 0x3F base = .ok 0x00 ∧
        (63 : Int) = (0x00 : Byte).toInt + (if (indOff 0).hasOffset then (0x3F : Byte).toInt else 0)) ∧
      (64 : Int) = (0x00 : Byte).toInt + (if (indOff 0).hasOffset then (0x40 : Byte).toInt else 0) ∧
      (0 : Int) = (0x00 : Byte).toInt + (if (ind 0).hasOffset then (0x40 : Byte).toInt else 0) ∧
      (-1 : Int) = (0x00 : Byte).toInt + (if (indOff 0).hasOffset then (0xFF : Byte).toInt else 0) := by decide +kernel

theorem witness_ControlTransferTargets :
    base.labels[(labOff 3).raw.toNat]? = some ⟨"L3", 0x7FFF⟩ ∧ base.labels.length ≤ (lab 4).raw.toNat := by decide

/-- The operands of the results of formats DS, D, S and SS: PORTS as destination, a literal, both signs. -/
theorem witness_operands_of_results :
    dst (reg 4) = .ok 4 ∧ resolve (reg 4) 0 base = .ok 0x00 ∧ resolve (lit 0x80) 0 base = .ok 0x80 ∧
      resolve (lit 0x00) 0 base = .ok 0x00 ∧ resolve (lit 0xFF) 0 base = .ok 0xFF := by decide +kernel

theorem witness_DivResultAndDivisionByZero :
    (resolve (lit 0xFF) 0 base = .ok 0xFF ∧ (0xFF : Byte) ≠ 0x00) ∧ resolve (lit 0x00) 0 base = .ok 0x00 := by
  decide +kernel

/-- Amounts at 8 and past it. -/
theorem witness_ShiftResults :
    dst (reg 3) = .ok 3 ∧ resolve (reg 3) 0 base = .ok 0x00 ∧
      (resolve (lit 8) 0 base = .ok 8 ∧ 8 = min (8 : Byte).toNat 8) ∧
      (resolve (lit 0xFF) 0 base = .ok 0xFF ∧ 8 = min (0xFF : Byte).toNat 8) := by decide +kernel

/-- MOV's destinations: register, bad index, label. -/
theorem witness_MoveToRegisterOrLabel :
    resolve (lit 7) 0 base = .ok 7 ∧
      ((reg 0).indirect = false ∧ (reg 0).label = false ∧ dst (reg 0) = .ok 0) ∧
      ((reg 5).indirect = false ∧ (reg 5).label = false ∧ 5 ≤ (reg 5).raw.toNat) ∧
      ((lab 0).indirect = false ∧ (lab 0).label = true) := by decide +kernel

/-- MOV's cells: index 63, index 64, and a label with the indirect flag. -/
theorem witness_MoveToMemory :
    base.inv = true ∧ resolve (lit 7) 0x3F base = .ok 7 ∧
      ((indOff 0).indirect = true ∧ (indOff 0).label = false ∧ index (indOff 0) 0x3F base = .ok 63) ∧
      index (indOff 0) 0x40 base = .error (.code .outOfBounds) ∧
      ((Slot.mk 0 false true false true).indirect = true ∧ (Slot.mk 0 false true false true).label = true) := by
  decide +kernel

/-- The last free cell, and a full stack. -/
theorem witness_PushResult :
    ((atSp 63).inv = true ∧ (atSp 63).sp.toNat ≤ 63 ∧ resolve (lit 7) 0 (atSp 63) = .ok 7) ∧
      ((atSp 64).inv = true ∧ (atSp 64).sp.toNat = 64 ∧ resolve (lit 7) 0 (atSp 64) = .ok 7) := by decide +kernel

/-- One byte, none, and a bad register. -/
theorem witness_PopResult :
    (dst (reg 4) = .ok 4 ∧ 1 ≤ (atSp 1).sp.toNat) ∧ (atSp 0).sp.toNat = 0 ∧ 5 ≤ (reg 5).raw.toNat ∧
      (lit 4).raw = (reg 4).raw := by decide

/-- Four free cells, three, and none. -/
theorem witness_PushaResult :
    ((atSp 60).inv = true ∧ (atSp 60).sp.toNat ≤ 60 ∧ (atSp 60).sp.toNat + 3 < 64) ∧
      ((atSp 61).inv = true ∧ 60 < (atSp 61).sp.toNat ∧ (atSp 61).sp.toNat + 2 < 64) ∧
      ((atSp 64).inv = true ∧ 60 < (atSp 64).sp.toNat) := by decide +kernel

theorem witness_PopaResult :
    ((atSp 4).inv = true ∧ 4 ≤ (atSp 4).sp.toNat) ∧ ((atSp 3).inv = true ∧ (atSp 3).sp.toNat < 4) := by decide +kernel

/-- Two free cells, one, and a bad label. -/
theorem witness_CallResult :
    ((atSp 62).inv = true ∧ target (lab 0) 0 (atSp 62) = .ok 8 ∧ (atSp 62).sp.toNat ≤ 62) ∧
      ((atSp 63).inv = true ∧ target (lab 0) 0 (atSp 63) = .ok 8 ∧ 63 ≤ (atSp 63).sp.toNat) ∧
      (atSp 63).labels.length ≤ (lab 4).raw.toNat := by decide +kernel

theorem witness_RetResult : 2 ≤ (atSp 2).sp.toNat ∧ (atSp 1).sp.toNat ≤ 1 := by decide

theorem witness_PushThenPopRestoresTheByte :
    (atSp 63).inv = true ∧ (atSp 63).sp.toNat ≤ 63 ∧ resolve (lit 7) 0 (atSp 63) = .ok 7 ∧ dst (reg 1) = .ok 1 := by
  decide +kernel

theorem witness_PushaThenPopaRestoresTheRegisters :
    ((atSp 60).sp.toNat ≤ 60 ∧ (atSp 60).inv = true ∧ ([1, 2, 3, 4, 5] : Regs).length = 5) ∧
      ((otherAtSp 60).sp.toNat ≤ 60 ∧ (otherAtSp 60).inv other = true ∧
        ([1, 2, 3, 4, 5, 6, 7] : Regs).length = other.numRegs ∧
        (∀ r : Reg, r ≠ .ports → 6 ≠ r.index other)) := by
  refine ⟨by decide +kernel, by decide +kernel, by decide +kernel, by decide, fun r _ => by cases r <;> decide⟩


theorem witness_CallThenRetReturnsAfterTheCall :
    (atSp 62).inv = true ∧ (atSp 62).sp.toNat ≤ 62 ∧ target (lab 1) 0 (atSp 62) = .ok 3 := by decide +kernel

theorem witness_JumpAndLoopGoToTheirTarget :
    target (labOff 2) 0xFF base = .ok 0xFFFF ∧ base.labels.length ≤ (lab 4).raw.toNat := by decide +kernel

/-- Each flag in both values, with a good and a bad label. -/
theorem witness_ConditionalJumpsTestTheirFlag :
    target (lab 0) 0 base = .ok 8 ∧ base.labels.length ≤ (lab 4).raw.toNat ∧
      (({ base with zero := true } : State).zero = true ∧ base.zero = false) ∧
      (({ base with carry := true } : State).carry = true ∧ base.carry = false) := by decide +kernel

/-- The counts 1, 2 and 0. -/
theorem witness_DecrementAndJumpIfNotZero :
    (dst (reg 2) = .ok 2 ∧ resolve (reg 2) 0 { base with regs := [0, 0, 1, 0, 0] } = .ok 0x01) ∧
      (resolve (reg 2) 0 { base with regs := [0, 0, 2, 0, 0] } = .ok 0x02 ∧ target (lab 1) 0 base = .ok 3) ∧
      (resolve (reg 2) 0 base = .ok 0x00 ∧ base.labels.length ≤ (lab 4).raw.toNat) := by decide +kernel

theorem witness_WaitForEventWaits : base.stepReq = false := by decide

theorem witness_HaltHalts : exec .hlt base = .next { base with fault := true, faultCode := 0x07 } := by
  rfl

theorem witness_WakeStepRequestAndPortsWrite :
    ({ base with wait := true } : State).fault = false ∧ ({ base with fault := true } : State).fault = true ∧
      base.inv = true ∧ (otherAtSp 0).inv other = true := by decide +kernel

theorem witness_RestoreOfSaveIsTheSameState :
    ({ atSp 64 with diag := some "" } : State).inv = true ∧ (otherAtSp 64).inv other = true := by decide +kernel

/-- Indices without a name and past the end. -/
theorem witness_LoadResetsEverythingAndInstalls : 6 ≠ Reg.ports.index other ∧ 7 ≠ Reg.ports.index other := by decide

/-- Five registers and `sp` = 64 are taken, six or `sp` = 65 refused. -/
theorem witness_RestoreRefusesOrTakesTheSnapshot :
    ((snapshot 0x0000400000000000 [1, 2, 3, 4, 5]).registers.length ≤ 5 ∧
        ((snapshot 0x0000400000000000 [1, 2, 3, 4, 5]).flags.extractLsb' 40 8).toNat ≤ 64) ∧
      5 < (snapshot 0 [1, 2, 3, 4, 5, 6]).registers.length ∧
      64 < ((snapshot 0x0000410000000000 []).flags.extractLsb' 40 8).toNat := by decide +kernel

end Sys2Proof.Tests
end

