-- ==== Sys2Proof/Proofs/Engine.lean ====
section
/-!
PROOFS. Sys2Proof/Proofs/Engine.lean: the tick before the dispatch (40_engine.md R120 to R127).
-/

namespace Sys2Proof.Proofs

open Sys2Proof.Machine

/-- The two ways to be halted (40_engine.md R121). -/
theorem halted_iff (s : State) : s.halted = true ↔ s.fault = true ∨ s.wait = true ∧ s.stepReq = false := by
  simp only [State.halted, Bool.or_eq_true, Bool.and_eq_true, Bool.not_eq_true']

/-- Only the first of the cases of a tick is one of a halted core (40_engine.md R120, R121). -/
theorem step_of_halted {s : State} (h : s.halted = true) : step s = .next s := by
  obtain ⟨-, hstep⟩ | ⟨hrun, -⟩ | ⟨_, _, hrun, -⟩ | ⟨_, _, hrun, -⟩ := step_cases s
  case inl => exact hstep
  all_goals simp [h] at hrun

/-- A tick returns false from the halt check and from nowhere else (40_engine.md R127, D22). -/
theorem tickReturns_eq_false_iff (s : State) : s.tickReturns = false ↔ s.halted = true := by
  simp only [State.tickReturns, Bool.not_eq_false']

/-- Settles O7: both ways to be halted are the halt check, which ends the tick on the state it began with. -/
theorem haltedTickChangesNothing : Obligations.HaltedTickChangesNothing := by
  intro s h
  have hh : s.halted = true := (halted_iff s).mpr h
  exact ⟨step_of_halted hh, (tickReturns_eq_false_iff s).mpr hh⟩

end Sys2Proof.Proofs
end

