-- ==== Sys2Proof/Proofs/StackCall.lean ====
section
/-!
PROOFS. Sys2Proof/Proofs/StackCall.lean: what a sequence of pushes does to `sp`, to the cells and to the rest of the state
(44_stack_call.md R200, R203, R266), for any bytes and any configuration, and PUSHA as its case of four bytes.
-/

namespace Sys2Proof.Proofs

open Sys2Proof.Machine

variable {cfg : Config.Parameters}

/-! ### One push in the sequence -/

/-- The state after a push that has a free cell (R200). -/
def pushed (s : State) (v : Byte) : State := (s.memWrite (u8 s.sp) v).setSp (s.sp + 1)

theorem push_of_free {s : State} (h : u8 s.sp < 64) (v : Byte) : s.push v = .ok (pushed s v) :=
  State.push_ok_iff.2 ⟨h, rfl⟩

theorem pushAll_cons_of_free {s : State} (h : u8 s.sp < 64) (v : Byte) (vs : List Byte) :
    s.pushAll (v :: vs) cfg = (pushed s v).pushAll vs cfg := by
  rw [State.pushAll_cons, if_pos h, pushed]

theorem pushAll_cons_of_full {s : State} (h : 64 ≤ u8 s.sp) (v : Byte) (vs : List Byte) :
    s.pushAll (v :: vs) cfg = s.raise (.code .stackOverflow) cfg := by
  rw [State.pushAll_cons, if_neg (by omega)]

theorem inv_pushed {s : State} (hs : s.inv cfg = true) (h : u8 s.sp < 64) (v : Byte) : (pushed s v).inv cfg = true :=
  State.inv_push hs (push_of_free h v)

theorem u8_pushed_sp {s : State} (h : u8 s.sp < 64) (v : Byte) : u8 (pushed s v).sp = u8 s.sp + 1 :=
  u8_add_one h

theorem memRead_pushed_same {s : State} (hs : s.inv cfg = true) (v : Byte) : (pushed s v).memRead (u8 s.sp) = v :=
  State.memRead_memWrite_same s (u8 s.sp) v (State.inv_iff.1 hs).2.1

theorem memRead_pushed_other (s : State) (v : Byte) {idx : Nat} (h : idx ≠ u8 s.sp) :
    (pushed s v).memRead idx = s.memRead idx :=
  State.memRead_memWrite_other s v h

/-! ### The whole sequence -/

/-- `sp` moves up by one for each byte and stops at the end of the memory. -/
theorem u8_sp_pushAll : ∀ (vs : List Byte) {s : State}, s.inv cfg = true →
    u8 (s.pushAll vs cfg).sp = min 64 (u8 s.sp + vs.length)
  | [], s, hs => by
    have hsp : u8 s.sp ≤ 64 := (State.inv_iff.1 hs).1
    simp only [State.pushAll, List.length_nil]
    omega
  | v :: vs, s, hs => by
    rcases Nat.lt_or_ge (u8 s.sp) 64 with hfree | hfull
    · rw [pushAll_cons_of_free hfree, u8_sp_pushAll vs (inv_pushed hs hfree v), u8_pushed_sp hfree, List.length_cons]
      omega
    · have hsp : u8 s.sp ≤ 64 := (State.inv_iff.1 hs).1
      rw [pushAll_cons_of_full hfull, State.raise_sp]
      omega

/-- A cell below the pushed ones, above them or past the memory keeps its byte, whether or not the sequence overflows. -/
theorem memRead_pushAll_other : ∀ (vs : List Byte) {s : State} {idx : Nat},
    idx < u8 s.sp ∨ u8 s.sp + vs.length ≤ idx ∨ 64 ≤ idx → (s.pushAll vs cfg).memRead idx = s.memRead idx
  | [], _, _, _ => rfl
  | v :: vs, s, idx, hidx => by
    rw [List.length_cons] at hidx
    rcases Nat.lt_or_ge (u8 s.sp) 64 with hfree | hfull
    · have hrest : idx < u8 (pushed s v).sp ∨ u8 (pushed s v).sp + vs.length ≤ idx ∨ 64 ≤ idx := by
        rw [u8_pushed_sp hfree]
        omega
      rw [pushAll_cons_of_free hfree, memRead_pushAll_other vs hrest, memRead_pushed_other s v (by omega)]
    · rw [pushAll_cons_of_full hfull]
      rfl

/-- Byte `i` of the sequence stands `i` cells above the first `sp` where that is a cell: a push before an overflow stays, and
no later push comes back to its cell. -/
theorem memRead_pushAll_pushed : ∀ {vs : List Byte} {s : State} {i : Nat} {v : Byte}, s.inv cfg = true →
    vs[i]? = some v → u8 s.sp + i < 64 → (s.pushAll vs cfg).memRead (u8 s.sp + i) = v
  | w :: ws, s, 0, v, hs, hv, hi => by
    obtain rfl : w = v := by simpa using hv
    have hbelow : u8 s.sp < u8 (pushed s w).sp := by
      rw [u8_pushed_sp hi]
      omega
    rw [Nat.add_zero, pushAll_cons_of_free hi, memRead_pushAll_other ws (.inl hbelow), memRead_pushed_same hs]
  | w :: ws, s, i + 1, v, hs, hv, hi => by
    have hfree : u8 s.sp < 64 := by omega
    have hcell : u8 s.sp + (i + 1) = u8 (pushed s w).sp + i := by
      rw [u8_pushed_sp hfree]
      omega
    rw [pushAll_cons_of_free hfree, hcell]
    exact memRead_pushAll_pushed (inv_pushed hs hfree w) (by simpa using hv) (by omega)

/-- With a cell for each byte, the sequence changes the memory and `sp` alone. -/
theorem pushAll_frame_of_free (m : Memory) (p : Byte) : ∀ (vs : List Byte) {s : State}, u8 s.sp + vs.length ≤ 64 →
    { s.pushAll vs cfg with stack := m, sp := p } = { s with stack := m, sp := p }
  | [], _, _ => rfl
  | v :: vs, s, h => by
    rw [List.length_cons] at h
    have hfree : u8 s.sp < 64 := by omega
    rw [pushAll_cons_of_free hfree, pushAll_frame_of_free m p vs (by rw [u8_pushed_sp hfree]; omega)]
    rfl

/-- With fewer cells than bytes, it takes STACK_OVERFLOW as well, and nothing else. -/
theorem pushAll_frame_of_overflow (m : Memory) (p : Byte) : ∀ (vs : List Byte) {s : State}, s.inv cfg = true →
    64 < u8 s.sp + vs.length →
    { s.pushAll vs cfg with stack := m, sp := p } =
      { s.raise (.code .stackOverflow) cfg with stack := m, sp := p }
  | [], s, hs, h => by
    have hsp : u8 s.sp ≤ 64 := (State.inv_iff.1 hs).1
    rw [List.length_nil] at h
    omega
  | v :: vs, s, hs, h => by
    rw [List.length_cons] at h
    rcases Nat.lt_or_ge (u8 s.sp) 64 with hfree | hfull
    · rw [pushAll_cons_of_free hfree,
        pushAll_frame_of_overflow m p vs (inv_pushed hs hfree v) (by rw [u8_pushed_sp hfree]; omega)]
      rfl
    · rw [pushAll_cons_of_full hfull]

/-! ### PUSHA -/

/-- The bytes PUSHA pushes (R203), in their order. -/
def pushaBytes (s : State) : List Byte := [s.named .a, s.named .b, s.named .c, s.named .d]

theorem exec_pusha (s : State) : exec .pusha s = .next (s.pushAll (pushaBytes s)) := execPusha_parameters s

/-- Settles O40: PUSHA is a sequence of four pushes, so each clause is what that sequence does to `sp`, to the cells or to the
rest of the state. -/
theorem pushaResult : Obligations.PushaResult := by
  intro s hs
  have hcell {i : Nat} {v : Byte} (hv : (pushaBytes s)[i]? = some v) (hi : s.sp.toNat + i < 64) :
      (s.pushAll (pushaBytes s)).memRead (s.sp.toNat + i) = v :=
    memRead_pushAll_pushed hs hv hi
  refine ⟨s.pushAll (pushaBytes s), exec_pusha s, u8_sp_pushAll _ hs, ?a, ?b, ?c, ?d, ?other, ?free, ?overflow⟩
  case a => exact hcell (i := 0) rfl
  case b => exact hcell (i := 1) rfl
  case c => exact hcell (i := 2) rfl
  case d => exact hcell (i := 3) rfl
  case other => exact fun idx => memRead_pushAll_other (pushaBytes s)
  case free => exact fun h => pushAll_frame_of_free _ _ _ (Nat.add_le_add_right h 4)
  case overflow => exact fun h => pushAll_frame_of_overflow _ _ _ hs (Nat.add_lt_add_right h 4)

end Sys2Proof.Proofs
end

