-- ==== Sys2Proof/Proofs/FlagSystem.lean ====
section
/-!
PROOFS. Sys2Proof/Proofs/FlagSystem.lean: HLT (46_flag_system.md R245). It ends in the fault HALTED, and neither a tick nor a
wake nor a step request clears `fault`.
-/

namespace Sys2Proof.Proofs

open Sys2Proof.Machine

@[simp] theorem wake_fault (s : State) : s.wake.fault = s.fault := rfl

@[simp] theorem requestStep_fault (s : State) : s.requestStep.fault = s.fault := rfl

/-- A faulted core is halted whatever `wait` and the step request are (40_engine.md R121). -/
theorem step_of_fault {s : State} (h : s.fault = true) : step s = .next s :=
  step_of_halted ((halted_iff s).mpr (.inl h))

theorem exec_hlt (s : State) : exec .hlt s = .next (s.raise (.code .halted)) := rfl

/-- Settles O52: the one state HLT answers is faulted, and so are those a wake or a step request makes of it. -/
theorem haltHalts : Obligations.HaltHalts := by
  intro s
  refine ⟨exec_hlt s, fun t ht => ?_⟩
  obtain rfl : s.raise (.code .halted) = t := by simpa [exec_hlt] using ht
  have hfault : (s.raise (.code .halted)).fault = true := State.raise_fault s _ _
  exact ⟨step_of_fault hfault, step_of_fault ((wake_fault _).trans hfault),
    step_of_fault ((requestStep_fault _).trans hfault)⟩

end Sys2Proof.Proofs
end

