-- ==== Sys2Proof/Proofs/Encoding.lean ====
section
/-!
PROOFS. Sys2Proof/Proofs/Encoding.lean: the decoder and the encoder are inverse to each other up to the fields a format leaves
unused, and the decoder rejects exactly the bytes that no mnemonic has (30_encoding.md R80 to R85, R95 to R100).
-/

namespace Sys2Proof.Proofs

open Sys2Proof.Machine Sys2Proof.Laws

variable {cfg : Config.Parameters}

/-! ### What the decoder answers -/

/-- A record whose opcode byte is a mnemonic's decodes to that mnemonic's instruction (R81). -/
theorem decode_of_opcode {r : Record} {op : Opcode} (h : r.opcode = cfg.opcodeMap op) :
    decode r cfg = .ok (instrOf op r) := by
  simp only [decode, h, opcodeOf_opcodeMap]

/-- A byte that no mnemonic has selects none. -/
theorem opcodeOf_eq_none {byte : Byte} (h : ∀ op : Opcode, cfg.opcodeMap op ≠ byte) : opcodeOf byte cfg = none :=
  List.find?_eq_none.2 fun op _ => by simpa using h op

/-- A record whose opcode byte no mnemonic has is rejected (R96). -/
theorem decode_of_no_opcode {r : Record} (h : ∀ op : Opcode, cfg.opcodeMap op ≠ r.opcode) :
    decode r cfg = .error (.undefinedOpcode r.opcode) := by
  simp only [decode, opcodeOf_eq_none h]

/-- Every decoded instruction comes from a mnemonic of the table (R81, R95). -/
theorem decode_ok {r : Record} {i : Instr} (h : decode r cfg = .ok i) :
    ∃ op, cfg.opcodeMap op = r.opcode ∧ i = instrOf op r := by
  unfold decode at h
  split at h
  · cases h
    exact ⟨_, opcodeMap_of_opcodeOf ‹_›, rfl⟩
  · cases h

/-! ### Decoding an encoded instruction -/

theorem encode_opcode (i : Instr) (cfg : Config.Parameters) : (encode i cfg).opcode = cfg.opcodeMap i.opcode := by
  cases i <;> rfl

/-- The per-instruction laws, for any instruction. -/
theorem instrOf_encode (cfg : Config.Parameters) : ∀ i : Instr, instrOf i.opcode (encode i cfg) = i
  | .add _ _ _ => FieldsKept.add _ _ _ cfg
  | .sub _ _ _ => FieldsKept.sub _ _ _ cfg
  | .mul _ _ => FieldsKept.mul _ _ cfg
  | .div _ _ => FieldsKept.div _ _ cfg
  | .and _ _ _ => FieldsKept.and _ _ _ cfg
  | .or _ _ _ => FieldsKept.or _ _ _ cfg
  | .xor _ _ _ => FieldsKept.xor _ _ _ cfg
  | .not _ _ => FieldsKept.not _ _ cfg
  | .cmp _ _ _ => FieldsKept.cmp _ _ _ cfg
  | .mov _ _ _ => FieldsKept.mov _ _ _ cfg
  | .shl _ _ _ => FieldsKept.shl _ _ _ cfg
  | .sal _ _ _ => FieldsKept.sal _ _ _ cfg
  | .shr _ _ _ => FieldsKept.shr _ _ _ cfg
  | .sar _ _ _ => FieldsKept.sar _ _ _ cfg
  | .rol _ _ _ => FieldsKept.rol _ _ _ cfg
  | .ror _ _ _ => FieldsKept.ror _ _ _ cfg
  | .inc _ _ => FieldsKept.inc _ _ cfg
  | .dec _ _ => FieldsKept.dec _ _ cfg
  | .push _ _ => FieldsKept.push _ _ cfg
  | .pop _ _ => FieldsKept.pop _ _ cfg
  | .pusha => FieldsKept.pusha cfg
  | .popa => FieldsKept.popa cfg
  | .call _ _ => FieldsKept.call _ _ cfg
  | .ret => FieldsKept.ret cfg
  | .jmp _ _ => FieldsKept.jmp _ _ cfg
  | .loop _ _ => FieldsKept.loop _ _ cfg
  | .jz _ _ => FieldsKept.jz _ _ cfg
  | .je _ _ => FieldsKept.je _ _ cfg
  | .jnz _ _ => FieldsKept.jnz _ _ cfg
  | .jne _ _ => FieldsKept.jne _ _ cfg
  | .jc _ _ => FieldsKept.jc _ _ cfg
  | .jnc _ _ => FieldsKept.jnc _ _ cfg
  | .djnz _ _ _ => FieldsKept.djnz _ _ _ cfg
  | .clz => FieldsKept.clz cfg
  | .sez => FieldsKept.sez cfg
  | .clc => FieldsKept.clc cfg
  | .sec => FieldsKept.sec cfg
  | .wfe => FieldsKept.wfe cfg
  | .hlt => FieldsKept.hlt cfg
  | .nop => FieldsKept.nop cfg

theorem decode_encode (cfg : Config.Parameters) (i : Instr) : decode (encode i cfg) cfg = .ok i := by
  rw [decode_of_opcode (encode_opcode i cfg), instrOf_encode]

/-- Settles O1: the opcode byte selects the mnemonic again, and the fields of the record give its operands back. -/
theorem decodeOfEncodeIsTheInstruction : Obligations.DecodeOfEncodeIsTheInstruction :=
  ⟨decode_encode Config.parameters, decode_encode⟩

/-! ### Encoding a decoded record -/

/-- The nibble of slot 0 alone is the low half of the mode byte (R82, R100). -/
theorem mode_of_nibble0 (r : Record) : BitVec.ofNat 8 (r.slot0.nibble + 16 * Slot.unused.nibble) = r.mode &&& 0x0F := by
  obtain ⟨o, a, b, m, f⟩ := r
  simp only [Slot.nibble, Slot.unused, Record.slot0]
  revert m
  decide +kernel

/-- Both slots and the offset of a record make that record again. -/
theorem recordOf_slots {op : Opcode} {r : Record} (h : cfg.opcodeMap op = r.opcode) :
    recordOf op r.slot0 r.slot1 r.offset cfg = r := by
  simp only [recordOf, h, mode_of_nibbles]
  rfl

/-- Slot 0 and the offset of a record make that record with slot 1 zero. -/
theorem recordOf_slot0_alone {op : Opcode} {r : Record} (h : cfg.opcodeMap op = r.opcode) :
    recordOf op r.slot0 Slot.unused r.offset cfg = { r with operand1 := 0x00, mode := r.mode &&& 0x0F } := by
  simp only [recordOf, h, mode_of_nibble0]
  rfl

/-- An opcode alone makes the record with every other field zero. -/
theorem recordOf_no_slot {op : Opcode} {r : Record} (h : cfg.opcodeMap op = r.opcode) :
    recordOf op Slot.unused Slot.unused 0x00 cfg =
      { r with operand0 := 0x00, operand1 := 0x00, mode := 0x00, offset := 0x00 } := by
  simp only [recordOf, h]
  rfl

/-- What a mnemonic's instruction encodes to depends on its format alone (R85). -/
theorem encode_instrOf {op : Opcode} {r : Record} (h : cfg.opcodeMap op = r.opcode) :
    encode (instrOf op r) cfg = r.usedFields op.format := by
  cases op
  case add | sub | and | or | xor | shl | sal | shr | sar | rol | ror | cmp | mov | djnz => exact recordOf_slots h
  case mul | div | push | not | inc | dec | pop | call | jmp | loop | jz | je | jnz | jne | jc | jnc =>
    exact recordOf_slot0_alone h
  case pusha | popa | ret | clz | sez | clc | sec | wfe | hlt | nop => exact recordOf_no_slot h

/-- Settles O2: the decoded instruction is that of a mnemonic, and its record depends on the format alone. -/
theorem encodeOfDecodeKeepsUsedFields : Obligations.EncodeOfDecodeKeepsUsedFields := by
  intro r i h
  obtain ⟨op, hop, rfl⟩ := decode_ok h
  rw [Instr.opcode_instrOf]
  exact encode_instrOf hop

/-! ### The default opcode bytes (R95, D2) -/

/-- The default opcode bytes fill the range below 0x28. -/
theorem exists_opcodeMap_eq {byte : Byte} (h : byte.toNat < 0x28) : ∃ op, opcodeMap op = byte := by
  have htable : ∀ n < 0x28, opcodeMap (Opcode.ofNat n) = BitVec.ofNat 8 n := by decide
  exact ⟨Opcode.ofNat byte.toNat, by rw [htable _ h, BitVec.ofNat_toNat, BitVec.setWidth_eq]⟩

/-- None of them lies outside it. -/
theorem opcodeMap_lt (op : Opcode) : (opcodeMap op).toNat < 0x28 := by
  cases op <;> decide

theorem opcodeMap_ne_of_le {byte : Byte} (h : 0x28 ≤ byte.toNat) (op : Opcode) : opcodeMap op ≠ byte := by
  rintro rfl
  exact absurd (opcodeMap_lt op) (by omega)

/-- Settles O3: the opcode bytes are exactly those below 0x28. -/
theorem decoderRejectsExactlyUndefinedOpcodes : Obligations.DecoderRejectsExactlyUndefinedOpcodes := by
  refine fun r => ⟨fun h => ?_, fun h => decode_of_no_opcode (opcodeMap_ne_of_le h)⟩
  obtain ⟨op, hop⟩ := exists_opcodeMap_eq h
  exact ⟨instrOf op r, decode_of_opcode hop.symm⟩

/-- Settles O4: a finite table, evaluated record by record. -/
theorem writtenRecordsDecode : Obligations.WrittenRecordsDecode := by
  unfold Obligations.WrittenRecordsDecode
  decide +kernel

/-- Settles O5: the bytes differ as the mnemonics do, and the two meanings of each pair are one function. -/
theorem aliasesAreDistinctOpcodesWithOneMeaning : Obligations.AliasesAreDistinctOpcodesWithOneMeaning := by
  refine ⟨?bytes, fun _ _ _ _ => ⟨rfl, rfl, rfl, rfl⟩⟩
  case bytes => simp only [ne_eq, Config.opcodeMap_injective.eq_iff, reduceCtorEq, not_false_eq_true, and_self]

end Sys2Proof.Proofs
end

