-- ==== Sys2Proof/Proofs/Effects.lean ====
section
/-!
PROOFS. Sys2Proof/Proofs/Effects.lean: everything an instruction can do, said once. `CanRaise` says which faults it can raise,
`Effect` which next states it can answer; `effect_of_execWith` is the inversion of the whole instruction set, for any
parameters. The statements about every instruction are case splits over `Effect`.
-/

namespace Sys2Proof.Proofs

open Sys2Proof.Machine

variable {cfg : Config.Parameters}

/-! ### The faults of operands (30_encoding.md R86 to R94, 70_reset_and_hazards.md R296) -/

/-- A fault of an operand: the internal-error fault where the slots are not well formed, OUT_OF_BOUNDS where one of them
addresses a cell. -/
inductive OperandTrap (wellFormed addressesCell : Bool) : Trap → Prop
  | internal : wellFormed = false → OperandTrap wellFormed addressesCell .internal
  | outOfBounds : addressesCell = true → OperandTrap wellFormed addressesCell (.code .outOfBounds)

/-- An operand's fault is one of the instruction that has the operand among others. -/
theorem OperandTrap.mono {ok cell ok' cell' : Bool} {e : Trap} (h : OperandTrap ok cell e)
    (hok : ok' = true → ok = true) (hcell : cell = true → cell' = true) : OperandTrap ok' cell' e := by
  cases h with
  | internal hbad => exact .internal (Bool.eq_false_iff.2 fun h => by simp [hok h] at hbad)
  | outOfBounds hc => exact .outOfBounds (hcell hc)

theorem dst_trap {k : Slot} {e : Trap} (h : dst k cfg = .error e) : OperandTrap (registerOk k.raw cfg) false e := by
  obtain ⟨hraw, rfl⟩ := dst_error_iff.1 h
  exact .internal (by simpa [registerOk] using hraw)

/-- A base faults only on an invalid register index (R87). -/
theorem slotBase_trap {k : Slot} {s : State} {e : Trap} (h : slotBase k s cfg = .error e) :
    e = .internal ∧ (k.literal || registerOk k.raw cfg) = false := by
  obtain ⟨hlit, hraw, rfl⟩ := slotBase_error_iff.1 h
  exact ⟨rfl, by simpa [hlit, registerOk] using hraw⟩

/-- The faults of an index (R90). -/
theorem index_trap {k : Slot} {off : Byte} {s : State} {e : Trap} (h : index k off s cfg = .error e) :
    OperandTrap (k.literal || registerOk k.raw cfg) true e := by
  obtain hbase | ⟨_, -, -, rfl⟩ := index_error_iff.1 h
  · obtain ⟨rfl, hbad⟩ := slotBase_trap hbase
    exact .internal hbad
  · exact .outOfBounds rfl

/-- A label operand that names a label and points inside the program has a value (R89, R296). -/
theorem labelValue_trap {k : Slot} {off : Byte} {s : State} {e : Trap} (hlabel : k.label = true)
    (h : labelValue k off s = .error e) : e = .internal ∧ k.labelIn off s.prog.length s.labels = false := by
  refine ⟨labelValue_error h, Bool.eq_false_iff.2 fun hin => ?_⟩
  rw [Slot.labelIn, if_pos hlabel] at hin
  cases hl : s.labels[k.raw.toNat]? with
  | none => simp [hl] at hin
  | some l =>
    simp only [hl, Bool.and_eq_true, decide_eq_true_eq] at hin
    obtain ⟨hlow, hhigh⟩ := hin
    have hslot : ((u16 l.address : Int) + slotOffset k off).toNat < s.prog.length := by
      simp only [u16, slotOffset, s8]
      omega
    have hok := labelValue_ok_iff.2 ⟨l, _, hl, hlow, List.getElem?_eq_getElem hslot, rfl⟩
    cases hok.symm.trans h

/-- The faults of a slot that is resolved as a value (R86). -/
theorem resolve_trap {k : Slot} {off : Byte} {s : State} {e : Trap} (h : resolve k off s cfg = .error e) :
    OperandTrap (k.valueOk cfg && k.labelIn off s.prog.length s.labels) k.addressesCell e := by
  unfold resolve at h
  split at h
  case isTrue hlabel =>
    split at h
    case isTrue hind =>
      cases h
      exact .internal (by simp [Slot.valueOk, hlabel, hind])
    case isFalse =>
      obtain ⟨rfl, hout⟩ := labelValue_trap hlabel h
      exact .internal (by simp [hout])
  case isFalse hlabel =>
    have hvalue : k.valueOk cfg = (k.literal || registerOk k.raw cfg) := by simp [Slot.valueOk, hlabel]
    split at h
    case h_1 hbase =>
      cases h
      obtain ⟨rfl, hbad⟩ := slotBase_trap hbase
      exact .internal (by simp [hvalue, hbad])
    case h_2 =>
      split at h
      case isTrue hind =>
        split at h
        case h_1 hindex =>
          cases h
          exact (index_trap hindex).mono (by simp +contextual [hvalue]) (by simp [Slot.addressesCell, hind, hlabel])
        case h_2 => cases h
      case isFalse => cases h

/-- The faults of format D's checks. -/
theorem destInput_trap {s0 : Slot} {off : Byte} {s : State} {e : Trap} (h : destInput s0 off s cfg = .error e) :
    OperandTrap ((registerOk s0.raw cfg && s0.valueOk cfg) && s0.labelIn off s.prog.length s.labels) s0.addressesCell e := by
  unfold destInput at h
  split at h
  case h_1 hdst =>
    cases h
    exact (dst_trap hdst).mono (by simp +contextual) (by simp)
  case h_2 =>
    split at h
    case h_1 hresolve =>
      cases h
      exact (resolve_trap hresolve).mono (by simp +contextual) id
    case h_2 => cases h

/-- The faults of format DS's checks. -/
theorem destInputs_trap {s0 s1 : Slot} {off : Byte} {s : State} {e : Trap}
    (h : destInputs s0 s1 off s cfg = .error e) :
    OperandTrap ((registerOk s0.raw cfg && s0.valueOk cfg && s1.valueOk cfg) &&
        (s0.labelIn off s.prog.length s.labels && s1.labelIn off s.prog.length s.labels))
      (s0.addressesCell || s1.addressesCell) e := by
  unfold destInputs at h
  split at h
  case h_1 hdest =>
    cases h
    exact (destInput_trap hdest).mono (by simp +contextual) (by simp +contextual)
  case h_2 =>
    split at h
    case h_1 hresolve =>
      cases h
      exact (resolve_trap hresolve).mono (by simp +contextual) (by simp +contextual)
    case h_2 => cases h

/-- The faults of format SS's checks. -/
theorem sourceInputs_trap {s0 s1 : Slot} {off : Byte} {s : State} {e : Trap}
    (h : sourceInputs s0 s1 off s cfg = .error e) :
    OperandTrap ((s0.valueOk cfg && s1.valueOk cfg) &&
        (s0.labelIn off s.prog.length s.labels && s1.labelIn off s.prog.length s.labels))
      (s0.addressesCell || s1.addressesCell) e := by
  unfold sourceInputs at h
  split at h
  case h_1 hresolve =>
    cases h
    exact (resolve_trap hresolve).mono (by simp +contextual) (by simp +contextual)
  case h_2 =>
    split at h
    case h_1 hresolve =>
      cases h
      exact (resolve_trap hresolve).mono (by simp +contextual) (by simp +contextual)
    case h_2 => cases h

/-- The faults of MOV's destination (42_move.md R170). -/
theorem moveDest_trap {s0 : Slot} {off : Byte} {s : State} {e : Trap} (h : moveDest s0 off s cfg = .error e) :
    OperandTrap (s0.moveDestOk cfg) s0.addressesCell e ∨ e = .labelDestination ∧ s0.moveDestOk cfg = false := by
  unfold moveDest at h
  split at h
  case isTrue hind =>
    split at h
    case isTrue hlabel =>
      cases h
      exact .inl (.internal (by simp [Slot.moveDestOk, Slot.valueOk, hind, hlabel]))
    case isFalse hlabel =>
      split at h
      case h_1 hindex =>
        cases h
        exact .inl ((index_trap hindex).mono (by simp [Slot.moveDestOk, Slot.valueOk, hind, hlabel])
          (by simp [Slot.addressesCell, hind, hlabel]))
      case h_2 => cases h
  case isFalse hind =>
    split at h
    case isTrue hlabel =>
      cases h
      exact .inr ⟨rfl, by simp [Slot.moveDestOk, hind, hlabel]⟩
    case isFalse hlabel =>
      split at h
      case h_1 hdst =>
        cases h
        exact .inl ((dst_trap hdst).mono (by simp [Slot.moveDestOk, hind, hlabel]) (by simp))
      case h_2 => cases h

/-- The fault of a control-transfer target (R94). -/
theorem target_trap {k : Slot} {off : Byte} {s : State} {e : Trap} (h : target k off s = .error e) :
    OperandTrap (k.targetIn s.labels) false e := by
  obtain rfl := target_error h
  refine .internal (Bool.eq_false_iff.2 fun hin => ?_)
  have hlt : u8 k.raw < s.labels.length := by simpa [Slot.targetIn, u8] using hin
  have hok := (target_ok_iff (off := off)).2 ⟨_, List.getElem?_eq_getElem hlt, rfl⟩
  cases hok.symm.trans h

/-! ### The faults of an instruction (60_exceptions.md R261, R263) -/

/-- The faults an instruction can raise in a state. -/
inductive CanRaise (cfg : Config.Parameters) (s : State) (i : Instr) : Trap → Prop
  | operand {e : Trap} : OperandTrap (i.wellFormed cfg && i.labelsIn s.prog.length s.labels) (addressesCell i) e →
      CanRaise cfg s i e
  | labelDestination : i.opcode = .mov → i.wellFormed cfg = false → CanRaise cfg s i .labelDestination
  | divisionByZero : i.opcode = .div → CanRaise cfg s i (.code .divisionByZero)
  | stackUnderflow : i.opcode ∈ [Opcode.pop, .popa, .ret] → CanRaise cfg s i (.code .stackUnderflow)
  | stackOverflow : i.opcode ∈ [Opcode.push, .pusha, .call] → CanRaise cfg s i (.code .stackOverflow)
  | halted : i.opcode = .hlt → CanRaise cfg s i (.code .halted)

/-- The faults of DIV (41_arith_logic.md R144). -/
theorem canRaise_of_divisor {s0 : Slot} {off : Byte} {s : State} {e : Trap} (h : divisor s0 off s cfg = .error e) :
    CanRaise cfg s (.div s0 off) e := by
  unfold divisor at h
  split at h
  case h_1 hresolve =>
    cases h
    exact .operand (resolve_trap hresolve)
  case h_2 =>
    split at h <;> cases h
    exact .divisionByZero rfl

/-- The faults of MOV (42_move.md R170). -/
theorem canRaise_of_moveParts {s0 s1 : Slot} {off : Byte} {s : State} {e : Trap}
    (h : moveParts s0 s1 off s cfg = .error e) : CanRaise cfg s (.mov s0 s1 off) e := by
  unfold moveParts at h
  split at h
  case h_1 hresolve =>
    cases h
    exact .operand ((resolve_trap hresolve).mono (by simp +contextual [Instr.wellFormed, Instr.labelsIn])
      (by simp +contextual [addressesCell]))
  case h_2 =>
    split at h
    case h_1 hdest =>
      cases h
      obtain htrap | ⟨rfl, hbad⟩ := moveDest_trap hdest
      · exact .operand (htrap.mono (by simp +contextual [Instr.wellFormed]) (by simp +contextual [addressesCell]))
      · exact .labelDestination rfl (by simp [Instr.wellFormed, hbad])
    case h_2 => cases h

/-- The faults of PUSH (44_stack_call.md R201). -/
theorem canRaise_of_pushOperand {s0 : Slot} {off : Byte} {s : State} {e : Trap}
    (h : pushOperand s0 off s cfg = .error e) : CanRaise cfg s (.push s0 off) e := by
  unfold pushOperand at h
  split at h
  case h_1 hresolve =>
    cases h
    exact .operand (resolve_trap hresolve)
  case h_2 =>
    obtain ⟨-, rfl⟩ := State.push_error_iff.1 h
    exact .stackOverflow (by simp [Instr.opcode])

/-- The faults of POP (44_stack_call.md R202). -/
theorem canRaise_of_popInto {s0 : Slot} {off : Byte} {s : State} {e : Trap} (h : popInto s0 s cfg = .error e) :
    CanRaise cfg s (.pop s0 off) e := by
  unfold popInto at h
  split at h
  case h_1 hdst =>
    cases h
    exact .operand ((dst_trap hdst).mono (by simp +contextual [Instr.wellFormed]) (by simp))
  case h_2 =>
    split at h
    case h_1 hpop =>
      cases h
      obtain ⟨-, rfl⟩ := State.pop_error_iff.1 hpop
      exact .stackUnderflow (by simp [Instr.opcode])
    case h_2 => cases h

/-- The faults of CALL (44_stack_call.md R205). -/
theorem canRaise_of_callTarget {s0 : Slot} {off : Byte} {s : State} {e : Trap} (h : callTarget s0 off s = .error e) :
    CanRaise cfg s (.call s0 off) e := by
  unfold callTarget at h
  split at h
  case h_1 htarget =>
    cases h
    exact .operand (target_trap htarget)
  case h_2 =>
    split at h <;> cases h
    exact .stackOverflow (by simp [Instr.opcode])

/-! ### The next states of an instruction -/

/-- The one register an instruction writes, if it writes one: A for MUL and DIV, otherwise that of slot 0's raw byte
(30_encoding.md R93). POPA, which writes four, is not among them. -/
def destReg (cfg : Config.Parameters) : Instr → Option Nat
  | .mul _ _ | .div _ _ => some (Reg.a.index cfg)
  | .add s0 _ _ | .sub s0 _ _ | .and s0 _ _ | .or s0 _ _ | .xor s0 _ _ | .shl s0 _ _ | .sal s0 _ _ | .shr s0 _ _
  | .sar s0 _ _ | .rol s0 _ _ | .ror s0 _ _ | .not s0 _ | .inc s0 _ | .dec s0 _ | .pop s0 _ | .djnz s0 _ _ =>
    Config.validIndex s0.raw cfg
  | .mov s0 _ _ => if s0.indirect then none else Config.validIndex s0.raw cfg
  | _ => none

/-- It is one that `mayWriteReg` allows. -/
theorem mayWriteReg_of_destReg {i : Instr} {r : Nat} (h : destReg Config.parameters i = some r) :
    mayWriteReg i r = true := by
  cases i <;> simp_all [destReg, mayWriteReg, destIs]

theorem validIndex_of_dst {k : Slot} {r : Nat} (h : dst k cfg = .ok r) : Config.validIndex k.raw cfg = some r :=
  validIndex_eq_some_iff.2 (dst_ok_iff.1 h)

/-- What an instruction does to the state it runs on: one constructor for each way to end it. -/
inductive Effect (cfg : Config.Parameters) (s : State) (i : Instr) : State → Prop
  /-- a check before every write failed (41_arith_logic.md R140), or the instruction is HLT -/
  | raised {e : Trap} : CanRaise cfg s i e → Effect cfg s i (s.raise e cfg)
  | arith {r : Nat} (z : Int) : i.opcode ∈ [Opcode.add, .sub, .mul, .div] → destReg cfg i = some r →
      Effect cfg s i (s.writeArith r z)
  /-- also DJNZ's decrement where it does not jump -/
  | logic {r : Nat} (v : Byte) :
      i.opcode ∈ [Opcode.and, .or, .xor, .not, .shl, .sal, .shr, .sar, .rol, .ror, .inc, .dec, .djnz] →
      destReg cfg i = some r → Effect cfg s i (s.writeLogic r v)
  | compare (zero carry overflow : Bool) : i.opcode = .cmp →
      Effect cfg s i (((s.setZero zero).setCarry carry).setOverflow overflow)
  | register {r : Nat} (v : Byte) : i.opcode = .mov → destReg cfg i = some r → Effect cfg s i (s.setReg r v)
  | cell {s0 s1 : Slot} {off : Byte} {idx : Nat} (v : Byte) : i = .mov s0 s1 off →
      moveDest s0 off s cfg = .ok (.cell idx) → Effect cfg s i (s.memWrite idx v)
  | push {s0 : Slot} {off : Byte} (v : Byte) : i = .push s0 off → u8 s.sp < 64 → Effect cfg s i (pushed s v)
  | pop {r : Nat} : i.opcode = .pop → u8 s.sp ≠ 0 → destReg cfg i = some r →
      Effect cfg s i ((s.setSp (s.sp - 1)).setReg r (s.memRead (u8 s.sp - 1)))
  | pushAll : i = .pusha → Effect cfg s i (s.pushAll ((Config.generalRegisters cfg).map s.reg) cfg)
  | popAll : i = .popa → Effect cfg s i (s.popAll (Config.generalRegisters cfg).reverse cfg)
  | call {s0 : Slot} {off : Byte} (a : SlotAddr) : i = .call s0 off → u8 s.sp < 63 →
      Effect cfg s i (s.pushReturn.setIp a)
  | ret (a : SlotAddr) : i.opcode = .ret → 1 < u8 s.sp → Effect cfg s i ((s.setSp (s.sp - 2)).setIp a)
  | jump (a : SlotAddr) : i.opcode ∈ [Opcode.jmp, .loop, .jz, .je, .jnz, .jne, .jc, .jnc] → Effect cfg s i (s.setIp a)
  /-- DJNZ's decrement and its jump -/
  | countedJump {r : Nat} (v : Byte) (a : SlotAddr) : i.opcode = .djnz → destReg cfg i = some r →
      Effect cfg s i ((s.writeLogic r v).setIp a)
  /-- DJNZ's decrement, which stays where its target faults (45_jump.md R229) -/
  | countedFault {r : Nat} (v : Byte) {e : Trap} : i.opcode = .djnz → destReg cfg i = some r → CanRaise cfg s i e →
      Effect cfg s i ((s.writeLogic r v).raise e cfg)
  | zero (b : Bool) : i.opcode ∈ [Opcode.clz, .sez] → Effect cfg s i (s.setZero b)
  | carry (b : Bool) : i.opcode ∈ [Opcode.clc, .sec] → Effect cfg s i (s.setCarry b)
  | wait : i.opcode = .wfe → Effect cfg s i (s.setWait true)
  /-- NOP, and a jump that is not taken -/
  | nothing : i.opcode ∈ [Opcode.nop, .jz, .je, .jnz, .jne, .jc, .jnc] → Effect cfg s i s

/-- A jump to a target: taken, or the target's fault (45_jump.md R220). -/
theorem effect_of_jumpTo {i : Instr} {k : Slot} {off : Byte} {s t : State}
    (hop : i.opcode ∈ [Opcode.jmp, .loop, .jz, .je, .jnz, .jne, .jc, .jnc])
    (htrap : ∀ e, target k off s = .error e → CanRaise cfg s i e) (h : jumpTo cfg k off s = .next t) :
    Effect cfg s i t := by
  obtain ⟨a, -, rfl⟩ | ⟨e, he, rfl⟩ := conclude_next_iff.1 h
  · exact .jump a hop
  · exact .raised (htrap e he)

/-- A conditional jump: taken as `jumpTo`, or nothing (45_jump.md R220). -/
theorem effect_of_jumpIf {i : Instr} {cond : Bool} {k : Slot} {off : Byte} {s t : State}
    (hop : i.opcode ∈ [Opcode.jz, .je, .jnz, .jne, .jc, .jnc])
    (htrap : ∀ e, target k off s = .error e → CanRaise cfg s i e) (h : jumpIf cfg cond k off s = .next t) :
    Effect cfg s i t := by
  unfold jumpIf at h
  split at h
  · exact effect_of_jumpTo (List.mem_cons_of_mem _ (List.mem_cons_of_mem _ hop)) htrap h
  · cases h
    exact .nothing (List.mem_cons_of_mem _ hop)

/-- DJNZ (45_jump.md R229): the fault of its register, or the decrement with one of the three ends of a conditional jump. -/
theorem effect_of_execDjnz {s0 s1 : Slot} {off : Byte} {s t : State} (h : execDjnz s0 s1 off s cfg = .next t) :
    Effect cfg s (.djnz s0 s1 off) t := by
  obtain ⟨e, he, rfl⟩ | ⟨r, a, hok, hjump⟩ := execDjnz_next_iff.1 h
  · exact .raised (.operand ((destInput_trap he).mono (by simp +contextual [Instr.wellFormed, Instr.labelsIn]) id))
     
  · have hdest : destReg cfg (.djnz s0 s1 off) = some r := validIndex_of_dst (destInput_ok_iff.1 hok).1
    obtain ⟨-, a, -, rfl⟩ | ⟨-, e, he, rfl⟩ | ⟨-, rfl⟩ := jumpIf_next_iff.1 hjump
    · exact .countedJump _ a rfl hdest
    · exact .countedFault _ rfl hdest
        (.operand ((target_trap he).mono (by simp +contextual [Instr.labelsIn]) (by simp)))
    · exact .logic _ (by simp [Instr.opcode]) hdest

/-- THE INVERSION OF THE INSTRUCTION SET (30_encoding.md R95): a next state is one of the effects. -/
theorem effect_of_execWith {i : Instr} {s t : State} (h : execWith cfg i s = .next t) : Effect cfg s i t := by
  cases i
  case add | sub =>
    obtain ⟨⟨r, a, b⟩, hok, rfl⟩ | ⟨e, he, rfl⟩ := conclude_next_iff.1 h
    · exact .arith _ (by simp [Instr.opcode]) (validIndex_of_dst (destInputs_ok_iff.1 hok).1)
    · exact .raised (.operand (destInputs_trap he))
  case mul =>
    obtain ⟨b, -, rfl⟩ | ⟨e, he, rfl⟩ := conclude_next_iff.1 h
    · exact .arith _ (by simp [Instr.opcode]) rfl
    · exact .raised (.operand (resolve_trap he))
  case div =>
    obtain ⟨b, -, rfl⟩ | ⟨e, he, rfl⟩ := conclude_next_iff.1 h
    · exact .arith _ (by simp [Instr.opcode]) rfl
    · exact .raised (canRaise_of_divisor he)
  case and | or | xor | shl | sal | shr | sar | rol | ror =>
    obtain ⟨⟨r, a, b⟩, hok, rfl⟩ | ⟨e, he, rfl⟩ := conclude_next_iff.1 h
    · exact .logic _ (by simp [Instr.opcode]) (validIndex_of_dst (destInputs_ok_iff.1 hok).1)
    · exact .raised (.operand (destInputs_trap he))
  case not | inc | dec =>
    obtain ⟨⟨r, a⟩, hok, rfl⟩ | ⟨e, he, rfl⟩ := conclude_next_iff.1 h
    · exact .logic _ (by simp [Instr.opcode]) (validIndex_of_dst (destInput_ok_iff.1 hok).1)
    · exact .raised (.operand (destInput_trap he))
  case cmp =>
    obtain ⟨⟨a, b⟩, -, rfl⟩ | ⟨e, he, rfl⟩ := conclude_next_iff.1 h
    · exact .compare _ _ _ rfl
    · exact .raised (.operand (sourceInputs_trap he))
  case mov =>
    obtain ⟨⟨v, dest⟩, hok, rfl⟩ | ⟨e, he, rfl⟩ := conclude_next_iff.1 h
    · obtain ⟨-, hdest⟩ := moveParts_ok_iff.1 hok
      cases dest with
      | cell idx => exact .cell v rfl hdest
      | register r =>
        obtain ⟨hind, -, hdst⟩ := moveDest_register hdest
        exact .register v rfl (by simp [destReg, hind, validIndex_of_dst hdst])
    · exact .raised (canRaise_of_moveParts he)
  case push =>
    obtain ⟨s', hok, rfl⟩ | ⟨e, he, rfl⟩ := conclude_next_iff.1 h
    · obtain ⟨v, -, hpush⟩ := pushOperand_ok_iff.1 hok
      obtain ⟨hfree, rfl⟩ := State.push_ok_iff.1 hpush
      exact .push v rfl hfree
    · exact .raised (canRaise_of_pushOperand he)
  case pop =>
    obtain ⟨s', hok, rfl⟩ | ⟨e, he, rfl⟩ := conclude_next_iff.1 h
    · obtain ⟨r, v, s'', hdst, hpop, rfl⟩ := popInto_ok_iff.1 hok
      obtain ⟨hsome, rfl, rfl⟩ := State.pop_ok_iff.1 hpop
      exact .pop rfl hsome (validIndex_of_dst hdst)
    · exact .raised (canRaise_of_popInto he)
  case pusha =>
    cases h
    exact .pushAll rfl
  case popa =>
    cases h
    exact .popAll rfl
  case call =>
    obtain ⟨a, hok, rfl⟩ | ⟨e, he, rfl⟩ := conclude_next_iff.1 h
    · exact .call a rfl (callTarget_ok_iff.1 hok).2
    · exact .raised (canRaise_of_callTarget he)
  case ret =>
    obtain ⟨a, hok, rfl⟩ | ⟨e, he, rfl⟩ := conclude_next_iff.1 h
    · exact .ret a rfl (returnAddress_ok_iff.1 hok).1
    · obtain rfl := returnAddress_error he
      exact .raised (.stackUnderflow (by simp [Instr.opcode]))
  case jmp | loop => exact effect_of_jumpTo (by simp [Instr.opcode]) (fun _ he => .operand (target_trap he)) h
  case jz | je | jnz | jne | jc | jnc =>
    exact effect_of_jumpIf (by simp [Instr.opcode]) (fun _ he => .operand (target_trap he)) h
  case djnz => exact effect_of_execDjnz h
  case clz | sez =>
    cases h
    exact .zero _ (by simp [Instr.opcode])
  case clc | sec =>
    cases h
    exact .carry _ (by simp [Instr.opcode])
  case wfe =>
    cases h
    exact .wait rfl
  case hlt =>
    cases h
    exact .raised (.halted rfl)
  case nop =>
    cases h
    exact .nothing (by simp [Instr.opcode])

theorem effect_of_exec {i : Instr} {s t : State} (h : exec i s = .next t) : Effect Config.parameters s i t :=
  effect_of_execWith ((execWith_parameters i s).trans h)

end Sys2Proof.Proofs
end

