-- ==== Sys2Proof/Proofs/StackResults.lean ====
section
/-!
PROOFS. Sys2Proof/Proofs/StackResults.lean: what a sequence of pops does to `sp`, to the registers and to the rest of the state
(44_stack_call.md R200, R204, R266), for any registers and any configuration; PUSH, POP, POPA, CALL and RET (R201 to R206);
and the three round trips of the source.
-/

namespace Sys2Proof.Proofs

open Sys2Proof.Machine

variable {cfg : Config.Parameters}

/-! ### Ending by `conclude` -/

theorem conclude_of_ok {α : Type} {s : State} {checks : Except Trap α} {x : α} (h : checks = .ok x) (k : α → State) :
    conclude cfg s checks k = .next (k x) := by
  rw [h, conclude_ok]

theorem conclude_of_error {α : Type} {s : State} {checks : Except Trap α} {e : Trap} (h : checks = .error e)
    (k : α → State) : conclude cfg s checks k = .next (s.raise e cfg) := by
  rw [h, conclude_error]

/-! ### One pop in the sequence -/

/-- The state after a pop into a register that finds a byte (R200, R202). -/
def popped (s : State) (r : Nat) : State := (s.setSp (s.sp - 1)).setReg r (s.memRead (u8 s.sp - 1))

theorem popAll_cons_of_some {s : State} (h : u8 s.sp ≠ 0) (r : Nat) (rs : List Nat) :
    s.popAll (r :: rs) cfg = (popped s r).popAll rs cfg := by
  rw [State.popAll_cons, if_neg h, popped]

theorem popAll_cons_of_empty {s : State} (h : u8 s.sp = 0) (r : Nat) (rs : List Nat) :
    s.popAll (r :: rs) cfg = s.raise (.code .stackUnderflow) cfg := by
  rw [State.popAll_cons, if_pos h]

theorem u8_popped_sp {s : State} (h : u8 s.sp ≠ 0) (r : Nat) : u8 (popped s r).sp = u8 s.sp - 1 :=
  u8_sub_one h

theorem length_regs_popped (s : State) (r : Nat) : (popped s r).regs.length = s.regs.length :=
  State.length_regs_setReg _ _ _

theorem reg_popped_same {s : State} {r : Nat} (h : r < s.regs.length) : (popped s r).reg r = s.memRead (u8 s.sp - 1) :=
  State.reg_setReg_same _ _ h

theorem reg_popped_other (s : State) {r q : Nat} (h : q ≠ r) : (popped s r).reg q = s.reg q :=
  State.reg_setReg_other _ _ h

theorem memRead_popped (s : State) (r idx : Nat) : (popped s r).memRead idx = s.memRead idx := rfl

/-! ### The whole sequence -/

/-- `sp` moves down by one for each register and stops at 0. -/
theorem u8_sp_popAll : ∀ (rs : List Nat) (s : State), u8 (s.popAll rs cfg).sp = u8 s.sp - rs.length
  | [], _ => rfl
  | r :: rs, s => by
    by_cases hsp : u8 s.sp = 0
    · rw [popAll_cons_of_empty hsp, State.raise_sp, hsp, Nat.zero_sub]
    · rw [popAll_cons_of_some hsp, u8_sp_popAll rs, u8_popped_sp hsp, List.length_cons]
      omega

theorem length_regs_popAll : ∀ (rs : List Nat) (s : State), (s.popAll rs cfg).regs.length = s.regs.length
  | [], _ => rfl
  | r :: rs, s => by
    by_cases hsp : u8 s.sp = 0
    · rw [popAll_cons_of_empty hsp, State.raise_regs]
    · rw [popAll_cons_of_some hsp, length_regs_popAll rs, length_regs_popped]

/-- A register that is not popped into keeps its value. -/
theorem reg_popAll_other : ∀ {rs : List Nat} {s : State} {q : Nat}, q ∉ rs → (s.popAll rs cfg).reg q = s.reg q
  | [], _, _, _ => rfl
  | r :: rs, s, q, hq => by
    rw [List.mem_cons, not_or] at hq
    obtain ⟨hne, hrest⟩ := hq
    by_cases hsp : u8 s.sp = 0
    · rw [popAll_cons_of_empty hsp]
      rfl
    · rw [popAll_cons_of_some hsp, reg_popAll_other hrest, reg_popped_other s hne]

/-- Register `i` of the sequence takes the byte `i + 1` cells below the first `sp` where there is one. -/
theorem reg_popAll_popped : ∀ {rs : List Nat} {s : State} {i r : Nat}, rs.Nodup → rs[i]? = some r → i < u8 s.sp →
    r < s.regs.length → (s.popAll rs cfg).reg r = s.memRead (u8 s.sp - (i + 1))
  | q :: rs, s, 0, r, hnodup, hr, hi, hlen => by
    obtain rfl : q = r := by simpa using hr
    rw [popAll_cons_of_some (by omega), reg_popAll_other (List.nodup_cons.1 hnodup).1, reg_popped_same hlen]
  | q :: rs, s, i + 1, r, hnodup, hr, hi, hlen => by
    have hsp : u8 s.sp ≠ 0 := by omega
    have hcell : u8 (popped s q).sp - (i + 1) = u8 s.sp - (i + 1 + 1) := by
      rw [u8_popped_sp hsp]
      omega
    rw [popAll_cons_of_some hsp, reg_popAll_popped (List.nodup_cons.1 hnodup).2 (by simpa using hr)
      (by rw [u8_popped_sp hsp]; omega) (by rwa [length_regs_popped]), memRead_popped, hcell]

/-- And it keeps its value where there is none. -/
theorem reg_popAll_unpopped : ∀ {rs : List Nat} {s : State} {i r : Nat}, rs.Nodup → rs[i]? = some r → u8 s.sp ≤ i →
    (s.popAll rs cfg).reg r = s.reg r
  | q :: rs, s, i, r, hnodup, hr, hi => by
    by_cases hsp : u8 s.sp = 0
    · rw [popAll_cons_of_empty hsp]
      rfl
    · obtain ⟨hq, hnodup'⟩ := List.nodup_cons.1 hnodup
      cases i with
      | zero => omega
      | succ j =>
        have hr' : rs[j]? = some r := by simpa using hr
        have hne : r ≠ q := fun h => hq (h ▸ List.mem_of_getElem? hr')
        rw [popAll_cons_of_some hsp, reg_popAll_unpopped hnodup' hr' (by rw [u8_popped_sp hsp]; omega),
          reg_popped_other s hne]

/-- With a byte for each register, the sequence changes the registers and `sp` alone. -/
theorem popAll_frame_of_enough (x : Regs) (p : Byte) : ∀ (rs : List Nat) {s : State}, rs.length ≤ u8 s.sp →
    { s.popAll rs cfg with regs := x, sp := p } = { s with regs := x, sp := p }
  | [], _, _ => rfl
  | r :: rs, s, h => by
    rw [List.length_cons] at h
    have hsp : u8 s.sp ≠ 0 := by omega
    rw [popAll_cons_of_some hsp, popAll_frame_of_enough x p rs (by rw [u8_popped_sp hsp]; omega)]
    rfl

/-- With fewer bytes than registers, it takes STACK_UNDERFLOW as well, and nothing else. -/
theorem popAll_frame_of_underflow (x : Regs) (p : Byte) : ∀ (rs : List Nat) {s : State}, u8 s.sp < rs.length →
    { s.popAll rs cfg with regs := x, sp := p } =
      { s.raise (.code .stackUnderflow) cfg with regs := x, sp := p }
  | [], s, h => by
    rw [List.length_nil] at h
    omega
  | r :: rs, s, h => by
    rw [List.length_cons] at h
    by_cases hsp : u8 s.sp = 0
    · rw [popAll_cons_of_empty hsp]
    · rw [popAll_cons_of_some hsp, popAll_frame_of_underflow x p rs (by rw [u8_popped_sp hsp]; omega)]
      rfl

/-! ### PUSH and POP -/

theorem exec_push_of_free {s0 : Slot} {off : Byte} {s : State} {v : Byte} (hv : resolve s0 off s = .ok v)
    (h : u8 s.sp < 64) : exec (.push s0 off) s = .next (pushed s v) :=
  conclude_of_ok (pushOperand_ok_iff.2 ⟨v, hv, push_of_free h v⟩) id

theorem exec_push_of_full {s0 : Slot} {off : Byte} {s : State} {v : Byte} (hv : resolve s0 off s = .ok v)
    (h : 64 ≤ u8 s.sp) : exec (.push s0 off) s = .next (s.raise (.code .stackOverflow)) := by
  have hfull : pushOperand s0 off s = .error (.code .stackOverflow) := by
    simp only [pushOperand, hv, State.push_error_iff.2 ⟨h, rfl⟩]
  exact conclude_of_error hfull id

/-- Settles O38: a push with a free cell is `pushed`, and one without is the fault. -/
theorem pushResult : Obligations.PushResult := by
  intro s0 off s v hs hv
  refine ⟨fun hsp => ?free, fun hsp => ?full⟩
  case free =>
    exact ⟨pushed s v, exec_push_of_free hv (Nat.lt_succ_of_le hsp), rfl, memRead_pushed_same hs v,
      fun idx => memRead_pushed_other s v, rfl⟩
  case full => exact exec_push_of_full hv hsp.ge

theorem exec_pop_of_some {k : Slot} {off : Byte} {s : State} {r : Nat} (hr : dst k = .ok r) (h : u8 s.sp ≠ 0) :
    exec (.pop k off) s = .next (popped s r) :=
  conclude_of_ok (popInto_ok_iff.2 ⟨r, _, _, hr, State.pop_ok_iff.2 ⟨h, rfl, rfl⟩, rfl⟩) id

theorem exec_pop_of_empty {k : Slot} {off : Byte} {s : State} {r : Nat} (hr : dst k = .ok r) (h : u8 s.sp = 0) :
    exec (.pop k off) s = .next (s.raise (.code .stackUnderflow)) := by
  have hempty : popInto k s = .error (.code .stackUnderflow) := by
    simp only [popInto, hr, State.pop_error_iff.2 ⟨h, rfl⟩]
  exact conclude_of_error hempty id

theorem exec_pop_of_bad_register {k : Slot} {off : Byte} {s : State} (h : 5 ≤ k.raw.toNat) :
    exec (.pop k off) s = .next (s.raise .internal) := by
  have hbad : dst k = .error .internal := dst_error_iff.2 ⟨h, rfl⟩
  have hpop : popInto k s = .error .internal := by simp only [popInto, hbad]
  exact conclude_of_error hpop id

/-- POP looks at the raw byte of its slot alone (R202). -/
theorem exec_pop_congr {k k' : Slot} (h : k'.raw = k.raw) (off off' : Byte) (s : State) :
    exec (.pop k' off') s = exec (.pop k off) s := by
  have hdst : dst k' = dst k := by simp only [dst, h]
  simp only [exec, execPop, popInto, hdst]

/-- Settles O39: the three ends of POP, and that it reads the raw byte alone. -/
theorem popResult : Obligations.PopResult := by
  intro s0 off s
  refine ⟨fun r hr => ⟨fun hsp => ?some, fun hsp => ?empty⟩, exec_pop_of_bad_register, fun k off' hk => ?congr⟩
  case some => exact exec_pop_of_some hr (Nat.one_le_iff_ne_zero.1 hsp)
  case empty => exact exec_pop_of_empty hr hsp
  case congr => exact exec_pop_congr hk off off' s

/-! ### POPA -/

/-- The registers POPA pops into (R204), in their order. -/
def popaRegs : List Nat := [Reg.d.index, Reg.c.index, Reg.b.index, Reg.a.index]

theorem exec_popa (s : State) : exec .popa s = .next (s.popAll popaRegs) := execPopa_parameters s

/-- Each of the four registers takes its byte, as far as there are bytes. -/
theorem named_popa {s : State} (hs : s.inv = true) {i : Nat} {q : Reg} (hq : popaRegs[i]? = some q.index) :
    (s.popAll popaRegs).named q = if i + 1 ≤ s.sp.toNat then s.memRead (s.sp.toNat - (i + 1)) else s.named q := by
  have hnodup : popaRegs.Nodup := by decide
  obtain ⟨-, -, hlen⟩ := State.inv_iff.1 hs
  split
  case isTrue h => exact reg_popAll_popped hnodup hq h (hlen ▸ Reg.index_lt q _)
  case isFalse h => exact reg_popAll_unpopped hnodup hq (Nat.not_lt.1 h)

/-- Settles O41: POPA is a sequence of four pops, so each clause is what that sequence does to `sp`, to the registers or to
the rest of the state. -/
theorem popaResult : Obligations.PopaResult := by
  intro s hs
  refine ⟨s.popAll popaRegs, exec_popa s, u8_sp_popAll _ s, ?d, ?c, ?b, ?a, ?ports, length_regs_popAll _ s, ?enough,
    ?underflow⟩
  case d => exact named_popa hs (i := 0) rfl
  case c => exact named_popa hs (i := 1) rfl
  case b => exact named_popa hs (i := 2) rfl
  case a => exact named_popa hs (i := 3) rfl
  case ports => exact reg_popAll_other (by decide)
  case enough => exact fun h => popAll_frame_of_enough _ _ _ h
  case underflow => exact fun h => popAll_frame_of_underflow _ _ _ h

/-! ### CALL and RET -/

/-- `sp + 2` does not wrap while two cells are free. -/
theorem u8_add_two {v : Byte} (h : u8 v < 63) : u8 (v + 2) = u8 v + 2 := by
  unfold u8 at *
  bv_omega

theorem memRead_pushReturn_low {s : State} (hs : s.inv = true) : s.pushReturn.memRead (u8 s.sp) = lowByte s.ip :=
  (State.memRead_memWrite_other _ _ (Nat.ne_of_lt (Nat.lt_succ_self _))).trans
    (State.memRead_memWrite_same s _ _ (State.inv_iff.1 hs).2.1)

theorem memRead_pushReturn_high {s : State} (hs : s.inv = true) (h : u8 s.sp < 63) :
    s.pushReturn.memRead (u8 s.sp + 1) = highByte s.ip :=
  State.memRead_memWrite_same _ _ _
    (Memory.wf_memStore _ (Nat.lt_trans h (by decide)) (State.inv_iff.1 hs).2.1)

theorem memRead_pushReturn_other (s : State) {idx : Nat} (hlow : idx ≠ u8 s.sp) (hhigh : idx ≠ u8 s.sp + 1) :
    s.pushReturn.memRead idx = s.memRead idx :=
  (State.memRead_memWrite_other _ _ hhigh).trans (State.memRead_memWrite_other _ _ hlow)

theorem exec_call_of_free {k : Slot} {off : Byte} {s : State} {a : SlotAddr} (ha : target k off s = .ok a)
    (h : u8 s.sp < 63) : exec (.call k off) s = .next (s.pushReturn.setIp a) :=
  conclude_of_ok (callTarget_ok_iff.2 ⟨ha, h⟩) _

theorem exec_call_of_full {k : Slot} {off : Byte} {s : State} {a : SlotAddr} (ha : target k off s = .ok a)
    (h : 63 ≤ u8 s.sp) : exec (.call k off) s = .next (s.raise (.code .stackOverflow)) := by
  have hfull : callTarget k off s = .error (.code .stackOverflow) := by simp only [callTarget, ha, ge_iff_le, h, if_true]
  exact conclude_of_error hfull _

/-- A label index outside the table has no target (30_encoding.md R94, D10). -/
theorem target_of_bad_label {k : Slot} {off : Byte} {s : State} (h : s.labels.length ≤ k.raw.toNat) :
    target k off s = .error .internal := by
  simp only [target, u8, List.getElem?_eq_none h]

theorem exec_call_of_bad_label {k : Slot} {off : Byte} {s : State} (h : s.labels.length ≤ k.raw.toNat) :
    exec (.call k off) s = .next (s.raise .internal) := by
  have hbad : callTarget k off s = .error .internal := by simp only [callTarget, target_of_bad_label h]
  exact conclude_of_error hbad _

/-- Settles O42: a call with two free cells stores the two bytes of the return address, and the checks come before it. -/
theorem callResult : Obligations.CallResult := by
  intro s0 off s hs
  refine ⟨fun a ha => ⟨fun hsp => ?free, exec_call_of_full ha⟩, exec_call_of_bad_label⟩
  case free =>
    have hfree : u8 s.sp < 63 := Nat.lt_succ_of_le hsp
    exact ⟨s.pushReturn.setIp a, exec_call_of_free ha hfree, rfl, rfl, memRead_pushReturn_low hs,
      memRead_pushReturn_high hs hfree, fun idx => memRead_pushReturn_other s, rfl⟩

theorem exec_ret_of_some {s : State} (h : 1 < u8 s.sp) :
    exec .ret s =
      .next ((s.setSp (s.sp - 2)).setIp (concatBytes (s.memRead (u8 s.sp - 1)) (s.memRead (u8 s.sp - 2)))) :=
  conclude_of_ok (returnAddress_ok_iff.2 ⟨h, rfl⟩) _

theorem exec_ret_of_empty {s : State} (h : u8 s.sp ≤ 1) :
    exec .ret s = .next (s.raise (.code .stackUnderflow)) := by
  have hempty : returnAddress s = .error (.code .stackUnderflow) := by simp only [returnAddress, h, if_true]
  exact conclude_of_error hempty _

/-- Settles O43: the two ends of RET. -/
theorem retResult : Obligations.RetResult :=
  fun _ => ⟨exec_ret_of_some, exec_ret_of_empty⟩

/-! ### The round trips -/

/-- Settles O44: the pop finds `sp` one higher and so reads the cell of the push. -/
theorem pushThenPopRestoresTheByte : Obligations.PushThenPopRestoresTheByte := by
  intro s0 s1 off off' s v r hs hsp hv hr
  have hfree : u8 s.sp < 64 := Nat.lt_succ_of_le hsp
  have hsp' : u8 (pushed s v).sp = u8 s.sp + 1 := u8_pushed_sp hfree v
  have hsome : u8 (pushed s v).sp ≠ 0 := by omega
  have hreg : r < (pushed s v).regs.length := by
    rw [(State.inv_iff.1 (inv_pushed hs hfree v)).2.2, (dst_ok_iff.1 hr).2]
    exact (dst_ok_iff.1 hr).1
  have hbyte : (pushed s v).memRead (u8 (pushed s v).sp - 1) = v := by
    rw [hsp', Nat.add_sub_cancel]
    exact memRead_pushed_same hs v
  refine ⟨pushed s v, exec_push_of_free hv hfree, fun ip ir =>
    ⟨popped { pushed s v with ip := ip, ir := ir } r, exec_pop_of_some hr hsome, ?sp, ?byte⟩⟩
  case sp => exact BitVec.add_sub_cancel s.sp 1
  case byte => exact (reg_popped_same hreg).trans hbyte

/-- The bytes of an address make it again (00_scope.md R6). -/
theorem concatBytes_high_low (a : SlotAddr) : concatBytes (highByte a) (lowByte a) = a := by
  refine BitVec.eq_of_getLsbD_eq fun i hi => ?_
  unfold concatBytes highByte lowByte
  rw [BitVec.getLsbD_append]
  split
  case isTrue h => simp [h]
  case isFalse h => simp [show i - 8 < 8 by omega, show 8 + (i - 8) = i by omega]

/-- Settles O46: the two cells RET reads are those CALL stored. -/
theorem callThenRetReturnsAfterTheCall : Obligations.CallThenRetReturnsAfterTheCall := by
  intro s0 off s a hs hsp ha
  have hfree : u8 s.sp < 63 := Nat.lt_succ_of_le hsp
  have hsp' : u8 s.pushReturn.sp = u8 s.sp + 2 := u8_add_two hfree
  have haddr : concatBytes (s.pushReturn.memRead (u8 s.pushReturn.sp - 1))
      (s.pushReturn.memRead (u8 s.pushReturn.sp - 2)) = s.ip := by
    rw [hsp', Nat.add_sub_cancel, show u8 s.sp + 2 - 1 = u8 s.sp + 1 by omega, memRead_pushReturn_high hs hfree,
      memRead_pushReturn_low hs, concatBytes_high_low]
  have hback : s.pushReturn.sp - 2 = s.sp := BitVec.add_sub_cancel s.sp 2
  refine ⟨s.pushReturn.setIp a, exec_call_of_free ha hfree, rfl, fun ip ir => ?_⟩
  calc exec .ret { s.pushReturn with ip := ip, ir := ir }
      = .next { s.pushReturn with ip := _, ir := ir, sp := s.pushReturn.sp - 2 } := exec_ret_of_some (by simp only; omega)
    _ = .next { s.pushReturn with ip := s.ip, ir := ir, sp := s.sp } := by rw [← haddr, hback]; rfl

/-- The state after PUSHA (R203). -/
def afterPusha (cfg : Config.Parameters) (s : State) : State :=
  s.pushAll ((Config.generalRegisters cfg).map s.reg) cfg

theorem u8_sp_afterPusha {s : State} (hs : s.inv cfg = true) (hsp : u8 s.sp ≤ 60) :
    u8 (afterPusha cfg s).sp = u8 s.sp + 4 := by
  rw [afterPusha, u8_sp_pushAll _ hs, List.length_map, Config.length_generalRegisters]
  omega

theorem memRead_afterPusha {s : State} (hs : s.inv cfg = true) (hsp : u8 s.sp ≤ 60) {i r : Nat}
    (hr : (Config.generalRegisters cfg)[i]? = some r) : (afterPusha cfg s).memRead (u8 s.sp + i) = s.reg r := by
  have hi : i < 4 := by
    rw [← Config.length_generalRegisters cfg]
    exact (List.getElem?_eq_some_iff.1 hr).1
  exact memRead_pushAll_pushed hs (by rw [List.getElem?_map, hr]; rfl) (by omega)

/-- The state after a PUSHA, anything that writes `ip`, `ir` and the registers, and a POPA (R203, R204). -/
def afterPushaPopa (cfg : Config.Parameters) (s : State) (ip : SlotAddr) (ir : Option Record) (between : Regs) : State :=
  State.popAll { afterPusha cfg s with ip := ip, ir := ir, regs := between } (Config.generalRegisters cfg).reverse cfg

section
variable {s : State} {ip : SlotAddr} {ir : Option Record} {between : Regs}

theorem length_regs_afterPushaPopa : (afterPushaPopa cfg s ip ir between).regs.length = between.length :=
  length_regs_popAll _ _

/-- A general register is pushed as number `i` and popped as number `3 - i`, so from its own cell. -/
theorem reg_afterPushaPopa_general (hs : s.inv cfg = true) (hsp : u8 s.sp ≤ 60) (hlen : between.length = cfg.numRegs)
    {r : Reg} (hr : r ≠ .ports) : (afterPushaPopa cfg s ip ir between).named r cfg = s.named r cfg := by
  obtain ⟨i, hi⟩ := List.mem_iff_getElem?.1 (Config.mem_generalRegisters_iff.2 ⟨r, hr, rfl⟩)
  have hlt : i < 4 := by
    rw [← Config.length_generalRegisters cfg]
    exact (List.getElem?_eq_some_iff.1 hi).1
  have hpopped : (Config.generalRegisters cfg).reverse[3 - i]? = some (r.index cfg) := by
    rw [List.getElem?_reverse (by rw [Config.length_generalRegisters]; omega), Config.length_generalRegisters, ← hi]
    congr 1
    omega
  have hread := reg_popAll_popped (cfg := cfg) (s := { afterPusha cfg s with ip := ip, ir := ir, regs := between })
    (List.nodup_reverse.2 (Config.nodup_generalRegisters cfg)) hpopped (by simp only [u8_sp_afterPusha hs hsp]; omega)
    (hlen ▸ Reg.index_lt r cfg)
  have hcell : u8 (afterPusha cfg s).sp - (3 - i + 1) = u8 s.sp + i := by
    rw [u8_sp_afterPusha hs hsp]
    omega
  exact hread.trans ((congrArg (afterPusha cfg s).memRead hcell).trans (memRead_afterPusha hs hsp hi))

/-- Every other register keeps what it held before the POPA. -/
theorem reg_afterPushaPopa_other {j : Nat} (hj : ∀ r : Reg, r ≠ .ports → j ≠ r.index cfg) :
    (afterPushaPopa cfg s ip ir between).reg j = between.getD j 0x00 := by
  refine reg_popAll_other fun hmem => ?_
  obtain ⟨r, hr, rfl⟩ := Config.mem_generalRegisters_iff.1 (List.mem_reverse.1 hmem)
  exact hj r hr rfl

theorem sp_afterPushaPopa (hs : s.inv cfg = true) (hsp : u8 s.sp ≤ 60) :
    (afterPushaPopa cfg s ip ir between).sp = s.sp := by
  refine BitVec.eq_of_toNat_eq ((u8_sp_popAll _ _).trans ?_)
  simp only [u8_sp_afterPusha hs hsp, List.length_reverse, Config.length_generalRegisters]
  rfl

/-- The POPA changes the registers and `sp` alone. -/
theorem afterPushaPopa_frame (hs : s.inv cfg = true) (hsp : u8 s.sp ≤ 60) (x : Regs) :
    { afterPushaPopa cfg s ip ir between with regs := x } =
      { afterPusha cfg s with ip := ip, ir := ir, sp := s.sp, regs := x } := by
  have henough : (Config.generalRegisters cfg).reverse.length ≤ u8 (afterPusha cfg s).sp := by
    rw [u8_sp_afterPusha hs hsp, List.length_reverse, Config.length_generalRegisters]
    omega
  calc { afterPushaPopa cfg s ip ir between with regs := x }
      = { afterPushaPopa cfg s ip ir between with regs := x, sp := s.sp } := by rw [← sp_afterPushaPopa hs hsp]
    _ = { afterPusha cfg s with ip := ip, ir := ir, sp := s.sp, regs := x } :=
        popAll_frame_of_enough (s := { afterPusha cfg s with ip := ip, ir := ir, regs := between }) x s.sp _ henough

/-- At the default indices the registers are those before the PUSHA, but for PORTS. -/
theorem regs_afterPushaPopa (hs : s.inv = true) (hsp : u8 s.sp ≤ 60) (hlen : between.length = 5) :
    (afterPushaPopa Config.parameters s ip ir between).regs =
      s.regs.set Reg.ports.index (between.getD Reg.ports.index 0x00) := by
  have hlen' : s.regs.length = 5 := (State.inv_iff.1 hs).2.2
  refine State.regs_ext (t := s.setReg Reg.ports.index _)
    (by rw [length_regs_afterPushaPopa, hlen, State.length_regs_setReg, hlen']) fun j hj => ?_
  have hgeneral {r : Reg} {v : Byte} (hr : r ≠ .ports) (h : j = r.index) :
      (afterPushaPopa Config.parameters s ip ir between).reg j = (s.setReg Reg.ports.index v).reg j := by
    rw [State.reg_setReg_other _ _ (by rw [h]; exact Reg.index_inj.not.2 hr), h]
    exact reg_afterPushaPopa_general hs hsp hlen hr
  rw [length_regs_afterPushaPopa, hlen] at hj
  match j, hj with
  | 0, _ => exact hgeneral (r := .a) (by decide) rfl
  | 1, _ => exact hgeneral (r := .b) (by decide) rfl
  | 2, _ => exact hgeneral (r := .c) (by decide) rfl
  | 3, _ => exact hgeneral (r := .d) (by decide) rfl
  | 4, _ =>
    have hports : Reg.ports.index < s.regs.length := hlen' ▸ Reg.index_lt .ports _
    exact (reg_afterPushaPopa_other fun _ hr => Reg.index_inj.not.2 hr.symm).trans
      (State.reg_setReg_same s _ hports).symm

end

/-- Settles O45: what the pair of sequences does to the registers, to `sp` and to the rest of the state. -/
theorem pushaThenPopaRestoresTheRegisters : Obligations.PushaThenPopaRestoresTheRegisters := by
  intro s hsp
  refine ⟨fun hs => ⟨afterPusha Config.parameters s, rfl, fun ip ir between hlen => ?default⟩,
    fun cfg hs => ⟨afterPusha cfg s, rfl, fun ip ir between hlen =>
      ⟨afterPushaPopa cfg s ip ir between, rfl, fun r hr => ?general, fun j hj => ?other, ?length, ?frame⟩⟩⟩
  case default =>
    calc exec .popa { afterPusha Config.parameters s with ip := ip, ir := ir, regs := between }
        = .next (afterPushaPopa Config.parameters s ip ir between) := rfl
      _ = .next { afterPushaPopa Config.parameters s ip ir between with
            regs := s.regs.set Reg.ports.index (between.getD Reg.ports.index 0x00) } := by
          rw [← regs_afterPushaPopa (ip := ip) (ir := ir) hs hsp hlen]
      _ = _ := by rw [afterPushaPopa_frame hs hsp]
  case general => exact reg_afterPushaPopa_general hs hsp hlen hr
  case other => exact reg_afterPushaPopa_other hj
  case length => exact length_regs_afterPushaPopa.trans hlen
  case frame => exact afterPushaPopa_frame hs hsp between

end Sys2Proof.Proofs
end

