-- ==== Sys2Proof/Proofs/Frames.lean ====
section
/-!
PROOFS. Sys2Proof/Proofs/Frames.lean: what instructions leave unchanged and which faults they raise, over the whole set
(10_state.md R21 to R40, 60_exceptions.md R261 to R266): each statement is a case split over the effects.
-/

namespace Sys2Proof.Proofs

open Sys2Proof.Machine

variable {cfg : Config.Parameters} {i : Instr} {s t : State}

/-! ### The two sequences, field by field -/

/-- A state without what pushes write. -/
def withoutPushed (s : State) : State := { s with stack := [], sp := 0x00, fault := false, faultCode := 0x00 }

/-- A state without what pops into registers write. -/
def withoutPopped (s : State) : State := { s with regs := [], sp := 0x00, fault := false, faultCode := 0x00 }

/-- Pushes write the stack, `sp`, `fault` and `faultCode`, and nothing else. -/
theorem pushAll_rest (vs : List Byte) (s : State) : withoutPushed (s.pushAll vs cfg) = withoutPushed s := by
  refine State.pushAll_induction (P := fun t => withoutPushed t = withoutPushed s) (fun t t' v ht hpush => ?push)
    (fun t ht => ?fault) vs s rfl
  case push =>
    obtain ⟨-, rfl⟩ := State.push_ok_iff.1 hpush
    exact ht
  case fault => exact ht

/-- Pops write the registers, `sp`, `fault` and `faultCode`, and nothing else. -/
theorem popAll_rest (rs : List Nat) (s : State) : withoutPopped (s.popAll rs cfg) = withoutPopped s := by
  refine State.popAll_induction (P := fun t => withoutPopped t = withoutPopped s) (ok := fun _ => True)
    (fun t t' v r _ ht hpop => ?pop) (fun t ht => ?fault) rs s (fun _ _ => trivial) rfl
  case pop =>
    obtain ⟨-, -, rfl⟩ := State.pop_ok_iff.1 hpop
    exact ht
  case fault => exact ht

@[simp] theorem pushAll_regs (vs : List Byte) (s : State) : (s.pushAll vs cfg).regs = s.regs :=
  (congrArg State.regs (pushAll_rest (cfg := cfg) vs s) :)
@[simp] theorem pushAll_ip (vs : List Byte) (s : State) : (s.pushAll vs cfg).ip = s.ip :=
  (congrArg State.ip (pushAll_rest (cfg := cfg) vs s) :)
@[simp] theorem pushAll_zero (vs : List Byte) (s : State) : (s.pushAll vs cfg).zero = s.zero :=
  (congrArg State.zero (pushAll_rest (cfg := cfg) vs s) :)
@[simp] theorem pushAll_overflow (vs : List Byte) (s : State) : (s.pushAll vs cfg).overflow = s.overflow :=
  (congrArg State.overflow (pushAll_rest (cfg := cfg) vs s) :)
@[simp] theorem pushAll_carry (vs : List Byte) (s : State) : (s.pushAll vs cfg).carry = s.carry :=
  (congrArg State.carry (pushAll_rest (cfg := cfg) vs s) :)
@[simp] theorem pushAll_wait (vs : List Byte) (s : State) : (s.pushAll vs cfg).wait = s.wait :=
  (congrArg State.wait (pushAll_rest (cfg := cfg) vs s) :)
@[simp] theorem pushAll_stepReq (vs : List Byte) (s : State) : (s.pushAll vs cfg).stepReq = s.stepReq :=
  (congrArg State.stepReq (pushAll_rest (cfg := cfg) vs s) :)
@[simp] theorem pushAll_ir (vs : List Byte) (s : State) : (s.pushAll vs cfg).ir = s.ir :=
  (congrArg State.ir (pushAll_rest (cfg := cfg) vs s) :)
@[simp] theorem pushAll_diag (vs : List Byte) (s : State) : (s.pushAll vs cfg).diag = s.diag :=
  (congrArg State.diag (pushAll_rest (cfg := cfg) vs s) :)
@[simp] theorem pushAll_prog (vs : List Byte) (s : State) : (s.pushAll vs cfg).prog = s.prog :=
  (congrArg State.prog (pushAll_rest (cfg := cfg) vs s) :)
@[simp] theorem pushAll_labels (vs : List Byte) (s : State) : (s.pushAll vs cfg).labels = s.labels :=
  (congrArg State.labels (pushAll_rest (cfg := cfg) vs s) :)

@[simp] theorem popAll_stack (rs : List Nat) (s : State) : (s.popAll rs cfg).stack = s.stack :=
  (congrArg State.stack (popAll_rest (cfg := cfg) rs s) :)
@[simp] theorem popAll_ip (rs : List Nat) (s : State) : (s.popAll rs cfg).ip = s.ip :=
  (congrArg State.ip (popAll_rest (cfg := cfg) rs s) :)
@[simp] theorem popAll_zero (rs : List Nat) (s : State) : (s.popAll rs cfg).zero = s.zero :=
  (congrArg State.zero (popAll_rest (cfg := cfg) rs s) :)
@[simp] theorem popAll_overflow (rs : List Nat) (s : State) : (s.popAll rs cfg).overflow = s.overflow :=
  (congrArg State.overflow (popAll_rest (cfg := cfg) rs s) :)
@[simp] theorem popAll_carry (rs : List Nat) (s : State) : (s.popAll rs cfg).carry = s.carry :=
  (congrArg State.carry (popAll_rest (cfg := cfg) rs s) :)
@[simp] theorem popAll_wait (rs : List Nat) (s : State) : (s.popAll rs cfg).wait = s.wait :=
  (congrArg State.wait (popAll_rest (cfg := cfg) rs s) :)
@[simp] theorem popAll_stepReq (rs : List Nat) (s : State) : (s.popAll rs cfg).stepReq = s.stepReq :=
  (congrArg State.stepReq (popAll_rest (cfg := cfg) rs s) :)
@[simp] theorem popAll_ir (rs : List Nat) (s : State) : (s.popAll rs cfg).ir = s.ir :=
  (congrArg State.ir (popAll_rest (cfg := cfg) rs s) :)
@[simp] theorem popAll_diag (rs : List Nat) (s : State) : (s.popAll rs cfg).diag = s.diag :=
  (congrArg State.diag (popAll_rest (cfg := cfg) rs s) :)
@[simp] theorem popAll_prog (rs : List Nat) (s : State) : (s.popAll rs cfg).prog = s.prog :=
  (congrArg State.prog (popAll_rest (cfg := cfg) rs s) :)
@[simp] theorem popAll_labels (rs : List Nat) (s : State) : (s.popAll rs cfg).labels = s.labels :=
  (congrArg State.labels (popAll_rest (cfg := cfg) rs s) :)

/-- The fault record is that of a state before, or that of a fault with one code. -/
def FaultRecordFrom (s : State) (code : Byte) (t : State) : Prop :=
  t.fault = s.fault ∧ t.faultCode = s.faultCode ∨ t.fault = true ∧ t.faultCode = code

theorem pushAll_fault (vs : List Byte) (s : State) :
    FaultRecordFrom s (cfg.faultCodeMap .stackOverflow) (s.pushAll vs cfg) := by
  refine State.pushAll_induction (P := FaultRecordFrom s _) (fun t t' v ht hpush => ?_) (fun t _ => .inr ⟨rfl, rfl⟩) vs s
    (.inl ⟨rfl, rfl⟩)
  obtain ⟨-, rfl⟩ := State.push_ok_iff.1 hpush
  exact ht

theorem popAll_fault (rs : List Nat) (s : State) :
    FaultRecordFrom s (cfg.faultCodeMap .stackUnderflow) (s.popAll rs cfg) := by
  refine State.popAll_induction (P := FaultRecordFrom s _) (ok := fun _ => True) (fun t t' v r _ ht hpop => ?_)
    (fun t _ => .inr ⟨rfl, rfl⟩) rs s (fun _ _ => trivial) (.inl ⟨rfl, rfl⟩)
  obtain ⟨-, -, rfl⟩ := State.pop_ok_iff.1 hpop
  exact ht

/-! ### Which effects write a field -/

theorem mem_of_subset {ops ops' : List Opcode} {op : Opcode} (h : op ∈ ops) (hsub : ops ⊆ ops') : op ∈ ops' := hsub h

/-- The opcodes that move `ip` (R26). -/
def ipWriters : List Opcode := [.jmp, .loop, .jz, .je, .jnz, .jne, .jc, .jnc, .djnz, .call, .ret]

/-- `ip` moves only in a control transfer, and with a move comes no fault. -/
theorem ip_of_effect (h : Effect cfg s i t) : t.ip = s.ip ∨ i.opcode ∈ ipWriters ∧ t.fault = s.fault := by
  cases h with
  | call _ hi => exact .inr ⟨by simp [hi, Instr.opcode, ipWriters], rfl⟩
  | ret _ hop => exact .inr ⟨by rw [hop]; decide, rfl⟩
  | jump _ hop => exact .inr ⟨mem_of_subset hop (by decide), rfl⟩
  | countedJump _ _ hop => exact .inr ⟨by rw [hop]; decide, rfl⟩
  | pushAll => exact .inl (pushAll_ip _ s)
  | popAll => exact .inl (popAll_ip _ s)
  | _ => exact .inl rfl

/-- Settles O12: `ip` moves only in a control transfer, and with a move comes no fault. -/
theorem onlyControlTransfersMoveIp : Obligations.OnlyControlTransfersMoveIp := by
  intro i s t h
  obtain hip | ⟨hop, hfault⟩ := ip_of_effect (effect_of_exec h)
  · exact ⟨fun _ => hip, fun _ _ => hip⟩
  · exact ⟨fun hnot => absurd hop hnot, fun hs ht => by simp [hfault, hs] at ht⟩

/-- The opcodes that list `zero` (R31). -/
def zeroWriters : List Opcode :=
  [.add, .sub, .mul, .div, .and, .or, .xor, .not, .cmp, .shl, .sal, .shr, .sar, .rol, .ror, .inc, .dec, .djnz, .clz, .sez]

theorem zero_of_effect (h : Effect cfg s i t) : t.zero = s.zero ∨ i.opcode ∈ zeroWriters := by
  cases h with
  | arith _ hop => exact .inr (mem_of_subset hop (by decide))
  | logic _ hop => exact .inr (mem_of_subset hop (by decide))
  | compare _ _ _ hop => exact .inr (by rw [hop]; decide)
  | countedJump _ _ hop => exact .inr (by rw [hop]; decide)
  | countedFault _ hop => exact .inr (by rw [hop]; decide)
  | zero _ hop => exact .inr (mem_of_subset hop (by decide))
  | pushAll => exact .inl (pushAll_zero _ s)
  | popAll => exact .inl (popAll_zero _ s)
  | _ => exact .inl rfl

theorem overflow_of_effect (h : Effect cfg s i t) :
    t.overflow = s.overflow ∨ i.opcode ∈ [Opcode.add, .sub, .mul, .div, .cmp] := by
  cases h with
  | arith _ hop => exact .inr (mem_of_subset hop (by decide))
  | compare _ _ _ hop => exact .inr (by rw [hop]; decide)
  | pushAll => exact .inl (pushAll_overflow _ s)
  | popAll => exact .inl (popAll_overflow _ s)
  | _ => exact .inl rfl

theorem carry_of_effect (h : Effect cfg s i t) : t.carry = s.carry ∨ i.opcode ∈ [Opcode.cmp, .clc, .sec] := by
  cases h with
  | compare _ _ _ hop => exact .inr (by rw [hop]; decide)
  | carry _ hop => exact .inr (mem_of_subset hop (by decide))
  | pushAll => exact .inl (pushAll_carry _ s)
  | popAll => exact .inl (popAll_carry _ s)
  | _ => exact .inl rfl

/-- Settles O13: a flag that changes belongs to an opcode that lists it. -/
theorem unlistedFlagsKeepTheirValue : Obligations.UnlistedFlagsKeepTheirValue := by
  intro i s t h
  have heffect := effect_of_exec h
  exact ⟨(zero_of_effect heffect).resolve_right, (overflow_of_effect heffect).resolve_right,
    (carry_of_effect heffect).resolve_right⟩

/-- Every register but the destination is as before. -/
theorem reg_of_effect (h : Effect Config.parameters s i t) {q : Nat} (hq : mayWriteReg i q = false) :
    t.reg q = s.reg q := by
  have hne {r : Nat} (hr : destReg Config.parameters i = some r) : q ≠ r := by
    rintro rfl
    simp [mayWriteReg_of_destReg hr] at hq
  cases h with
  | arith _ _ hr => exact State.reg_setReg_other s _ (hne hr)
  | logic _ _ hr => exact State.reg_setReg_other s _ (hne hr)
  | register _ _ hr => exact State.reg_setReg_other s _ (hne hr)
  | pop _ _ hr => exact State.reg_setReg_other _ _ (hne hr)
  | countedJump _ _ _ hr => exact State.reg_setReg_other s _ (hne hr)
  | countedFault _ _ hr => exact State.reg_setReg_other s _ (hne hr)
  | pushAll => exact State.reg_eq_of_regs_eq (pushAll_regs _ s) q
  | popAll hi =>
    subst hi
    simp only [mayWriteReg, List.contains_eq_mem, decide_eq_false_iff_not] at hq
    exact reg_popAll_other (mt List.mem_reverse.1 hq)
  | _ => rfl

/-- The register file is never resized (R21). -/
theorem length_regs_of_effect (h : Effect cfg s i t) : t.regs.length = s.regs.length := by
  cases h with
  | arith | logic | register | pop | countedJump | countedFault => exact List.length_set
  | pushAll => exact congrArg List.length (pushAll_regs _ s)
  | popAll => exact length_regs_popAll _ s
  | _ => rfl

/-- Settles O14: every effect writes the destination alone, and none resizes the file. -/
theorem onlyDestinationRegistersChange : Obligations.OnlyDestinationRegistersChange :=
  fun _ _ _ h => ⟨length_regs_of_effect (effect_of_exec h), fun _ => reg_of_effect (effect_of_exec h)⟩

/-- Every cell but those `mayStore` computes is as before. -/
theorem memRead_of_effect (h : Effect Config.parameters s i t) {idx : Nat} (hidx : mayStore i s idx = false) :
    t.memRead idx = s.memRead idx := by
  cases h with
  | cell v hi hdest =>
    subst hi
    refine State.memRead_memWrite_other s v ?_
    rintro rfl
    simp [mayStore, moveStoresAt, hdest] at hidx
  | push v hi =>
    subst hi
    exact memRead_pushed_other s v (by simpa [mayStore] using hidx)
  | pushAll hi =>
    subst hi
    have hout : idx < u8 s.sp ∨ u8 s.sp + 4 ≤ idx := by
      simp only [mayStore, Bool.and_eq_false_iff, decide_eq_false_iff_not] at hidx
      omega
    exact memRead_pushAll_other _ (hout.imp_right .inl)
  | call a hi =>
    subst hi
    simp only [mayStore, Bool.or_eq_false_iff, beq_eq_false_iff_ne] at hidx
    exact memRead_pushReturn_other s hidx.1 hidx.2
  | popAll => exact State.memRead_eq_of_stack_eq (popAll_stack _ s) idx
  | _ => rfl

/-- Settles O15: every effect stores to the cells `mayStore` computes and to no other. -/
theorem onlyStoredCellsChange : Obligations.OnlyStoredCellsChange :=
  fun _ _ _ h _ => memRead_of_effect (effect_of_exec h)

/-- No instruction writes `ir`, the step request, the program or the labels (R36, R38, R39). -/
theorem host_fields_of_effect (h : Effect cfg s i t) :
    t.ir = s.ir ∧ t.stepReq = s.stepReq ∧ t.prog = s.prog ∧ t.labels = s.labels := by
  cases h with
  | pushAll => exact ⟨pushAll_ir _ s, pushAll_stepReq _ s, pushAll_prog _ s, pushAll_labels _ s⟩
  | popAll => exact ⟨popAll_ir _ s, popAll_stepReq _ s, popAll_prog _ s, popAll_labels _ s⟩
  | _ => exact ⟨rfl, rfl, rfl, rfl⟩

/-- `wait` is set, never cleared, and by WFE alone (R34). -/
theorem wait_of_effect (h : Effect cfg s i t) : t.wait = s.wait ∨ i.opcode = .wfe ∧ t.wait = true := by
  cases h with
  | wait hop => exact .inr ⟨hop, rfl⟩
  | pushAll => exact .inl (pushAll_wait _ s)
  | popAll => exact .inl (popAll_wait _ s)
  | _ => exact .inl rfl

theorem sp_of_effect (h : Effect cfg s i t) :
    t.sp = s.sp ∨ i.opcode ∈ [Opcode.push, .pop, .pusha, .popa, .call, .ret] := by
  cases h with
  | push _ hi => exact .inr (by simp [hi, Instr.opcode])
  | pop hop => exact .inr (by rw [hop]; decide)
  | pushAll hi => exact .inr (by simp [hi, Instr.opcode])
  | popAll hi => exact .inr (by simp [hi, Instr.opcode])
  | call _ hi => exact .inr (by simp [hi, Instr.opcode])
  | ret _ hop => exact .inr (by rw [hop]; decide)
  | _ => exact .inl rfl

/-- An instruction leaves the fault record as it is, or takes a fault that it can raise (R33, R266). -/
theorem fault_of_effect (h : Effect cfg s i t) :
    (t.fault = s.fault ∧ t.faultCode = s.faultCode ∧ t.diag = s.diag) ∨
      t.fault = true ∧ ∃ e, CanRaise cfg s i e ∧ t.faultCode = cfg.faultCodeMap (e.faultCode cfg) := by
  cases h with
  | raised hcan => exact .inr ⟨rfl, _, hcan, rfl⟩
  | countedFault _ _ _ hcan => exact .inr ⟨rfl, _, hcan, rfl⟩
  | pushAll hi =>
    obtain ⟨hfault, hcode⟩ | ⟨hfault, hcode⟩ := pushAll_fault (cfg := cfg) ((Config.generalRegisters cfg).map s.reg) s
    · exact .inl ⟨hfault, hcode, pushAll_diag _ s⟩
    · exact .inr ⟨hfault, _, .stackOverflow (by rw [hi]; decide), hcode⟩
  | popAll hi =>
    obtain ⟨hfault, hcode⟩ | ⟨hfault, hcode⟩ := popAll_fault (cfg := cfg) (Config.generalRegisters cfg).reverse s
    · exact .inl ⟨hfault, hcode, popAll_diag _ s⟩
    · exact .inr ⟨hfault, _, .stackUnderflow (by rw [hi]; decide), hcode⟩
  | _ => exact .inl ⟨rfl, rfl, rfl⟩

/-- Settles O16: field by field, the effects that write it belong to its writers. -/
theorem otherStateIsWrittenOnlyByItsWriters : Obligations.OtherStateIsWrittenOnlyByItsWriters := by
  intro i s t h
  have heffect := effect_of_exec h
  refine ⟨host_fields_of_effect heffect, fun hop => ?wait, (sp_of_effect heffect).resolve_right, fun ht => ?fault⟩
  case wait => exact (wait_of_effect heffect).resolve_right fun hwfe => hop hwfe.1
  case fault =>
    obtain ⟨hfault, hrest⟩ | ⟨hfault, -⟩ := fault_of_effect heffect
    · exact ⟨hfault ▸ ht, hrest⟩
    · simp [hfault] at ht

/-! ### Faults (60_exceptions.md) -/

/-- Settles O17: but for PUSHA, POPA and DJNZ, the one effect that sets `fault` is taking a fault on the state as it was. -/
theorem faultsChangeNothingElse : Obligations.FaultsChangeNothingElse := by
  intro i s t hop hs h ht
  cases effect_of_exec h with
  | raised => rfl
  | countedFault _ hdjnz => simp [hdjnz] at hop
  | pushAll hi => simp [hi, Instr.opcode] at hop
  | popAll hi => simp [hi, Instr.opcode] at hop
  | _ => cases hs.symm.trans ht

/-- A fault of a run comes from one that the instruction can raise. -/
theorem canRaise_of_fault (h : Effect cfg s i t) (hs : s.fault = false) (ht : t.fault = true) :
    ∃ e, CanRaise cfg s i e ∧ t.faultCode = cfg.faultCodeMap (e.faultCode cfg) := by
  obtain ⟨hfault, -⟩ | ⟨-, hraise⟩ := fault_of_effect h
  · simp [hfault, hs] at ht
  · exact hraise

/-- An instruction without operand slots meets every condition on operands. -/
theorem wellFormed_of_format_n (hn : i.opcode.format = .n) (n : Nat) (labels : List Label) :
    (i.wellFormed cfg && i.labelsIn n labels) = true := by
  cases i
  case pusha | popa | ret | clz | sez | clc | sec | wfe | hlt | nop => rfl
  all_goals cases hn

/-- What the code of a fault says of the instruction that raised it, at the default codes (R261, D3, D10). -/
theorem raiser_of_faultCode {e : Trap} (h : CanRaise Config.parameters s i e) :
    e.faultCode = .codeError ∧ i.opcode.format ≠ .n ∨ e.faultCode = .outOfBounds ∧ addressesCell i = true ∨
      e.faultCode = .divisionByZero ∧ i.opcode = .div ∨
      e.faultCode = .stackUnderflow ∧ i.opcode ∈ [Opcode.pop, .popa, .ret] ∨
      e.faultCode = .stackOverflow ∧ i.opcode ∈ [Opcode.push, .pusha, .call] ∨
      e.faultCode = .halted ∧ i.opcode = .hlt := by
  cases h with
  | operand htrap =>
    cases htrap with
    | internal hbad => exact .inl ⟨rfl, fun hn => by simp [wellFormed_of_format_n hn] at hbad⟩
    | outOfBounds hcell => exact .inr (.inl ⟨rfl, hcell⟩)
  | labelDestination hop => exact .inl ⟨rfl, by rw [hop]; decide⟩
  | divisionByZero hop => exact .inr (.inr (.inl ⟨rfl, hop⟩))
  | stackUnderflow hop => exact .inr (.inr (.inr (.inl ⟨rfl, hop⟩)))
  | stackOverflow hop => exact .inr (.inr (.inr (.inr (.inl ⟨rfl, hop⟩))))
  | halted hop => exact .inr (.inr (.inr (.inr (.inr ⟨rfl, hop⟩))))

theorem eq_hlt_of_opcode (h : i.opcode = .hlt) : i = .hlt := by
  cases i <;> cases h
  rfl

/-- Settles O18: the six codes an instruction can raise are different codes, and each belongs to its raisers. -/
theorem faultCodesComeFromTheirRaisers : Obligations.FaultCodesComeFromTheirRaisers := by
  intro i s t hs h ht
  obtain ⟨e, hcan, hcode⟩ := canRaise_of_fault (effect_of_exec h) hs ht
  have hhalted : i.opcode = .hlt → e.faultCode = .halted := by
    intro hop
    obtain rfl := eq_hlt_of_opcode hop
    obtain rfl : s.raise (.code .halted) = t := by simpa [exec_hlt] using h
    rw [State.raise_faultCode] at hcode
    exact (Config.parameters.faultCodeMap_injective hcode).symm
  rw [Config.parameters_faultCodeMap] at hcode
  simp only [hcode, Config.faultCodeMap_injective.eq_iff, ne_eq, Config.internalFaultCode]
  obtain ⟨he, hop⟩ | ⟨he, hop⟩ | ⟨he, hop⟩ | ⟨he, hop⟩ | ⟨he, hop⟩ | ⟨he, hop⟩ := raiser_of_faultCode hcan
  all_goals
    rw [he] at hhalted ⊢
    simp_all

/-! ### The order of faults -/

/-- A fault of format DS's checks is the instruction's, for all eleven of them (R140). -/
theorem exec_of_destInputs_error {s0 s1 : Slot} {off : Byte} {e : Trap} (h : destInputs s0 s1 off s = .error e) :
    exec (.add s0 s1 off) s = .next (s.raise e) ∧ exec (.sub s0 s1 off) s = .next (s.raise e) ∧
      exec (.and s0 s1 off) s = .next (s.raise e) ∧ exec (.or s0 s1 off) s = .next (s.raise e) ∧
      exec (.xor s0 s1 off) s = .next (s.raise e) ∧ exec (.shl s0 s1 off) s = .next (s.raise e) ∧
      exec (.sal s0 s1 off) s = .next (s.raise e) ∧ exec (.shr s0 s1 off) s = .next (s.raise e) ∧
      exec (.sar s0 s1 off) s = .next (s.raise e) ∧ exec (.rol s0 s1 off) s = .next (s.raise e) ∧
      exec (.ror s0 s1 off) s = .next (s.raise e) := by
  repeat' apply And.intro
  all_goals exact conclude_of_error h _

/-- A fault of format D's checks is that of format DS and of DJNZ as well. -/
theorem exec_of_destInput_error {s0 : Slot} {off : Byte} {e : Trap} (s1 : Slot) (h : destInput s0 off s = .error e) :
    exec (.add s0 s1 off) s = .next (s.raise e) ∧ exec (.sub s0 s1 off) s = .next (s.raise e) ∧
      exec (.and s0 s1 off) s = .next (s.raise e) ∧ exec (.or s0 s1 off) s = .next (s.raise e) ∧
      exec (.xor s0 s1 off) s = .next (s.raise e) ∧ exec (.shl s0 s1 off) s = .next (s.raise e) ∧
      exec (.sal s0 s1 off) s = .next (s.raise e) ∧ exec (.shr s0 s1 off) s = .next (s.raise e) ∧
      exec (.sar s0 s1 off) s = .next (s.raise e) ∧ exec (.rol s0 s1 off) s = .next (s.raise e) ∧
      exec (.ror s0 s1 off) s = .next (s.raise e) ∧ exec (.not s0 off) s = .next (s.raise e) ∧
      exec (.inc s0 off) s = .next (s.raise e) ∧ exec (.dec s0 off) s = .next (s.raise e) ∧
      exec (.djnz s0 s1 off) s = .next (s.raise e) := by
  have hds : destInputs s0 s1 off s = .error e := by simp only [destInputs, h]
  obtain ⟨hadd, hsub, hand, hor, hxor, hshl, hsal, hshr, hsar, hrol, hror⟩ := exec_of_destInputs_error hds
  exact ⟨hadd, hsub, hand, hor, hxor, hshl, hsal, hshr, hsar, hrol, hror, conclude_of_error h _, conclude_of_error h _,
    conclude_of_error h _, execDjnz_next_iff.2 (.inl ⟨e, h, rfl⟩)⟩

/-- Settles O19: each premise is a fault of the instruction's own checks, which end it before any write. -/
theorem operandFaultsComeFirst : Obligations.OperandFaultsComeFirst := by
  intro s0 s1 off s e
  refine ⟨fun hdst => ?dst, fun r hdst hslot => ?slot0, fun r a hdst hslot0 hslot1 => ?slot1, fun hslot => ?alone,
    fun a hslot0 hslot1 => ?cmp, fun hslot => ?mov⟩
  case dst => exact exec_of_destInput_error s1 (by simp only [destInput, hdst])
  case slot0 => exact exec_of_destInput_error s1 (by simp only [destInput, hdst, hslot])
  case slot1 => exact exec_of_destInputs_error (by simp only [destInputs, destInput, hdst, hslot0, hslot1])
  case alone =>
    have hdiv : divisor s0 off s = .error e := by simp only [divisor, hslot]
    have hpush : pushOperand s0 off s = .error e := by simp only [pushOperand, hslot]
    have hcmp : sourceInputs s0 s1 off s = .error e := by simp only [sourceInputs, hslot]
    exact ⟨conclude_of_error hslot _, conclude_of_error hdiv _, conclude_of_error hpush _, conclude_of_error hcmp _⟩
  case cmp =>
    have hcmp : sourceInputs s0 s1 off s = .error e := by simp only [sourceInputs, hslot0, hslot1]
    exact conclude_of_error hcmp _
  case mov =>
    have hmov : moveParts s0 s1 off s = .error e := by simp only [moveParts, hslot]
    exact conclude_of_error hmov _

end Sys2Proof.Proofs
end

