-- ==== Sys2Proof/Proofs/Ticks.lean ====
section
/-!
PROOFS. Sys2Proof/Proofs/Ticks.lean: the ways a tick can end (40_engine.md R120 to R127), in the words of the statements:
the clamp and the next slot as the spec writes them.
-/

namespace Sys2Proof.Proofs

open Sys2Proof.Machine

variable {cfg : Config.Parameters} {s t : State} {r : Record}

/-! ### The clamp, the next slot and the halt check -/

/-- The slot a tick fetches from (R123): `ip` is read signed, so 0x8000 and above are clamped to 0 (D12). -/
def fetchSlot (s : State) : SlotAddr := if 0x8000 ≤ s.ip.toNat then 0x0000 else s.ip

theorem clampIp_eq_fetchSlot (s : State) : clampIp s.ip = fetchSlot s := by
  have hneg : s16 s.ip < 0 ↔ 0x8000 ≤ s.ip.toNat := by
    rw [s16, BitVec.toInt_neg_iff]
    omega
  simp only [clampIp, fetchSlot, hneg]

/-- The increment of `ip` (R125). -/
theorem trunc16_add_one (a : SlotAddr) : trunc16 ((u16 a : Int) + 1) = a + 1 := by
  rw [trunc16, u16, BitVec.ofInt_add, BitVec.ofInt_natCast, BitVec.ofNat_toNat, BitVec.setWidth_eq]
  rfl

/-- The state of a tick after the halt check and the clamp. -/
theorem prepared_eq (s : State) : s.prepared = { s with stepReq := false, ip := fetchSlot s } := by
  rw [State.prepared, clampIp_eq_fetchSlot]

/-- The state an instruction runs on. -/
theorem fetched_prepared_eq (s : State) (r : Record) :
    s.prepared.fetched r = { s with stepReq := false, ip := fetchSlot s + 1, ir := some r } := by
  rw [prepared_eq, State.fetched, trunc16_add_one]

/-- A core that is neither faulted nor waiting without a step request passes the halt check (R121). -/
theorem not_halted (hfault : s.fault = false) (hwait : s.wait = false ∨ s.stepReq = true) : s.halted = false := by
  rw [Bool.eq_false_iff, Ne, halted_iff]
  obtain hwait | hstep := hwait
  · simp [hfault, hwait]
  · simp [hfault, hstep]

/-! ### The ends of a tick that passes the halt check -/

theorem stepWith_of_decoded {i : Instr} (h : s.halted = false) (hr : s.prog[(fetchSlot s).toNat]? = some r)
    (hi : decode r cfg = .ok i) :
    stepWith cfg s = execWith cfg i { s with stepReq := false, ip := fetchSlot s + 1, ir := some r } := by
  rw [← fetched_prepared_eq]
  have hr' : s.prog[u16 s.prepared.ip]? = some r := by rw [prepared_eq]; exact hr
  simp only [stepWith, beginTick, h, State.prepared_prog, hr', hi, Bool.false_eq_true, if_false]

theorem stepWith_of_undefined {e : DecodeError} (h : s.halted = false) (hr : s.prog[(fetchSlot s).toNat]? = some r)
    (he : decode r cfg = .error e) :
    stepWith cfg s =
      .next (State.raise { s with stepReq := false, ip := fetchSlot s + 1, ir := some r } .internal cfg) := by
  rw [← fetched_prepared_eq]
  have hr' : s.prog[u16 s.prepared.ip]? = some r := by rw [prepared_eq]; exact hr
  simp only [stepWith, beginTick, h, State.prepared_prog, hr', he, Bool.false_eq_true, if_false]

theorem stepWith_of_no_record (h : s.halted = false) (hr : s.prog.length ≤ (fetchSlot s).toNat) :
    stepWith cfg s = .next (State.raise { s with stepReq := false, ip := fetchSlot s } (.code .undefinedIp) cfg) := by
  rw [← prepared_eq]
  have hr' : s.prog[u16 s.prepared.ip]? = none := by
    rw [prepared_eq]
    exact List.getElem?_eq_none hr
  simp only [stepWith, beginTick, h, State.prepared_prog, hr', Bool.false_eq_true, if_false]

/-- Settles O6: the case of a record that decodes, at the default parameters and at any others. -/
theorem stepRunsTheDecodedInstruction : Obligations.StepRunsTheDecodedInstruction := by
  intro s r i hfault hwait hr
  have hrun : s.halted = false := not_halted hfault hwait
  refine ⟨fun hi => ?_, fun cfg hi => stepWith_of_decoded hrun hr hi⟩
  rw [← stepWith_parameters, ← execWith_parameters]
  exact stepWith_of_decoded hrun hr hi

/-- Settles O8: the case of no record. -/
theorem fetchOutsideTheProgramFaults : Obligations.FetchOutsideTheProgramFaults := by
  intro s hfault hwait hr
  rw [← stepWith_parameters]
  exact stepWith_of_no_record (not_halted hfault hwait) hr

/-- Settles O9: the case of a record that does not decode; the bytes from 0x28 on are those no mnemonic has by default. -/
theorem undefinedOpcodeFaultsAfterTheFetch : Obligations.UndefinedOpcodeFaultsAfterTheFetch := by
  intro s r hfault hwait hr
  have hrun : s.halted = false := not_halted hfault hwait
  refine ⟨fun hop => ⟨Config.diagText (some r), ?_⟩, fun cfg hop =>
    ⟨Config.diagText (some r), stepWith_of_undefined hrun hr (decode_of_no_opcode hop)⟩⟩
  rw [← stepWith_parameters]
  exact stepWith_of_undefined hrun hr (decode_of_no_opcode (opcodeMap_ne_of_le hop))

/-! ### Every tick -/

theorem jumpIf_answers (cond : Bool) (k : Slot) (off : Byte) (s : State) : ∃ t, jumpIf cfg cond k off s = .next t := by
  unfold jumpIf
  split
  · exact conclude_answers s _ _
  · exact ⟨s, rfl⟩

theorem execDjnz_answers (s0 s1 : Slot) (off : Byte) (s : State) : ∃ t, execDjnz s0 s1 off s cfg = .next t := by
  unfold execDjnz
  split
  · exact ⟨_, rfl⟩
  · exact jumpIf_answers _ _ _ _

/-- Every instruction has a meaning that answers a next state (R126). -/
theorem execWith_answers (cfg : Config.Parameters) (i : Instr) (s : State) : ∃ t, execWith cfg i s = .next t := by
  cases i
  case add | sub | mul | div | and | or | xor | not | cmp | mov | shl | sal | shr | sar | rol | ror | inc | dec | push | pop |
      call | ret | jmp | loop =>
    exact conclude_answers s _ _
  case jz | je | jnz | jne | jc | jnc => exact jumpIf_answers _ _ _ s
  case djnz => exact execDjnz_answers _ _ _ s
  case pusha | popa | clz | sez | clc | sec | wfe | hlt | nop => exact ⟨_, rfl⟩

theorem stepWith_answers (cfg : Config.Parameters) (s : State) : ∃ t, stepWith cfg s = .next t := by
  obtain ⟨-, h⟩ | ⟨-, -, h⟩ | ⟨r, e, -, -, -, h⟩ | ⟨r, i, -, -, -, h⟩ := stepWith_cases cfg s
  · exact ⟨_, h⟩
  · exact ⟨_, h⟩
  · exact ⟨_, h⟩
  · rw [h]
    exact execWith_answers cfg i _

/-- Settles O11: each way a tick can end answers a next state. -/
theorem everyTickAnswersANextState : Obligations.EveryTickAnswersANextState := by
  refine fun s => ⟨?_, fun cfg => stepWith_answers cfg s⟩
  rw [← stepWith_parameters]
  exact stepWith_answers Config.parameters s

/-- Everything a tick that passes the halt check does to the step request and to `wait` (R122, R34). -/
theorem step_consumes_request (h : s.halted = false) (ht : step s = .next t) :
    t.stepReq = false ∧ (s.wait = true → t.wait = true) := by
  obtain ⟨hh, -⟩ | ⟨-, -, hstep⟩ | ⟨r, e, -, -, -, hstep⟩ | ⟨r, i, -, -, -, hstep⟩ := step_cases s
  · simp [h] at hh
  · cases hstep.symm.trans ht
    exact ⟨rfl, id⟩
  · cases hstep.symm.trans ht
    exact ⟨rfl, id⟩
  · have heffect := effect_of_exec (hstep.symm.trans ht)
    obtain ⟨-, hreq, -⟩ := host_fields_of_effect heffect
    refine ⟨hreq, fun hwait => ?_⟩
    obtain hsame | ⟨-, hset⟩ := wait_of_effect heffect
    · exact hsame.trans hwait
    · exact hset

/-- Settles O10: the request is gone and `wait` is kept, so a waiting core is halted at the next tick. -/
theorem tickConsumesTheStepRequest : Obligations.TickConsumesTheStepRequest := by
  intro s t hfault hwait ht
  have hrun : s.halted = false := not_halted hfault hwait
  obtain ⟨hreq, hkeep⟩ := step_consumes_request hrun ht
  refine ⟨by rw [State.tickReturns, hrun]; rfl, hreq, fun hw => ⟨hkeep hw, step_of_halted ?_⟩⟩
  exact (halted_iff t).2 (.inr ⟨hkeep hw, hreq⟩)

/-- Settles O51: WFE's effect is one bit, and a core with that bit and no request is halted. -/
theorem waitForEventWaits : Obligations.WaitForEventWaits :=
  fun _ => ⟨rfl, fun hreq => step_of_halted ((halted_iff _).2 (.inr ⟨rfl, hreq⟩))⟩

/-- Settles O50: the five meanings are those record updates. -/
theorem flagInstructionsWriteTheirFlagAndNopNothing : Obligations.FlagInstructionsWriteTheirFlagAndNopNothing :=
  fun _ => ⟨rfl, rfl, rfl, rfl, rfl⟩

end Sys2Proof.Proofs
end

