-- ==== Sys2Proof/Proofs/Invariants.lean ====
section
/-!
PROOFS. Sys2Proof/Proofs/Invariants.lean: the invariant of the core (10_state.md R21, R27, R40) and the boot precondition on a
program (70_reset_and_hazards.md R296), kept by every step and every host input.
-/

namespace Sys2Proof.Proofs

open Sys2Proof.Machine

variable {cfg : Config.Parameters} {i : Instr} {s t : State}

/-! ### The invariant under a step -/

/-- The invariant reads `sp`, the stack and the number of registers alone. -/
theorem inv_congr (hs : s.inv cfg = true) (hsp : t.sp = s.sp) (hstack : t.stack = s.stack)
    (hlen : t.regs.length = s.regs.length) : t.inv cfg = true := by
  rw [State.inv_iff] at *
  rwa [hsp, hstack, hlen]

/-- A store inside the memory keeps the invariant (R69). -/
theorem inv_memWrite {idx : Nat} (v : Byte) (hs : s.inv cfg = true) (h : idx < 64) : (s.memWrite idx v).inv cfg = true := by
  rw [State.inv_iff] at *
  obtain ⟨hsp, hwf, hlen⟩ := hs
  exact ⟨hsp, Memory.wf_memStore v h hwf, hlen⟩

/-- A write of `sp` within 0 to 64 keeps the invariant (R27). -/
theorem inv_setSp {v : Byte} (hs : s.inv cfg = true) (h : u8 v ≤ 64) : (s.setSp v).inv cfg = true := by
  rw [State.inv_iff] at *
  exact ⟨h, hs.2⟩

theorem inv_pushAll (vs : List Byte) (hs : s.inv cfg = true) : (s.pushAll vs cfg).inv cfg = true :=
  State.pushAll_induction (P := fun t => t.inv cfg = true) (fun _ _ _ => State.inv_push)
    (fun _ => State.inv_raise _) vs s hs

theorem inv_popAll (rs : List Nat) (hs : s.inv cfg = true) : (s.popAll rs cfg).inv cfg = true :=
  State.popAll_induction (P := fun t => t.inv cfg = true) (ok := fun _ => True)
    (fun _ _ _ _ _ ht hpop => State.inv_setReg _ _ (State.inv_pop ht hpop)) (fun _ => State.inv_raise _) rs s
    (fun _ _ => trivial) hs

theorem inv_pushReturn (hs : s.inv cfg = true) (h : u8 s.sp < 63) : s.pushReturn.inv cfg = true := by
  refine inv_setSp (inv_memWrite _ (inv_memWrite _ hs (by omega)) (by omega)) ?_
  rw [u8_add_two h]
  omega

/-- `sp - 2` does not wrap while two bytes are there. -/
theorem u8_sub_two {v : Byte} (h : 1 < u8 v) : u8 (v - 2) = u8 v - 2 := by
  unfold u8 at *
  bv_omega

/-- Every effect keeps the invariant: the stack instructions by their checks, the others because they write neither `sp` nor
the memory and never resize the register file. -/
theorem inv_of_effect (hs : s.inv cfg = true) (h : Effect cfg s i t) : t.inv cfg = true := by
  obtain ⟨hsp, -, -⟩ := State.inv_iff.1 hs
  have hlen := length_regs_of_effect h
  cases h with
  | cell v _ hdest =>
    obtain ⟨-, -, hidx⟩ := moveDest_cell_lt hdest
    exact inv_memWrite v hs hidx
  | push v _ hfree => exact inv_pushed hs hfree v
  | pop _ hsome => exact State.inv_setReg _ _ (inv_setSp hs (by rw [u8_sub_one hsome]; omega))
  | pushAll => exact inv_pushAll _ hs
  | popAll => exact inv_popAll _ hs
  | call a _ hfree => exact inv_pushReturn hs hfree
  | ret a _ hsome =>
    have hsp' : u8 (s.sp - 2) ≤ 64 := by
      rw [u8_sub_two hsome]
      omega
    exact inv_setSp (s := s.setIp a) hs hsp'
  | _ => exact inv_congr hs rfl rfl hlen

/-- Every step keeps the invariant: what comes before the instruction writes none of its parts. -/
theorem inv_of_stepWith (hs : s.inv cfg = true) (h : stepWith cfg s = .next t) : t.inv cfg = true := by
  obtain ⟨-, hstep⟩ | ⟨-, -, hstep⟩ | ⟨r, e, -, -, -, hstep⟩ | ⟨r, i, -, -, -, hstep⟩ := stepWith_cases cfg s
  · cases hstep.symm.trans h
    exact hs
  · cases hstep.symm.trans h
    exact hs
  · cases hstep.symm.trans h
    exact hs
  · have hfetched : (s.prepared.fetched r).inv cfg = true := hs
    exact inv_of_effect hfetched (effect_of_execWith (hstep.symm.trans h))

theorem inv_of_step (hs : s.inv = true) (h : step s = .next t) : t.inv = true :=
  inv_of_stepWith hs ((stepWith_parameters s).trans h)

/-- Settles O20: every effect of an instruction keeps the invariant, at the default parameters and at any others. -/
theorem everyStepKeepsTheInvariant : Obligations.EveryStepKeepsTheInvariant :=
  fun _ _ => ⟨inv_of_step, fun _ => inv_of_stepWith⟩

/-! ### The invariant under the host's inputs -/

/-- Settles O21: the power-on state has an empty stack and five registers. -/
theorem resetStateMeetsTheInvariant : Obligations.ResetStateMeetsTheInvariant :=
  State.inv_iff.2 ⟨by decide, rfl, rfl⟩

/-- Reset puts `sp` at 0 and keeps the memory (70_reset_and_hazards.md R293). -/
theorem inv_hardReset (portsReset : Byte) (hs : s.inv cfg = true) : (s.hardReset portsReset cfg).inv cfg = true := by
  rw [State.inv_iff] at *
  exact ⟨Nat.zero_le _, hs.2.1, Config.length_resetRegisters portsReset cfg⟩

/-- Load ends with an empty memory, whatever is loaded (R290, R292). -/
theorem inv_load (portsReset : Byte) (input : LoadInput) (s : State) : (s.load portsReset input cfg).inv cfg = true := by
  rw [State.inv_iff]
  cases input <;> exact ⟨Nat.zero_le _, rfl, Config.length_resetRegisters portsReset cfg⟩

/-- The registers a snapshot lacks are filled up to NUM_REGS (10_state.md R46). -/
theorem length_restoredRegisters {bytes : List Byte} (h : bytes.length ≤ cfg.numRegs) :
    (restoredRegisters cfg bytes).length = cfg.numRegs := by
  rw [restoredRegisters, List.length_append, List.length_replicate, Nat.add_sub_cancel' h]

/-- A snapshot that is taken has an `sp` within the stack, and restores to NUM_REGS registers (10_state.md R46). -/
theorem inv_snapshot {snap : Snapshot} (h : snap.acceptable cfg = true) : (snap.state cfg).inv cfg = true := by
  simp only [Snapshot.acceptable, Bool.and_eq_true, decide_eq_true_eq] at h
  obtain ⟨hregs, hsp⟩ := h
  exact State.inv_iff.2
    ⟨hsp, Memory.wfFrom_memoryOfBytes _ 0 (by simp [Config.stackSize]), length_restoredRegisters hregs⟩

theorem inv_restore (snap : Snapshot) (hs : s.inv cfg = true) : (s.restore snap cfg).inv cfg = true := by
  unfold State.restore
  split
  · exact inv_snapshot ‹_›
  · exact hs

theorem inv_input (portsReset : Byte) (h : HostInput) (hs : s.inv cfg = true) :
    (s.input portsReset h cfg).inv cfg = true := by
  cases h with
  | load input => exact inv_load portsReset input s
  | reset => exact inv_hardReset portsReset hs
  | wake => exact hs
  | requestStep => exact hs
  | writePorts v => exact State.inv_setReg _ v hs
  | restore snap => exact inv_restore snap hs

/-- Settles O22: input by input. -/
theorem hostInputsKeepTheInvariant : Obligations.HostInputsKeepTheInvariant :=
  fun _ portsReset _ h => inv_input portsReset h

/-- Settles O23: the state before the first load meets the invariant, and each tick and each host input keeps it. -/
theorem everyReachableStateMeetsTheInvariant : Obligations.EveryReachableStateMeetsTheInvariant := by
  intro portsReset s h
  induction h with
  | start => exact State.inv_iff.2 ⟨Nat.zero_le _, rfl, rfl⟩
  | event _ hleads ih =>
    cases hleads with
    | tick hstep => exact inv_of_step ih hstep
    | input h => exact inv_input portsReset h ih

/-! ### The boot precondition (70_reset_and_hazards.md R296) -/

/-- Each record of a program that meets the precondition decodes to an instruction that meets it. -/
theorem decoded_of_programWellFormed {prog : List Record} {labels : List Label} {r : Record}
    (h : programWellFormed prog labels cfg = true) (hr : r ∈ prog) :
    ∃ i, decode r cfg = .ok i ∧ (i.wellFormed cfg && i.labelsIn prog.length labels) = true := by
  have hrecord := List.all_eq_true.1 h r hr
  cases hi : decode r cfg with
  | ok i => exact ⟨i, rfl, by simpa only [hi] using hrecord⟩
  | error e => simp [hi] at hrecord

/-- An instruction that meets the precondition raises neither the internal-error fault nor MOV's label fault. -/
theorem faultCode_of_wellFormed {e : Trap} (hwf : (i.wellFormed && i.labelsIn s.prog.length s.labels) = true)
    (h : CanRaise Config.parameters s i e) : e.faultCode ≠ .codeError := by
  cases h with
  | operand htrap =>
    cases htrap with
    | internal hbad => simp [hwf] at hbad
    | outOfBounds => decide
  | labelDestination _ hbad => simp [hbad] at hwf
  | _ => decide

/-- Settles O24: a step writes neither the program nor the labels, and runs an instruction that meets the precondition, whose
faults carry other codes. -/
theorem wellFormedProgramRaisesNoInternalFault : Obligations.WellFormedProgramRaisesNoInternalFault := by
  intro s t hwf hs h
  have hcodes {c : FaultCode} (hc : c ≠ .codeError) (ht : t.faultCode = Config.faultCodeMap c) :
      t.faultCode ≠ Config.faultCodeMap Config.internalFaultCode ∧ t.faultCode ≠ Config.faultCodeMap .codeError := by
    rw [ht, Config.internalFaultCode, Ne, Config.faultCodeMap_injective.eq_iff]
    exact ⟨hc, hc⟩
  obtain ⟨-, hstep⟩ | ⟨-, -, hstep⟩ | ⟨r, e, -, hr, hdecode, -⟩ | ⟨r, i, -, hr, hdecode, hstep⟩ := step_cases s
  · cases hstep.symm.trans h
    exact ⟨hwf, fun ht => by simp [hs] at ht⟩
  · cases hstep.symm.trans h
    exact ⟨hwf, fun _ => hcodes (c := .undefinedIp) (by decide) rfl⟩
  · obtain ⟨i, hi, -⟩ := decoded_of_programWellFormed hwf (List.mem_of_getElem? hr)
    simp [hdecode] at hi
  · obtain ⟨i', hi', hiwf⟩ := decoded_of_programWellFormed hwf (List.mem_of_getElem? hr)
    obtain rfl : i = i' := by simpa [hdecode] using hi'
    have heffect := effect_of_exec (hstep.symm.trans h)
    obtain ⟨-, -, hprog, hlabels⟩ := host_fields_of_effect heffect
    refine ⟨by rw [hprog, hlabels]; exact hwf, fun ht => ?_⟩
    obtain ⟨e, hcan, hcode⟩ := canRaise_of_fault heffect hs ht
    exact hcodes (faultCode_of_wellFormed (s := s.prepared.fetched r) hiwf hcan) hcode

end Sys2Proof.Proofs
end

