-- ==== Sys2Proof/Proofs/OperandValues.lean ====
section
/-!
PROOFS. Sys2Proof/Proofs/OperandValues.lean: what an operand slot of each class resolves to, and the control-transfer targets
(30_encoding.md R86 to R94).
-/

namespace Sys2Proof.Proofs

open Sys2Proof.Machine

variable {cfg : Config.Parameters} {k : Slot} {off : Byte} {s : State}

/-! ### Register and literal slots (R87, R88) -/

/-- A slot without label and indirect flags is its base. -/
theorem resolve_direct (hlabel : k.label = false) (hind : k.indirect = false) :
    resolve k off s cfg = slotBase k s cfg := by
  unfold resolve
  cases slotBase k s cfg <;> simp [hlabel, hind]

theorem slotBase_of_literal (h : k.literal = true) : slotBase k s cfg = .ok k.raw :=
  slotBase_ok_iff.2 (.inl ⟨h, rfl⟩)

theorem slotBase_of_register (h : k.literal = false) (hraw : k.raw.toNat < cfg.numRegs) :
    slotBase k s cfg = .ok (s.reg k.raw.toNat) :=
  slotBase_ok_iff.2 (.inr ⟨h, hraw, rfl⟩)

theorem slotBase_of_bad_register (h : k.literal = false) (hraw : cfg.numRegs ≤ k.raw.toNat) :
    slotBase k s cfg = .error .internal :=
  slotBase_error_iff.2 ⟨h, hraw, rfl⟩

/-- A named register is what the slot with its index resolves to. -/
theorem resolve_of_named (hlabel : k.label = false) (hind : k.indirect = false) (hlit : k.literal = false) {r : Reg}
    (hraw : k.raw = BitVec.ofNat 8 r.index) : resolve k off s = .ok (s.named r) := by
  have hindex : k.raw.toNat = r.index := by
    rw [hraw]
    cases r <;> rfl
  rw [resolve_direct hlabel hind, slotBase_of_register hlit (hindex ▸ Reg.index_lt r _), hindex]
  rfl

/-- Settles O25: such a slot is its base, and the base is the raw byte or the register it names. -/
theorem registerAndLiteralOperandValues : Obligations.RegisterAndLiteralOperandValues := by
  intro k off s hlabel hind
  have hdirect (cfg : Config.Parameters) : resolve k off s cfg = slotBase k s cfg := resolve_direct hlabel hind
  refine ⟨fun hlit => ?literal, fun hlit => ?registers, fun cfg => ?configured⟩
  case literal => rw [hdirect, slotBase_of_literal hlit]
  case registers =>
    have hnamed {r : Reg} (hraw : k.raw = BitVec.ofNat 8 r.index) : resolve k off s = .ok (s.named r) :=
      resolve_of_named hlabel hind hlit hraw
    exact ⟨hnamed (r := .a), hnamed (r := .b), hnamed (r := .c), hnamed (r := .d), hnamed (r := .ports),
      fun hraw => (hdirect _).trans (slotBase_of_bad_register hlit hraw)⟩
  case configured =>
    rw [hdirect]
    exact ⟨slotBase_of_literal, fun hlit => ⟨slotBase_of_register hlit, slotBase_of_bad_register hlit⟩⟩

/-! ### Label slots (R89, R91) -/

theorem resolve_of_label_indirect (hlabel : k.label = true) (hind : k.indirect = true) :
    resolve k off s cfg = .error .internal := by
  simp only [resolve, hlabel, hind, if_true]

theorem resolve_of_label (hlabel : k.label = true) (hind : k.indirect = false) :
    resolve k off s cfg = labelValue k off s := by
  simp only [resolve, hlabel, hind, if_true, Bool.false_eq_true, if_false]

theorem labelValue_of_bad_label (h : s.labels.length ≤ k.raw.toNat) : labelValue k off s = .error .internal := by
  simp only [labelValue, u8, List.getElem?_eq_none h]

/-- A label operand outside the program has no value, and so is the internal-error fault. -/
theorem labelValue_of_outside {l : Label} (hl : s.labels[k.raw.toNat]? = some l)
    (hout : (l.address.toNat : Int) + slotOffset k off < 0 ∨
      (s.prog.length : Int) ≤ (l.address.toNat : Int) + slotOffset k off) : labelValue k off s = .error .internal := by
  cases h : labelValue k off s with
  | error e => rw [labelValue_error h]
  | ok v =>
    obtain ⟨l', r, hl', hlow, hr, -⟩ := labelValue_ok_iff.1 h
    obtain rfl : l = l' := by simpa [u8, hl] using hl'
    have hlt := (List.getElem?_eq_some_iff.1 hr).1
    simp only [u16] at hlow hlt
    omega

/-- Settles O26: the label's byte, and each of the three ways to have none. -/
theorem labelOperandValues : Obligations.LabelOperandValues := by
  intro k off s hlabel
  refine ⟨resolve_of_label_indirect hlabel, fun hind => ?_⟩
  rw [resolve_of_label hlabel hind]
  refine ⟨labelValue_of_bad_label, fun l slot hl hslot => ?_⟩
  subst hslot
  exact ⟨fun r hlow hr => labelValue_ok_iff.2 ⟨l, r, hl, hlow, hr, rfl⟩, labelValue_of_outside hl⟩

/-! ### Memory-indirect slots (R90) -/

theorem resolve_of_index (hlabel : k.label = false) (hind : k.indirect = true) {i : Nat}
    (h : index k off s cfg = .ok i) : resolve k off s cfg = .ok (s.memRead i) :=
  resolve_ok_iff.2 (.inr (.inl ⟨hlabel, hind, i, h, rfl⟩))

/-- An index that faults is the slot's fault: where its base faults, the slot has the same fault from the base. -/
theorem resolve_of_index_error (hlabel : k.label = false) (hind : k.indirect = true) {e : Trap}
    (h : index k off s cfg = .error e) : resolve k off s cfg = .error e := by
  unfold resolve
  obtain hbase | ⟨base, hbase, -⟩ := index_error_iff.1 h <;>
    simp only [hlabel, hind, hbase, h, Bool.false_eq_true, if_false, if_true]

/-- Settles O27: the base is what the slot resolves to without the indirect flag, and the index is in range or not. -/
theorem indirectOperandValues : Obligations.IndirectOperandValues := by
  intro k off s hlabel hind
  refine ⟨fun hlit hraw => ?bad, fun base hbase i hi => ⟨fun hlow hhigh => ?inside, fun hout => ?outside⟩⟩
  case bad => exact resolve_of_index_error hlabel hind (index_error_iff.2 (.inl (slotBase_of_bad_register hlit hraw)))
  all_goals
    have hbase' : slotBase k s = .ok base := (resolve_direct (k := { k with indirect := false }) hlabel rfl).symm.trans hbase
  case inside =>
    have hindex : s8 base + slotOffset k off = (i.toNat : Int) := by rw [Int.toNat_of_nonneg hlow, hi]; rfl
    exact resolve_of_index hlabel hind (index_ok_iff.2 ⟨by omega, base, hbase', hindex⟩)
  case outside =>
    subst hi
    exact resolve_of_index_error hlabel hind (index_error_iff.2 (.inr ⟨base, hbase', hout, rfl⟩))

/-! ### Control-transfer targets (R94) -/

/-- The sum of an address and a signed byte, modulo 2^16. -/
theorem trunc16_add_offset (a : SlotAddr) (off : Byte) : trunc16 ((u16 a : Int) + s8 off) = a + off.signExtend 16 := by
  rw [trunc16, u16, BitVec.ofInt_add, BitVec.ofInt_natCast, BitVec.ofNat_toNat, BitVec.setWidth_eq]
  rfl

theorem trunc16_u16 (a : SlotAddr) : trunc16 (u16 a : Int) = a := by
  rw [trunc16, u16, BitVec.ofInt_natCast, BitVec.ofNat_toNat, BitVec.setWidth_eq]

/-- Settles O28: the label's address with or without the offset, or no label. -/
theorem controlTransferTargets : Obligations.ControlTransferTargets := by
  refine fun k off s => ⟨fun l hl => target_ok_iff.2 ⟨l, hl, ?_⟩, target_of_bad_label⟩
  unfold slotOffset
  split
  · exact (trunc16_add_offset l.address off).symm
  · rw [Int.add_zero, trunc16_u16]

end Sys2Proof.Proofs
end

