-- ==== Sys2Proof/Proofs/ArithResults.lean ====
section
/-!
PROOFS. Sys2Proof/Proofs/ArithResults.lean: the results of the arithmetic, logic, compare, shift, rotate and count instructions
in bit-vector operations (41_arith_logic.md, 43_shift_incdec.md), from the model's exact integers.
-/

namespace Sys2Proof.Proofs

open Sys2Proof.Machine

variable {s : State}

/-! ### The ALU law (41_arith_logic.md R140) -/

theorem trunc8_s8 (a : Byte) : trunc8 (s8 a) = a := BitVec.ofInt_toInt

theorem trunc8_add (a b : Byte) : trunc8 (s8 a + s8 b) = a + b := by
  rw [trunc8, BitVec.ofInt_add, s8, s8, BitVec.ofInt_toInt, BitVec.ofInt_toInt]

theorem trunc8_sub (a b : Byte) : trunc8 (s8 a - s8 b) = a - b := by
  apply BitVec.eq_of_toInt_eq
  rw [trunc8, BitVec.toInt_ofInt, BitVec.toInt_sub, s8, s8]

theorem trunc8_mul (a b : Byte) : trunc8 (s8 a * s8 b) = a * b := by
  rw [trunc8, BitVec.ofInt_mul, s8, s8, BitVec.ofInt_toInt, BitVec.ofInt_toInt]

/-- The overflow of an exact result: it is outside the signed range of a byte. -/
theorem ovfOf_eq (z : Int) : ovfOf z = decide (z < -128 ∨ 127 < z) := by
  rw [Bool.eq_iff_iff]
  simp only [ovfOf, s8, trunc8, bne_iff_ne, ne_eq, BitVec.toInt_ofInt, Int.bmod_def, decide_eq_true_eq]
  split <;> omega

theorem ovfOf_s8 (a : Byte) : ovfOf (s8 a) = false := by
  simp [ovfOf, trunc8_s8]

/-- What the arithmetic instructions write, once the truncation is a bit-vector operation. -/
theorem writeArith_eq (s : State) (r : Nat) {z : Int} {v : Byte} {isZero : Prop} [Decidable isZero] (hv : trunc8 z = v)
    (hzero : v = 0x00 ↔ isZero) :
    s.writeArith r z =
      { s with regs := s.regs.set r v, zero := decide isZero, overflow := decide (z < -128 ∨ 127 < z) } := by
  simp only [← hzero, ← ovfOf_eq, ← hv]
  rfl

/-- What the instructions that list `zero` alone write. -/
theorem writeLogic_eq (s : State) (r : Nat) {w v : Byte} {isZero : Prop} [Decidable isZero] (hv : w = v)
    (hzero : v = 0x00 ↔ isZero) :
    s.writeLogic r w = { s with regs := s.regs.set r v, zero := decide isZero } := by
  simp only [← hzero, ← hv]
  rfl

/-- Settles O29: the truncations of the exact sum, difference and product are the bit-vector operations. -/
theorem addSubMulResults : Obligations.AddSubMulResults := by
  intro s0 s1 off s r a b
  refine ⟨fun hr ha hb => ?_, fun hb => ?mul⟩
  · have hok := destInputs_ok_iff.2 ⟨hr, ha, hb⟩
    exact ⟨(conclude_of_ok hok _).trans (congrArg _ (writeArith_eq s r (trunc8_add a b) Iff.rfl)),
      (conclude_of_ok hok _).trans (congrArg _ (writeArith_eq s r (trunc8_sub a b) sub_eq_zero))⟩
  case mul =>
    exact (conclude_of_ok hb _).trans (congrArg _ (writeArith_eq s _ (trunc8_mul (s.named .a) b) Iff.rfl))

/-! ### DIV (R144) -/

/-- The quotient rounded toward zero fits a byte but for -128 / -1. -/
theorem quotient_eq_s8_sdiv {a b : Byte} (h : ¬(a = 0x80 ∧ b = 0xFF)) : quotient (s8 a) (s8 b) = s8 (a.sdiv b) :=
  (BitVec.toInt_sdiv_of_ne_or_ne a b (not_and_or.1 h)).symm

theorem trunc8_quotient (a b : Byte) : trunc8 (quotient (s8 a) (s8 b)) = a.sdiv b := by
  by_cases h : a = 0x80 ∧ b = 0xFF
  · obtain ⟨rfl, rfl⟩ := h
    decide
  · rw [quotient_eq_s8_sdiv h, trunc8_s8]

theorem ovfOf_quotient (a b : Byte) : ovfOf (quotient (s8 a) (s8 b)) = decide (a = 0x80 ∧ b = 0xFF) := by
  by_cases h : a = 0x80 ∧ b = 0xFF
  · obtain ⟨rfl, rfl⟩ := h
    decide
  · rw [quotient_eq_s8_sdiv h, ovfOf_s8, decide_eq_false h]

theorem s8_eq_zero_iff {b : Byte} : s8 b = 0 ↔ b = 0x00 := BitVec.toInt_inj (y := 0x00)

/-- Settles O30: a divisor that is not 0 gives the quotient, and 0 ends the checks. -/
theorem divResultAndDivisionByZero : Obligations.DivResultAndDivisionByZero := by
  intro s0 off s b hb
  refine ⟨fun hne => ?quotient, fun hzero => ?fault⟩
  case quotient =>
    have hdiv : divisor s0 off s = .ok b := divisor_ok_iff.2 ⟨hb, mt s8_eq_zero_iff.1 hne⟩
    refine (conclude_of_ok hdiv _).trans ?_
    rw [← ovfOf_quotient, ← trunc8_quotient]
    rfl
  case fault =>
    have hdiv : divisor s0 off s = .error (.code .divisionByZero) := by
      simp only [divisor, hb, s8_eq_zero_iff, hzero, if_true]
    exact conclude_of_error hdiv _

/-! ### AND, OR, XOR, NOT and CMP (R145 to R149) -/

theorem not_eq_zero_iff {a : Byte} : ~~~a = 0x00 ↔ a = 0xFF := BitVec.not_eq_comm

/-- Settles O31: each result is the operation itself, and `zero` says in the operands when it is 0x00. -/
theorem bitwiseResults : Obligations.BitwiseResults := by
  intro s0 s1 off s r a hr ha
  refine ⟨fun b hb => ?_, ?not⟩
  · have hok := destInputs_ok_iff.2 ⟨hr, ha, hb⟩
    exact ⟨(conclude_of_ok hok _).trans (congrArg _ (writeLogic_eq s r rfl Iff.rfl)),
      (conclude_of_ok hok _).trans (congrArg _ (writeLogic_eq s r rfl BitVec.or_eq_zero_iff)),
      (conclude_of_ok hok _).trans (congrArg _ (writeLogic_eq s r rfl BitVec.xor_eq_zero_iff))⟩
  case not =>
    exact (conclude_of_ok (destInput_ok_iff.2 ⟨hr, ha⟩) _).trans (congrArg _ (writeLogic_eq s r rfl not_eq_zero_iff))

/-- Settles O32: the signed readings are equal when the bytes are, and their difference is exact. -/
theorem compareFlags : Obligations.CompareFlags := by
  intro s0 s1 off s a b ha hb
  refine (conclude_of_ok (sourceInputs_ok_iff.2 ⟨ha, hb⟩) _).trans ?_
  have heq : decide (s8 a = s8 b) = decide (a = b) := by simp only [s8, BitVec.toInt_inj]
  simp only [heq, Config.parameters_compareOverflow, Config.compareOverflow, ovfOf_eq]
  rfl

/-! ### Shifts (43_shift_incdec.md R180 to R184) -/

theorem trunc8_natCast (n : Nat) : trunc8 (n : Int) = BitVec.ofNat 8 n := BitVec.ofInt_natCast 8 n

theorem shiftLeft_eq (a : Byte) (n : Nat) : shiftLeft a n = a <<< n := by
  apply BitVec.eq_of_toNat_eq
  rw [shiftLeft, trunc8_natCast, BitVec.toNat_ofNat, BitVec.toNat_shiftLeft, Nat.shiftLeft_eq]
  rfl

theorem shiftRightLogical_eq (a : Byte) (n : Nat) : shiftRightLogical a n = a >>> n := by
  apply BitVec.eq_of_toNat_eq
  rw [shiftRightLogical, trunc8_natCast, BitVec.toNat_ofNat, BitVec.toNat_ushiftRight, Nat.shiftRight_eq_div_pow]
  exact Nat.mod_eq_of_lt (Nat.lt_of_le_of_lt (Nat.div_le_self _ _) a.isLt)

theorem shiftRightArith_eq (a : Byte) (n : Nat) : shiftRightArith a n = a.sshiftRight n := by
  rw [shiftRightArith, trunc8, BitVec.sshiftRight, Int.shiftRight_eq_div_pow, Int.fdiv_eq_ediv_of_nonneg _ (by positivity)]
  rfl

/-- Settles O35: the shift amount is the clamped unsigned byte, and each shift is the bit-vector operation. -/
theorem shiftResults : Obligations.ShiftResults := by
  intro s0 s1 off s r a b hr ha hb n hn
  subst hn
  have hok := destInputs_ok_iff.2 ⟨hr, ha, hb⟩
  exact ⟨(conclude_of_ok hok _).trans (congrArg _ (writeLogic_eq s r (shiftLeft_eq a _) Iff.rfl)),
    (conclude_of_ok hok _).trans (congrArg _ (writeLogic_eq s r (shiftLeft_eq a _) Iff.rfl)),
    (conclude_of_ok hok _).trans (congrArg _ (writeLogic_eq s r (shiftRightLogical_eq a _) Iff.rfl)),
    (conclude_of_ok hok _).trans (congrArg _ (writeLogic_eq s r (shiftRightArith_eq a _) Iff.rfl))⟩

/-! ### Rotates (R185, R186) -/

/-- The two halves of a rotate (R185), as shifts. -/
theorem rotateLeft_eq_shifts (a : Byte) (n : Nat) : rotateLeft a n = a <<< n ||| a >>> (8 - n) := by
  rw [← shiftLeft_eq, ← shiftRightLogical_eq, rotateLeft, shiftLeft, shiftRightLogical, trunc8_natCast, trunc8_natCast,
    trunc8_natCast, BitVec.ofNat_or]

theorem rotateRight_eq_shifts (a : Byte) (n : Nat) : rotateRight a n = a >>> n ||| a <<< (8 - n) := by
  rw [← shiftLeft_eq, ← shiftRightLogical_eq, rotateRight, shiftLeft, shiftRightLogical, trunc8_natCast, trunc8_natCast,
    trunc8_natCast, BitVec.ofNat_or]

/-- An amount of 8 is the rotate by 0, since the bit-vector rotate takes the amount modulo 8. -/
theorem rotateLeft_eq (a : Byte) {n : Nat} (hn : n ≤ 8) : rotateLeft a n = a.rotateLeft n := by
  rw [rotateLeft_eq_shifts, BitVec.rotateLeft_def]
  obtain hlt | rfl := Nat.lt_or_eq_of_le hn
  · rw [Nat.mod_eq_of_lt hlt]
  · simp [BitVec.ushiftRight_eq_zero]

theorem rotateRight_eq (a : Byte) {n : Nat} (hn : n ≤ 8) : rotateRight a n = a.rotateRight n := by
  rw [rotateRight_eq_shifts, BitVec.rotateRight_def]
  obtain hlt | rfl := Nat.lt_or_eq_of_le hn
  · rw [Nat.mod_eq_of_lt hlt]
  · simp [BitVec.ushiftRight_eq_zero]

/-- The two halves of a rotate hold every bit of the byte. -/
theorem shifts_eq_zero_iff {a : Byte} {n : Nat} (hn : n ≤ 8) : a <<< n = 0x00 ∧ a >>> (8 - n) = 0x00 ↔ a = 0x00 := by
  refine ⟨fun ⟨hleft, hright⟩ => ?_, by rintro rfl; simp⟩
  have hleft' : a.toNat * 2 ^ n % 2 ^ 8 = 0 := by
    simpa only [BitVec.toNat_shiftLeft, Nat.shiftLeft_eq, BitVec.ofNat_eq_ofNat, BitVec.toNat_zero]
      using congrArg BitVec.toNat hleft
  have hright' : a.toNat / 2 ^ (8 - n) = 0 := by
    simpa only [BitVec.toNat_ushiftRight, Nat.shiftRight_eq_div_pow, BitVec.ofNat_eq_ofNat, BitVec.toNat_zero]
      using congrArg BitVec.toNat hright
  have hlow : a.toNat < 2 ^ (8 - n) := Nat.lt_of_div_eq_zero (Nat.two_pow_pos _) hright'
  have hfits : a.toNat * 2 ^ n < 2 ^ 8 := by
    calc a.toNat * 2 ^ n < 2 ^ (8 - n) * 2 ^ n := Nat.mul_lt_mul_of_pos_right hlow (Nat.two_pow_pos n)
      _ = 2 ^ 8 := by rw [← Nat.pow_add, Nat.sub_add_cancel hn]
  rw [Nat.mod_eq_of_lt hfits, Nat.mul_eq_zero, or_iff_left (Nat.two_pow_pos n).ne'] at hleft'
  exact BitVec.eq_of_toNat_eq hleft'

theorem rotateLeft_eq_zero_iff {a : Byte} {n : Nat} (hn : n ≤ 8) : a.rotateLeft n = 0x00 ↔ a = 0x00 := by
  rw [← rotateLeft_eq a hn, rotateLeft_eq_shifts]
  exact BitVec.or_eq_zero_iff.trans (shifts_eq_zero_iff hn)

theorem rotateRight_eq_zero_iff {a : Byte} {n : Nat} (hn : n ≤ 8) : a.rotateRight n = 0x00 ↔ a = 0x00 := by
  have hhalves := shifts_eq_zero_iff (a := a) (Nat.sub_le 8 n)
  rw [Nat.sub_sub_self hn] at hhalves
  rw [← rotateRight_eq a hn, rotateRight_eq_shifts]
  exact BitVec.or_eq_zero_iff.trans (and_comm.trans hhalves)

/-- Settles O36: the two halves make the rotate, and they are both zero only for the byte 0x00. -/
theorem rotateResults : Obligations.RotateResults := by
  intro s0 s1 off s r a b hr ha hb
  have hok := destInputs_ok_iff.2 ⟨hr, ha, hb⟩
  have hn : shiftAmount b ≤ 8 := Nat.min_le_right _ _
  exact ⟨(conclude_of_ok hok _).trans
      (congrArg _ (writeLogic_eq s r (rotateLeft_eq a hn) (rotateLeft_eq_zero_iff hn))),
    (conclude_of_ok hok _).trans
      (congrArg _ (writeLogic_eq s r (rotateRight_eq a hn) (rotateRight_eq_zero_iff hn)))⟩

/-! ### INC and DEC (R187, R188) -/

/-- The exact successor and predecessor truncate as the sum and the difference with 0x01 do. -/
theorem trunc8_succ (a : Byte) : trunc8 (s8 a + 1) = a + 1 := trunc8_add a 1

theorem trunc8_pred (a : Byte) : trunc8 (s8 a - 1) = a - 1 := trunc8_sub a 1

theorem succ_eq_zero_iff {a : Byte} : a + 1 = 0x00 ↔ a = 0xFF := add_eq_zero_iff_eq_neg

/-- Settles O37: the truncations of the exact successor and predecessor. -/
theorem incDecResults : Obligations.IncDecResults := by
  intro s0 off s r a hr ha
  have hok := destInput_ok_iff.2 ⟨hr, ha⟩
  exact ⟨(conclude_of_ok hok _).trans (congrArg _ (writeLogic_eq s r (trunc8_succ a) succ_eq_zero_iff)),
    (conclude_of_ok hok _).trans (congrArg _ (writeLogic_eq s r (trunc8_pred a) sub_eq_zero))⟩

end Sys2Proof.Proofs
end

