-- ==== Sys2Proof/Proofs/MoveJump.lean ====
section
/-!
PROOFS. Sys2Proof/Proofs/MoveJump.lean: the results of MOV (42_move.md R170) and of the control transfers without the stack
(45_jump.md R220 to R229).
-/

namespace Sys2Proof.Proofs

open Sys2Proof.Machine

variable {cfg : Config.Parameters} {s0 s1 : Slot} {off : Byte} {s : State}

/-! ### MOV -/

theorem exec_mov_of_dest {v : Byte} {dest : MoveDest} (hv : resolve s1 off s = .ok v) (hd : moveDest s0 off s = .ok dest) :
    exec (.mov s0 s1 off) s = .next (s.writeMove v dest) :=
  conclude_of_ok (moveParts_ok_iff.2 ⟨hv, hd⟩) _

theorem exec_mov_of_dest_error {v : Byte} {e : Trap} (hv : resolve s1 off s = .ok v) (hd : moveDest s0 off s = .error e) :
    exec (.mov s0 s1 off) s = .next (s.raise e) := by
  have hparts : moveParts s0 s1 off s = .error e := by simp only [moveParts, hv, hd]
  exact conclude_of_error hparts _

/-- Where a slot 0 that is neither indirect nor a label sends the byte. -/
theorem moveDest_of_register (hind : s0.indirect = false) (hlabel : s0.label = false) {r : Nat} (hr : dst s0 = .ok r) :
    moveDest s0 off s = .ok (.register r) := by
  simp only [moveDest, hind, hlabel, hr, Bool.false_eq_true, if_false]

theorem moveDest_of_bad_register (hind : s0.indirect = false) (hlabel : s0.label = false) (hraw : 5 ≤ s0.raw.toNat) :
    moveDest s0 off s = .error .internal := by
  have hdst : dst s0 = .error .internal := dst_error_iff.2 ⟨hraw, rfl⟩
  simp only [moveDest, hind, hlabel, hdst, Bool.false_eq_true, if_false]

theorem moveDest_of_label (hind : s0.indirect = false) (hlabel : s0.label = true) :
    moveDest s0 off s = .error .labelDestination := by
  simp only [moveDest, hind, hlabel, Bool.false_eq_true, if_false, if_true]

theorem moveDest_of_label_indirect (hind : s0.indirect = true) (hlabel : s0.label = true) :
    moveDest s0 off s = .error .internal := by
  simp only [moveDest, hind, hlabel, if_true]

theorem moveDest_of_index (hind : s0.indirect = true) (hlabel : s0.label = false) {i : Nat}
    (hi : index s0 off s = .ok i) : moveDest s0 off s = .ok (.cell i) := by
  simp only [moveDest, hind, hlabel, hi, Bool.false_eq_true, if_false, if_true]

theorem moveDest_of_index_error (hind : s0.indirect = true) (hlabel : s0.label = false) {e : Trap}
    (he : index s0 off s = .error e) : moveDest s0 off s = .error e := by
  simp only [moveDest, hind, hlabel, he, Bool.false_eq_true, if_false, if_true]

/-- Settles O33: the three destinations of a slot 0 that is not indirect. -/
theorem moveToRegisterOrLabel : Obligations.MoveToRegisterOrLabel := by
  intro s0 s1 off s v hv hind
  exact ⟨fun hlabel => ⟨fun r hr => exec_mov_of_dest hv (moveDest_of_register hind hlabel hr),
      fun hraw => exec_mov_of_dest_error hv (moveDest_of_bad_register hind hlabel hraw)⟩,
    fun hlabel => exec_mov_of_dest_error hv (moveDest_of_label hind hlabel)⟩

/-- Settles O34: the three destinations of an indirect slot 0; a store is read back and leaves the other cells alone. -/
theorem moveToMemory : Obligations.MoveToMemory := by
  intro s0 s1 off s v hs hv hind
  obtain ⟨-, hwf, -⟩ := State.inv_iff.1 hs
  refine ⟨fun hlabel => ?label, fun hlabel => ⟨fun e he => ?fault, fun i hi => ?cell⟩⟩
  case label => exact exec_mov_of_dest_error hv (moveDest_of_label_indirect hind hlabel)
  case fault => exact exec_mov_of_dest_error hv (moveDest_of_index_error hind hlabel he)
  case cell =>
    exact ⟨s.memWrite i v, exec_mov_of_dest hv (moveDest_of_index hind hlabel hi), State.memRead_memWrite_same s i v hwf,
      fun idx => State.memRead_memWrite_other s v, rfl⟩

/-! ### Jumps -/

theorem jumpTo_of_target {a : SlotAddr} (ha : target s0 off s = .ok a) : jumpTo cfg s0 off s = .next (s.setIp a) :=
  conclude_of_ok ha _

theorem jumpTo_of_bad_label (h : s.labels.length ≤ s0.raw.toNat) : jumpTo cfg s0 off s = .next (s.raise .internal cfg) :=
  conclude_of_error (target_of_bad_label h) _

theorem jumpIf_of_taken {cond : Bool} (h : cond = true) : jumpIf cfg cond s0 off s = jumpTo cfg s0 off s := if_pos h

theorem jumpIf_of_untaken {cond : Bool} (h : cond = false) : jumpIf cfg cond s0 off s = .next s := by
  rw [jumpIf, h, if_neg Bool.false_ne_true]

/-- Settles O47: JMP and LOOP are the jump to the target. -/
theorem jumpAndLoopGoToTheirTarget : Obligations.JumpAndLoopGoToTheirTarget :=
  fun _ _ _ => ⟨fun _ ha => ⟨jumpTo_of_target ha, jumpTo_of_target ha⟩,
    fun h => ⟨jumpTo_of_bad_label h, jumpTo_of_bad_label h⟩⟩

/-- Settles O48: a taken jump is the jump to the target, and an untaken one nothing; JNZ, JNE and JNC test the negation. -/
theorem conditionalJumpsTestTheirFlag : Obligations.ConditionalJumpsTestTheirFlag := by
  intro s0 off s
  have htaken {cond : Bool} {a : SlotAddr} (ha : target s0 off s = .ok a) (h : cond = true) :
      jumpIf Config.parameters cond s0 off s = .next { s with ip := a } :=
    (jumpIf_of_taken h).trans (jumpTo_of_target ha)
  have hfault {cond : Bool} (hbad : s.labels.length ≤ s0.raw.toNat) (h : cond = true) :
      jumpIf Config.parameters cond s0 off s = .next (s.raise .internal) :=
    (jumpIf_of_taken h).trans (jumpTo_of_bad_label hbad)
  have hnot {flag : Bool} (h : flag = false) : (!flag) = true := by rw [h]; rfl
  have hnot' {flag : Bool} (h : flag = true) : (!flag) = false := by rw [h]; rfl
  refine ⟨fun a ha => ⟨?_, ?_, ?_, ?_⟩, fun hbad => ⟨?_, ?_, ?_, ?_⟩, ?_, ?_, ?_, ?_⟩
  · exact fun h => ⟨htaken ha h, htaken ha h⟩
  · exact fun h => ⟨htaken ha (hnot h), htaken ha (hnot h)⟩
  · exact fun h => htaken ha h
  · exact fun h => htaken ha (hnot h)
  · exact fun h => ⟨hfault hbad h, hfault hbad h⟩
  · exact fun h => ⟨hfault hbad (hnot h), hfault hbad (hnot h)⟩
  · exact fun h => hfault hbad h
  · exact fun h => hfault hbad (hnot h)
  · exact fun h => ⟨jumpIf_of_untaken h, jumpIf_of_untaken h⟩
  · exact fun h => ⟨jumpIf_of_untaken (hnot' h), jumpIf_of_untaken (hnot' h)⟩
  · exact fun h => jumpIf_of_untaken h
  · exact fun h => jumpIf_of_untaken (hnot' h)

/-! ### DJNZ (R229) -/

/-- DJNZ with a readable register: its decrement, then the jump that tests it. -/
theorem exec_djnz_of_ok {r : Nat} {a : Byte} (hr : dst s0 = .ok r) (ha : resolve s0 off s = .ok a) :
    exec (.djnz s0 s1 off) s =
      jumpIf Config.parameters (!decide (a = 0x01)) s1 off
        { s with regs := s.regs.set r (a - 1), zero := decide (a = 0x01) } := by
  have hwrite := writeLogic_eq s r (trunc8_pred a) sub_eq_zero
  have hok := destInput_ok_iff.2 ⟨hr, ha⟩
  simp only [exec, execDjnz, hok, hwrite]

/-- Settles O49: the decrement is 0x00 exactly from 0x01, so that count alone does not jump. -/
theorem decrementAndJumpIfNotZero : Obligations.DecrementAndJumpIfNotZero := by
  intro s0 s1 off s r a hr ha
  rw [exec_djnz_of_ok hr ha]
  refine ⟨fun hone => ?last, fun hne => ?more⟩
  case last =>
    subst hone
    exact jumpIf_of_untaken rfl
  case more =>
    rw [decide_eq_false hne]
    exact ⟨fun tgt htgt => (jumpIf_of_taken rfl).trans (jumpTo_of_target ((target_congr rfl).trans htgt)),
      fun hbad => (jumpIf_of_taken rfl).trans (jumpTo_of_bad_label hbad)⟩

end Sys2Proof.Proofs
end

