-- ==== Sys2Proof/Proofs/HostInputs.lean ====
section
/-!
PROOFS. Sys2Proof/Proofs/HostInputs.lean: load, reset, wake, the step request and the PORTS write
(70_reset_and_hazards.md R290 to R293, 40_engine.md R128, R129), and the snapshot (10_state.md R43 to R46).
-/

namespace Sys2Proof.Proofs

open Sys2Proof.Machine

variable {cfg : Config.Parameters} {s : State}

/-! ### Load and reset -/

/-- At power-on PORTS holds PORTS_RESET and every other register 0x00 (10_state.md R42). -/
theorem resetRegisters_getD_ports (portsReset : Byte) (cfg : Config.Parameters) :
    (Config.resetRegisters portsReset cfg).getD (Reg.ports.index cfg) 0x00 = portsReset := by
  have hlt : cfg.registerIndex .ports < cfg.numRegs := cfg.registerIndex_lt .ports
  simp [Config.resetRegisters, Reg.index, hlt]

theorem resetRegisters_getD_other (portsReset : Byte) {j : Nat} (hj : j ≠ Reg.ports.index cfg) :
    (Config.resetRegisters portsReset cfg).getD j 0x00 = 0x00 := by
  have hne : cfg.registerIndex .ports ≠ j := hj.symm
  simp only [Config.resetRegisters, List.getD_eq_getElem?_getD, List.getElem?_set_ne hne, List.getElem?_replicate]
  split <;> rfl

/-- Settles O53: the power-on values, field by field, and the power-on registers of any configuration. -/
theorem loadResetsEverythingAndInstalls : Obligations.LoadResetsEverythingAndInstalls :=
  fun portsReset _ _ _ => ⟨rfl, fun _ => rfl, fun cfg => ⟨Config.length_resetRegisters portsReset cfg,
    resetRegisters_getD_ports portsReset cfg, fun _ => resetRegisters_getD_other portsReset⟩⟩

/-- Settles O54: the tick after a load of no program has no record to fetch at slot 0. -/
theorem loadWithoutAProgramLeavesAnEmptyOne : Obligations.LoadWithoutAProgramLeavesAnEmptyOne := by
  refine fun portsReset message s => ⟨rfl, ?tick, rfl⟩
  case tick => exact fetchOutsideTheProgramFaults (s.load portsReset .absent) rfl (.inl rfl) (Nat.zero_le _)

/-- Settles O55: reset and load write the same values, and load alone flushes and installs. -/
theorem resetKeepsStackAndProgram : Obligations.ResetKeepsStackAndProgram :=
  fun _ _ => ⟨rfl, rfl⟩

/-- Settles O56: the model's reset state is written with the values load gives. -/
theorem resetStateIsLoadOfNothing : Obligations.ResetStateIsLoadOfNothing :=
  fun _ => rfl

/-! ### Wake, the step request and PORTS -/

theorem halted_wake (s : State) : s.wake.halted = s.fault := by
  simp [State.halted, State.wake]

theorem halted_requestStep (s : State) : s.requestStep.halted = s.fault := by
  simp [State.halted, State.requestStep]

theorem readPorts_writePorts (v : Byte) (hs : s.inv cfg = true) : (s.writePorts v cfg).readPorts cfg = v := by
  obtain ⟨-, -, hlen⟩ := State.inv_iff.1 hs
  exact State.reg_setReg_same s v (hlen ▸ Reg.index_lt .ports cfg)

/-- Settles O57: each input is its record update, and after a wake or a step request only a fault halts the core. -/
theorem wakeStepRequestAndPortsWrite : Obligations.WakeStepRequestAndPortsWrite := by
  refine fun s v => ⟨rfl, fun cfg => readPorts_writePorts v, rfl, rfl, rfl, fun h => ?running, fun h => ?faulted⟩
  all_goals simp [State.tickReturns, halted_wake, halted_requestStep, h]

/-! ### The flags word (10_state.md R44) -/

/-- Below the lane of `sp` stand five flags and the 35 unused bits: six parts of the concatenation. -/
theorem extract_sp_packFlags (s : State) : s.packFlags.extractLsb' 40 8 = s.sp := by
  unfold State.packFlags
  iterate 6 refine (BitVec.extractLsb'_append_eq_of_le (by decide)).trans ?_
  exact (BitVec.extractLsb'_append_eq_of_add_le (by decide)).trans BitVec.extractLsb'_eq_self

theorem extract_ip_packFlags (s : State) : s.packFlags.extractLsb' 48 16 = s.ip := by
  unfold State.packFlags
  iterate 7 refine (BitVec.extractLsb'_append_eq_of_le (by decide)).trans ?_
  exact BitVec.extractLsb'_eq_self

theorem extract_unused_packFlags (s : State) : s.packFlags.extractLsb' 5 35 = 0 := by
  unfold State.packFlags
  iterate 5 refine (BitVec.extractLsb'_append_eq_of_le (by decide)).trans ?_
  exact (BitVec.extractLsb'_append_eq_of_add_le (by decide)).trans BitVec.extractLsb'_eq_self

/-- Settles O58: each lane of the word is one part of the concatenation. -/
theorem flagsWordLayout : Obligations.FlagsWordLayout := by
  intro s
  refine ⟨?fault, ?zero, ?overflow, ?carry, ?wait, extract_unused_packFlags s, extract_sp_packFlags s,
    extract_ip_packFlags s⟩
  all_goals
    simp only [State.packFlags, BitVec.getLsbD_append, BitVec.getLsbD_ofBool]
    rfl

/-! ### Save and restore (R45, R46) -/

theorem restoredDiag_eq (error : Option String) : restoredDiag error = if error = some "" then none else error := by
  cases error with
  | none => rfl
  | some text => simp [restoredDiag]

/-- An index past the memory reads as an unwritten cell. -/
theorem memLookup_above {idx : Nat} (h : Config.stackSize ≤ idx) : ∀ {lo : Nat} {m : Memory}, Memory.wfFrom lo m = true →
    memLookup m idx = Config.unwrittenCell
  | _, [], _ => rfl
  | lo, (i, v) :: rest, hm => by
    obtain ⟨-, hi, -, hrest⟩ := Memory.wfFrom_cons.1 hm
    rw [memLookup, if_neg (by omega), memLookup_above h hrest]

/-- The 64 bytes of a memory in canonical form give that memory back. -/
theorem memoryOfBytes_save (h : s.stack.wf = true) : memoryOfBytes 0 s.save.stack.toList = s.stack := by
  have hlen : 0 + s.save.stack.toList.length ≤ Config.stackSize := by simp [Config.stackSize]
  refine Memory.ext_of_wfFrom (Memory.wfFrom_memoryOfBytes _ 0 hlen) h fun idx => ?_
  have hread := memLookup_memoryOfBytes _ 0 idx hlen
  rw [Nat.zero_add] at hread
  rw [hread]
  rcases Nat.lt_or_ge idx 64 with hidx | hidx
  · simp [State.save, hidx, State.memRead]
  · simp [State.save, hidx, memLookup_above hidx h]

/-- A saved state is taken by restore: its registers fit and its `sp` is within the stack. -/
theorem acceptable_save (hs : s.inv cfg = true) : s.save.acceptable cfg = true := by
  obtain ⟨hsp, -, hlen⟩ := State.inv_iff.1 hs
  have hflags : flagsSp s.save.flags = s.sp := extract_sp_packFlags s
  simp only [Snapshot.acceptable, hflags, Bool.and_eq_true, decide_eq_true_eq]
  exact ⟨hlen.le, hsp⟩

theorem restoredRegisters_of_full {bytes : List Byte} (h : bytes.length = cfg.numRegs) :
    restoredRegisters cfg bytes = bytes := by
  simp [restoredRegisters, h]

theorem restore_save (hs : s.inv cfg = true) (u : State) :
    State.restore s.save u cfg =
      { s with stepReq := false, ir := none, diag := if s.diag = some "" then none else s.diag } := by
  obtain ⟨-, hwf, hlen⟩ := State.inv_iff.1 hs
  obtain ⟨hfault, hzero, hoverflow, hcarry, hwait, -⟩ := flagsWordLayout s
  rw [State.restore, if_pos (acceptable_save hs), ← restoredDiag_eq]
  simp only [Snapshot.state, memoryOfBytes_save hwf]
  simp only [State.save, restoredRegisters_of_full hlen, flagsIp, flagsSp, extract_ip_packFlags, extract_sp_packFlags,
    hfault, hzero, hoverflow, hcarry, hwait]

/-- Settles O59: a saved state is taken, and each field of the snapshot gives its part back. -/
theorem restoreOfSaveIsTheSameState : Obligations.RestoreOfSaveIsTheSameState :=
  fun _ u => ⟨fun hs => restore_save hs u, fun _ hs => restore_save hs u⟩

/-- A snapshot's bytes are read back from the memory they give. -/
theorem memRead_snapshot (snap : Snapshot) (idx : Fin 64) : (snap.state cfg).memRead idx.val = snap.stack[idx] := by
  have hread := memLookup_memoryOfBytes snap.stack.toList 0 idx.val (by simp [Config.stackSize])
  rw [Nat.zero_add] at hread
  exact hread.trans (by simp)

/-- Five registers, read by their names. -/
theorem named_of_length_five (h : s.regs.length = 5) :
    [s.named .a, s.named .b, s.named .c, s.named .d, s.named .ports] = s.regs := by
  obtain ⟨regs⟩ := s
  match regs, h with
  | [_, _, _, _, _], _ => rfl

/-- Settles O60: the two parts of the precondition, and the fields of the restored state. -/
theorem restoreRefusesOrTakesTheSnapshot : Obligations.RestoreRefusesOrTakesTheSnapshot := by
  intro snap s
  have hacc : snap.acceptable = true ↔ snap.registers.length ≤ 5 ∧ (snap.flags.extractLsb' 40 8).toNat ≤ 64 := by
    simp only [Snapshot.acceptable, Bool.and_eq_true, decide_eq_true_eq]
    rfl
  refine ⟨fun hbad => ?refused, fun hregs hsp => ?taken⟩
  case refused => exact if_neg (by rw [hacc]; omega)
  case taken =>
    have hstate : s.restore snap = snap.state := if_pos (hacc.2 ⟨hregs, hsp⟩)
    have hlen : snap.state.regs.length = 5 := length_restoredRegisters hregs
    rw [hstate]
    exact ⟨rfl, rfl, rfl, rfl, rfl, rfl, rfl, rfl, rfl, rfl, restoredDiag_eq snap.error, rfl, rfl, memRead_snapshot snap,
      hlen, named_of_length_five hlen⟩

end Sys2Proof.Proofs
end
